-- ==== Sys2Proof/Word.lean ====
section
/-! DEFINITION. The bit strings of the spec (00_scope.md R10): bytes, 16-bit words, 32-bit status words. -/

namespace Sys2Proof

/-- A byte: 8 bits, unsigned (R10). -/
abbrev Byte := BitVec 8

/-- A word: 16 bits (R10). Operation words, CRC values and error arguments are words. -/
abbrev Word := BitVec 16

/-- A status word: 32 bits (R10, R74). -/
abbrev StatusWord := BitVec 32

end Sys2Proof
end

