-- ==== Sys2Proof/Config.lean ====
section
/-! DEFINITION. The implementation parameters of 00_scope.md R7, as plain data, with their defaults, and the free
values: constants with no body, which nothing can evaluate. -/

namespace Sys2Proof

/-- `OUT_OVF_POLICY` (R7): what a write to a full output buffer does. -/
inductive OvfPolicy where
  | dropNewest
  | lap
  deriving DecidableEq, Repr

/-- `CRC_STEP` (R7) as plain data: the default FCS-16 of 40_codec.md R100, or any other function, named by a
number (log 3). -/
inductive CrcAlg where
  | fcs16
  | other (k : Nat)
  deriving DecidableEq, Repr

/-- Which of the block's two byte arrays (R50). -/
inductive Bank where
  | obuf
  | ibuf
  deriving DecidableEq, Repr

/-- FREE VALUE. The CRC step of a model that does not take the default: an uninterpreted function (log 3). -/
opaque Config.otherCrcStep : Nat → Word → Byte → Word

/-- FREE VALUE. What a slot holds that nothing has written since the last reset: any byte (R44, R250, I7; log 7).
Its arguments are the reset counter, the array and the slot. -/
opaque Config.freeByte : Nat → Bank → Nat → Byte

/-- FREE VALUE. Whether the HOST received the byte that a reset cancelled on the link (R251, I8; log 9). Its
argument is the reset counter. -/
opaque Config.hostGotCancelled : Nat → Bool

/-- The parameters of R7. -/
structure Params where
  /-- `FLAG`, the frame delimiter. -/
  flag : Byte
  /-- `ESC`, the escape byte. -/
  esc : Byte
  /-- `MASK`, the XOR mask of an escaped byte. -/
  mask : Byte
  /-- `CRCINIT`. -/
  crcInit : Word
  /-- `CRCGOOD`. -/
  crcGood : Word
  /-- `CRC_STEP`. -/
  crcAlg : CrcAlg
  /-- `N_OUT`, capacity of the output buffer. -/
  nOut : Nat
  /-- `N_IN`, capacity of the input buffer. -/
  nIn : Nat
  /-- `OUT_OVF_POLICY`. -/
  policy : OvfPolicy
  /-- `RX_LAST_RESET`, value of `last_rx` after reset. -/
  rxLastReset : Byte
  deriving DecidableEq, Repr

/-- The defaults of R7. PRESUMED by the spec itself ("from general knowledge") for the byte values, the CRC and
`N_OUT` (log 2). `N_IN` has no default: 16, the value of 95_test_vectors.md, is a DESIGN CHOICE (log 1). -/
def Params.default : Params where
  flag := 0x7E#8
  esc := 0x7D#8
  mask := 0x20#8
  crcInit := 0xFFFF#16
  crcGood := 0xF0B8#16
  crcAlg := .fcs16
  nOut := 256
  nIn := 16
  policy := .dropNewest
  rxLastReset := 0x7E#8

end Sys2Proof
end

