-- ==== Sys2Proof/Syntax.lean ====
section
/-! DEFINITION. The operations of OWSN-HDLC (30_encoding.md R72): one constructor per row of opcode_table.json. -/

namespace Sys2Proof

/-- The block's two operation ports (R70). -/
inductive Port where
  | sw
  | link
  deriving DecidableEq, Repr

/-- The operations (R72). Every constructor carries the data field `d` of its word (R71): an operation that takes no
data ignores it (R72), but E_SEQ reports the whole operation word (R110 to R112, R178). -/
inductive Instr where
  | nop (d : Byte)
  | encOpen (d : Byte)
  | encByte (b : Byte)
  | encClose (d : Byte)
  | flush (d : Byte)
  | inhibitStart (d : Byte)
  | inhibitStop (d : Byte)
  | inRead (n : Byte)
  | frameRelease (d : Byte)
  | outStatus (d : Byte)
  | inStatus (d : Byte)
  | errStatus (d : Byte)
  | errArgs (d : Byte)
  | crcStatus (d : Byte)
  | errClear (m : Byte)
  | init (d : Byte)
  | rxByte (r : Byte)
  | txReady (d : Byte)
  deriving DecidableEq, Repr

/-- The port of an operation (R72). -/
def Instr.port : Instr → Port
  | .nop _ | .encOpen _ | .encByte _ | .encClose _ | .flush _ | .inhibitStart _ | .inhibitStop _ | .inRead _
  | .frameRelease _ | .outStatus _ | .inStatus _ | .errStatus _ | .errArgs _ | .crcStatus _ | .errClear _
  | .init _ => .sw
  | .rxByte _ | .txReady _ => .link

/-- The data field of an operation's word (R71). -/
def Instr.data : Instr → Byte
  | .nop d | .encOpen d | .encByte d | .encClose d | .flush d | .inhibitStart d | .inhibitStop d | .inRead d
  | .frameRelease d | .outStatus d | .inStatus d | .errStatus d | .errArgs d | .crcStatus d | .errClear d
  | .init d | .rxByte d | .txReady d => d

end Sys2Proof
end

