-- ==== Sys2Proof/WellFormed.lean ====
section
/-! DEFINITION. Well-formed operations and parameters. An operation of the syntax is well formed by its type (its one
field is a byte); what can be wrong is the port it arrives at (30_encoding.md R75) and the parameters of the block
(00_scope.md R7, R13). -/

namespace Sys2Proof

/-- An operation is well formed at the port that R72 gives it, and at no other (R75). -/
def Instr.wellFormedAt (p : Port) (i : Instr) : Bool :=
  i.port == p

/-- The stuffing law on the parameters (R13), which is what the constraints of R7 on `FLAG`, `ESC` and `MASK` amount
to. -/
abbrev Params.StuffingLaw (p : Params) : Prop :=
  p.flag ≠ p.esc ∧ p.flag ^^^ p.mask ≠ p.flag ∧ p.flag ^^^ p.mask ≠ p.esc ∧
    p.esc ^^^ p.mask ≠ p.flag ∧ p.esc ^^^ p.mask ≠ p.esc

/-- The constraints of R7 on a block's parameters, as the table of R7 writes them. The law that the CRC parameters
must satisfy (R12) speaks of every byte list: it is `Params.FrameCheckLaw`, in Machine/Codec.lean. -/
abbrev Params.WellFormed (p : Params) : Prop :=
  p.flag ≠ p.esc ∧ p.mask ≠ 0x00#8 ∧ p.mask ≠ p.flag ^^^ p.esc ∧ (2 ≤ p.nOut ∧ p.nOut ≤ 256) ∧
    (3 ≤ p.nIn ∧ p.nIn ≤ 255)

end Sys2Proof
end

