-- ==== Sys2Proof/Decode.lean ====
section
/-! DEFINITION. Decoding and encoding of operation words (30_encoding.md R71 to R76), and the assembler line (R81). -/

namespace Sys2Proof

/-- `op = w[15:8]` (R71). -/
def opField (w : Word) : Byte :=
  w.extractLsb' 8 8

/-- `d = w[7:0]` (R71). -/
def dataField (w : Word) : Byte :=
  w.extractLsb' 0 8

/-- The opcode map of R72, whatever the port. `none`: the opcode is not in the table (R75, first item). -/
def decodeWord (w : Word) : Option Instr :=
  let d := dataField w
  match (opField w).toNat with
  | 0x00 => some (.nop d)
  | 0x01 => some (.encOpen d)
  | 0x02 => some (.encByte d)
  | 0x03 => some (.encClose d)
  | 0x04 => some (.flush d)
  | 0x05 => some (.inhibitStart d)
  | 0x06 => some (.inhibitStop d)
  | 0x10 => some (.inRead d)
  | 0x11 => some (.frameRelease d)
  | 0x20 => some (.outStatus d)
  | 0x21 => some (.inStatus d)
  | 0x22 => some (.errStatus d)
  | 0x23 => some (.errArgs d)
  | 0x24 => some (.crcStatus d)
  | 0x25 => some (.errClear d)
  | 0x2F => some (.init d)
  | 0x40 => some (.rxByte d)
  | 0x41 => some (.txReady d)
  | _ => none

/-- What the block reads from word `w` at port `p`. `none`: the word is illegal there (R75); the block then raises
E_ILLEGAL_OP (R208). -/
def decode (p : Port) (w : Word) : Option Instr :=
  match decodeWord w with
  | none => none
  | some i => if i.wellFormedAt p then some i else none

/-- The opcode of an operation (R72). -/
def Instr.opcode : Instr → Byte
  | .nop _ => 0x00#8
  | .encOpen _ => 0x01#8
  | .encByte _ => 0x02#8
  | .encClose _ => 0x03#8
  | .flush _ => 0x04#8
  | .inhibitStart _ => 0x05#8
  | .inhibitStop _ => 0x06#8
  | .inRead _ => 0x10#8
  | .frameRelease _ => 0x11#8
  | .outStatus _ => 0x20#8
  | .inStatus _ => 0x21#8
  | .errStatus _ => 0x22#8
  | .errArgs _ => 0x23#8
  | .crcStatus _ => 0x24#8
  | .errClear _ => 0x25#8
  | .init _ => 0x2F#8
  | .rxByte _ => 0x40#8
  | .txReady _ => 0x41#8

/-- The operation word `{op, d}` (R71, R81). -/
def encode (i : Instr) : Word :=
  i.opcode ++ i.data

/-- The operation word that `nbits` bits of value `w` are: 16 bits, and no other length (R71). -/
def operationWord (nbits w : Nat) : Option Word :=
  if nbits = 16 ∧ w < 2 ^ 16 then some (BitVec.ofNat 16 w) else none

/-- The instruction read from the bits of a row of spec/opcode_table.json. Every row has 16 bits; bits of another
length are no operation word (R71). The port is not part of the word, so it is the row's own (log 17). -/
def decodeTableWord (nbits w : Nat) : Option Instr :=
  (operationWord nbits w).bind decodeWord

/-- The names of the operations in an assembler line (R81). -/
inductive Mnemonic where
  | nop | encOpen | encByte | encClose | flush | inhibitStart | inhibitStop | inRead | frameRelease | outStatus
  | inStatus | errStatus | errArgs | crcStatus | errClear | init | rxByte | txReady
  deriving DecidableEq, Repr

/-- The operation a mnemonic names, with its data field. -/
def Mnemonic.instr : Mnemonic → Byte → Instr
  | .nop, d => .nop d
  | .encOpen, d => .encOpen d
  | .encByte, d => .encByte d
  | .encClose, d => .encClose d
  | .flush, d => .flush d
  | .inhibitStart, d => .inhibitStart d
  | .inhibitStop, d => .inhibitStop d
  | .inRead, d => .inRead d
  | .frameRelease, d => .frameRelease d
  | .outStatus, d => .outStatus d
  | .inStatus, d => .inStatus d
  | .errStatus, d => .errStatus d
  | .errArgs, d => .errArgs d
  | .crcStatus, d => .crcStatus d
  | .errClear, d => .errClear d
  | .init, d => .init d
  | .rxByte, d => .rxByte d
  | .txReady, d => .txReady d

/-- Whether R72 gives the data field a meaning. -/
def Mnemonic.takesOperand : Mnemonic → Bool
  | .encByte | .inRead | .errClear | .rxByte => true
  | .nop | .encOpen | .encClose | .flush | .inhibitStart | .inhibitStop | .frameRelease | .outStatus | .inStatus
  | .errStatus | .errArgs | .crcStatus | .init | .txReady => false

/-- The assembler line `[port ":"] mnemonic [operand]` of R81: the port is the one of R72 unless given, the operand
is required exactly where R72 gives `d` a meaning, and a mnemonic without an operand is `{op, 0x00}`. R81 does not say
whether an operand may stand where `d` has no meaning: DESIGN CHOICE, such a line is refused (log 21). -/
def assemble (port : Option Port) (m : Mnemonic) (operand : Option Byte) : Option (Port × Word) :=
  match operand, m.takesOperand with
  | some b, true => some (port.getD (m.instr b).port, encode (m.instr b))
  | none, false => some (port.getD (m.instr 0x00#8).port, encode (m.instr 0x00#8))
  | _, _ => none

end Sys2Proof
end

