-- ==== Sys2Proof/Machine/State.lean ====
section
/-! DEFINITION. The state of OWSN-HDLC (10_state.md R22, R40, R43), with the agents that step it (60_exceptions.md
R230, R231) and its parameters (00_scope.md R7), as plain data; the state after reset (R44, R250). -/

namespace Sys2Proof.Machine

/-- A byte array of the block (R50): the written slots and their bytes, slots strictly rising. A slot that is not
listed has not been written since the last reset; no listed entry equals that, so the form is canonical (log 7). -/
abbrev Memory := List Host.Cell

/-- The canonical form of a byte array. -/
abbrev Memory.wf (m : Memory) : Prop :=
  (m.map Prod.fst).Pairwise (· < ·)

/-- The receive state machine (R33). -/
inductive RxState where
  | wait
  | assembling
  deriving DecidableEq, Repr

/-- The errors the block raises (R220). -/
inductive ErrKind where
  | inOverflow
  | inBadFrame
  | rdTooLarge
  | outOverflow
  | seq
  | illegalOp
  deriving DecidableEq, Repr

/-- The observable events (R40). -/
inductive Event where
  /-- `TX(b)`: byte `b` handed to the link. -/
  | tx (b : Byte)
  /-- `FC(v)`: the flow-control line driven to `v`. -/
  | fc (v : Bool)
  /-- `FRAME(n, bytes)`: a valid frame of fill level `n` became available for dispatch. -/
  | frame (n : Nat) (bytes : List Byte)
  /-- `ERR(code, a1, a2)`: an error was raised. -/
  | err (k : ErrKind) (a1 a2 : Word)
  /-- `RESET`: the block was reset. -/
  | reset
  deriving DecidableEq, Repr

/-- What an operation returns to its issuer (R74). -/
inductive Resp where
  | nothing
  | word (w : StatusWord)
  | bytes (l : List Byte)
  deriving DecidableEq, Repr

/-- What the agents outside the block bring to it, one entry per step (log 4). -/
inductive Arrival where
  /-- An operation word at a port (R70). -/
  | word (p : Port) (w : Word)
  /-- The platform's full-system reset (R252). -/
  | systemReset
  deriving DecidableEq, Repr

/-- The whole machine. The fields of R22 have R22's names. -/
structure State where
  /-- The parameters of R7. No step changes them. -/
  params : Params
  /-- `obuf` (R23). -/
  obuf : Memory
  /-- `ow` (R24). -/
  ow : Nat
  /-- `or` (R24). -/
  or : Nat
  /-- `out_crc` (R26). -/
  outCrc : Word
  /-- `enc_active` (R27). -/
  encActive : Bool
  /-- `draining` (R28). -/
  draining : Bool
  /-- `inhibited` (R29). -/
  inhibited : Bool
  /-- `sig_changed` (R29). -/
  sigChanged : Bool
  /-- `fc_out` (R30). -/
  fcOut : Bool
  /-- `ibuf` (R31). -/
  ibuf : Memory
  /-- `fill` (R32). -/
  fill : Nat
  /-- `rx_state` (R33). -/
  rxState : RxState
  /-- `escaping` (R34). -/
  escaping : Bool
  /-- `last_rx` (R35). -/
  lastRx : Byte
  /-- `in_crc` (R36). -/
  inCrc : Word
  /-- `rx_held` (R37). -/
  rxHeld : Bool
  /-- `err_sticky` (R38). -/
  errSticky : BitVec 8
  /-- `err_code` (R39). -/
  errCode : BitVec 8
  /-- `err_arg1` (R39). -/
  errArg1 : Word
  /-- `err_arg2` (R39). -/
  errArg2 : Word
  /-- The event history (R40), oldest first. -/
  history : List Event
  /-- The response of the latest operation (R11, R74; log 11). -/
  resp : Resp
  /-- The LINK agent's `link_busy` (R231), with the byte it transmits: `none` is 0. -/
  linkByte : Option Byte
  /-- The bytes delivered to the HOST (R43, R231), oldest first. -/
  hostGot : List Byte
  /-- What the agents will bring, in order of arrival (R43, R233; log 4). -/
  arrivals : List Arrival
  /-- The MODEL's own counter of resets, which the free values are applied to (log 8). -/
  draws : Nat
  deriving DecidableEq, Repr

/-- Why the machine stops. The block itself has no traps (R227); no reachable state of the model raises one of these
(the claim `Obligations.InvariantStatesNeverStop`). -/
inductive Fault where
  /-- An access to a slot of `obuf` at or above `N_OUT`, which does not exist (R22, R24). Raised by OBufWrite and
  OBufRead (ENC_*, FLUSH, INHIBIT_*, TX_READY). Safe: the model stops. -/
  | obufSlot
  /-- An access to a slot of `ibuf` at or above `N_IN`, which does not exist (R22, R31). Raised by IBufRead (RX_BYTE
  at the end of a frame, IN_READ, IN_STATUS). Safe: the model stops. -/
  | ibufSlot
  deriving DecidableEq, Repr

/-- Why the model has no meaning for an operation. -/
inductive Refusal where
  /-- The operation has no meaning yet: raised by an arm of `exec`. Safe. No arm of this model raises it. -/
  | notModelled (mnemonic : String)
  deriving DecidableEq, Repr

/-- The block with parameters `p` right after power-on reset (R44, R250, R252): nothing has arrived, the link is idle,
the history is `[RESET]` (log 12). -/
def State.resetWith (p : Params) : State where
  params := p
  obuf := []
  ow := 0
  or := 0
  outCrc := p.crcInit
  encActive := false
  draining := false
  inhibited := false
  sigChanged := false
  fcOut := true
  ibuf := []
  fill := 0
  rxState := .wait
  escaping := false
  lastRx := p.rxLastReset
  inCrc := p.crcInit
  rxHeld := false
  errSticky := 0x00#8
  errCode := 0x00#8
  errArg1 := 0x0000#16
  errArg2 := 0x0000#16
  history := [.reset]
  resp := .nothing
  linkByte := none
  hostGot := []
  arrivals := []
  draws := 0

/-- The machine right after reset, with the default parameters of R7 and `N_IN` = 16 (log 1). -/
def State.reset : State :=
  State.resetWith Params.default

end Sys2Proof.Machine
end

