-- ==== Sys2Proof/Machine/Flags.lean ====
section
/-! DEFINITION. What is computed from the state and not stored: the derived quantities of the output channel
(10_state.md R25), the named transmit states (R41) and the two level outputs (60_exceptions.md R226). -/

namespace Sys2Proof.Machine

/-- `(i + 1) mod N_OUT`, the advance of an output index (R24). -/
def State.nextSlot (s : State) (i : Nat) : Nat :=
  (i + 1) % s.params.nOut

/-- `count = (ow - or) mod N_OUT`, bytes pending (R25). With `or` below `N_OUT` the sum does not go below 0
(log 15). -/
def State.count (s : State) : Nat :=
  (s.ow + s.params.nOut - s.or) % s.params.nOut

/-- `empty = (ow == or)` (R25). -/
def State.empty (s : State) : Bool :=
  s.ow == s.or

/-- `free = N_OUT - 1 - count`, slots OPush may still fill under DROP_NEWEST (R25). -/
def State.free (s : State) : Nat :=
  s.params.nOut - 1 - s.count

/-- The transmit states of R41. -/
inductive TxState where
  | idle
  | draining
  | inhibited
  /-- "Draining, inhibit pending" (R41, C6). -/
  | drainingInhibitPending
  deriving DecidableEq, Repr

/-- The transmit state read off `draining` and `inhibited` (R41). -/
def State.txState (s : State) : TxState :=
  match s.draining, s.inhibited with
  | false, false => .idle
  | true, false => .draining
  | false, true => .inhibited
  | true, true => .drainingInhibitPending

/-- `frame_irq = rx_held` (R226). -/
def State.frameIrq (s : State) : Bool :=
  s.rxHeld

/-- `err_irq = (err_sticky != 0)` (R226). -/
def State.errIrq (s : State) : Bool :=
  s.errSticky != 0x00#8

/-- `link_busy` of the LINK agent (R231). -/
def State.linkBusy (s : State) : Bool :=
  s.linkByte.isSome

end Sys2Proof.Machine
end

