-- ==== Sys2Proof/Machine/Operands.lean ====
section
/-! DEFINITION. The forms of an operation's one operand, its data field `d` (30_encoding.md R73), and the values an
error reports (60_exceptions.md R220). -/

namespace Sys2Proof.Machine

/-- `n = zext_8(d)`, the count of IN_READ: 0 to 255, unsigned (R73). -/
def countOperand (d : Byte) : Nat :=
  d.toNat

/-- `m AND 0x3F`, the part of ERR_CLEAR's mask that names an error (R73, R206). -/
def maskOperand (d : Byte) : BitVec 8 :=
  d &&& 0x3F#8

/-- `zext_16(v)` of a count, as an error argument (R10, R220). -/
def countArg (n : Nat) : Word :=
  BitVec.ofNat 16 n

/-- `zext_16(w)`: the whole operation word of an operation, as an error argument (R110 to R112, R178, R220). -/
def wordArg (i : Instr) : Word :=
  encode i

end Sys2Proof.Machine
end

