-- ==== Sys2Proof/Machine/Ops.lean ====
section
/-! DEFINITION. The pseudocode primitives of the spec (00_scope.md R11) and the operations that several instructions
share: byte arrays (20_memory.md R50), raise (60_exceptions.md R221) and the return from an error beside it, OPush and
EncByte (40_codec.md R103 to R105), Submit and SetLine (41_output_flow.md R141, R142), the decoder primitives
(42_input.md R170 to R172), Reset (70_reset_and_hazards.md R250, R251), and taking the next arrival
(60_exceptions.md R231, R233). -/

namespace Sys2Proof.Machine

/-! ### Byte arrays -/

/-- The byte of a written slot; `none` where nothing has been written since the last reset. -/
def Memory.read? : Memory → Nat → Option Byte
  | [], _ => none
  | (a, v) :: m, i => if a = i then some v else Memory.read? m i

/-- Writing one byte, keeping the slots rising. -/
def Memory.write : Memory → Nat → Byte → Memory
  | [], i, b => [(i, b)]
  | (a, v) :: m, i, b =>
    if i < a then (i, b) :: (a, v) :: m else if i = a then (i, b) :: m else (a, v) :: Memory.write m i b

/-- What slot `i` of `obuf` holds: the byte written last, or a free byte (R44; log 7). -/
def State.obufByte (s : State) (i : Nat) : Byte :=
  (s.obuf.read? i).getD (Config.freeByte s.draws .obuf i)

/-- What slot `i` of `ibuf` holds: the byte written last, or a free byte (R44; log 7). -/
def State.ibufByte (s : State) (i : Nat) : Byte :=
  (s.ibuf.read? i).getD (Config.freeByte s.draws .ibuf i)

/-- `OBufWrite(i, b)` (R11). A slot that does not exist faults (log 16). -/
def obufWrite (i : Nat) (b : Byte) (s : State) : Except Fault State :=
  if i < s.params.nOut then .ok { s with obuf := s.obuf.write i b } else .error .obufSlot

/-- `OBufRead(i)` (R11). A slot that does not exist faults (log 16). -/
def obufRead (i : Nat) (s : State) : Except Fault Byte :=
  if i < s.params.nOut then .ok (s.obufByte i) else .error .obufSlot

/-- `[IBufRead(i), ..., IBufRead(i + n - 1)]` (R11). A slot that does not exist faults (log 16). -/
def ibufReadRange (i n : Nat) (s : State) : Except Fault (List Byte) :=
  if n = 0 ∨ i + n ≤ s.params.nIn then .ok ((List.range' i n).map s.ibufByte) else .error .ibufSlot

/-- The bytes pending in the output buffer, `obuf[or .. ow)` mod `N_OUT`, in order (R23, R25). -/
def State.pending (s : State) : List Byte :=
  (List.range s.count).map fun k => s.obufByte ((s.or + k) % s.params.nOut)

/-! ### Events, responses and errors -/

/-- `Emit(ev)` (R11, R40). -/
def emit (ev : Event) (s : State) : State :=
  { s with history := s.history ++ [ev] }

/-- `resp <- v` (R11; log 11). -/
def respond (v : Resp) (s : State) : State :=
  { s with resp := v }

/-- The number of an error (R220). -/
def ErrKind.code : ErrKind → Nat
  | .inOverflow => 1
  | .inBadFrame => 2
  | .rdTooLarge => 3
  | .outOverflow => 4
  | .seq => 5
  | .illegalOp => 6

/-- Bit `k-1` of `err_sticky`, for an error of code `k` (R38). -/
def ErrKind.stickyBit (k : ErrKind) : BitVec 8 :=
  0x01#8 <<< (k.code - 1)

/-- `raise E(a1, a2)` (R221): the block's whole exception entry. It transfers no control and stops nothing. -/
def raise (k : ErrKind) (a1 a2 : Word) (s : State) : State :=
  { s with
    errSticky := s.errSticky ||| k.stickyBit
    errCode := BitVec.ofNat 8 k.code
    errArg1 := a1
    errArg2 := a2
    history := s.history ++ [.err k a1 a2] }

/-- `raise` under a condition. -/
def raiseIf (c : Bool) (k : ErrKind) (a1 a2 : Word) (s : State) : State :=
  if c then raise k a1 a2 s else s

/-- The return from an error: acknowledging recorded errors (R206, R227). -/
def acknowledge (m : Byte) (s : State) : State :=
  { s with errSticky := s.errSticky &&& ~~~(maskOperand m) }

/-! ### The outbound codec and the output buffer -/

/-- The loop body of OPush (R104): write at `ow`, advance `ow`. -/
def pushByte (b : Byte) (s : State) : Except Fault State :=
  match obufWrite s.ow b s with
  | .error e => .error e
  | .ok t => .ok { t with ow := t.nextSlot t.ow }

/-- The loop of OPush (R104). -/
def pushAll : List Byte → State → Except Fault State
  | [], s => .ok s
  | b :: bs, s =>
    match pushByte b s with
    | .error e => .error e
    | .ok t => pushAll bs t

/-- Whether OPush writes a list of `n` bytes: always under LAP, when it fits under DROP_NEWEST (R104, R105). -/
def State.accepts (s : State) (n : Nat) : Bool :=
  match s.params.policy with
  | .dropNewest => n ≤ s.free
  | .lap => true

/-- `OPush(L)` (R104, R105): the list is written whole, or not at all with E_OUT_OVERFLOW. -/
def oPush (l : List Byte) (s : State) : Except Fault State :=
  if s.accepts l.length then pushAll l s
  else .ok (raise .outOverflow (countArg l.length) (countArg s.free) s)

/-- `EncByte(b)` (R103): the CRC is folded first and always, then the stuffed byte is pushed. -/
def encodeByte (b : Byte) (s : State) : Except Fault State :=
  oPush (s.params.stuff b) { s with outCrc := s.params.crcStep s.outCrc b }

/-! ### The link -/

/-- `Submit(b)` (R141): the byte goes to the LINK agent, whose `link_busy` is set (R231). -/
def submit (b : Byte) (s : State) : State :=
  { s with linkByte := some b, history := s.history ++ [.tx b] }

/-- `SetLine(v)` (R142): the event is recorded even when the level does not change. -/
def setLine (v : Bool) (s : State) : State :=
  { s with fcOut := v, history := s.history ++ [.fc v] }

/-- `SetLine(NOT inhibited); sig_changed <- 0`, the pending line update of FLUSH and TX_READY (R143, R144). -/
def updateLine (s : State) : State :=
  { setLine (!s.inhibited) s with sigChanged := false }

/-- `Submit(OBufRead(or)); or <- (or + 1) mod N_OUT` (R143, R144). -/
def submitNext (s : State) : Except Fault State :=
  match obufRead s.or s with
  | .error e => .error e
  | .ok b => .ok { submit b s with or := s.nextSlot s.or }

/-- The LINK agent's side of a TX_READY (R231 item 1): the byte in transmission is delivered to the HOST and
`link_busy` is cleared. Without a byte in transmission nothing happens (log 13). -/
def linkDone (s : State) : State :=
  match s.linkByte with
  | some b => { s with linkByte := none, hostGot := s.hostGot ++ [b] }
  | none => s

/-- The flush body, shared by FLUSH, INHIBIT_START and INHIBIT_STOP (R143). -/
def flushBody (s : State) : Except Fault State :=
  if s.draining then .ok s
  else if s.sigChanged then .ok (updateLine s)
  else if s.inhibited then .ok s
  else if s.empty then .ok s
  else
    match submitNext s with
    | .error e => .error e
    | .ok t => .ok { t with draining := true }

/-! ### The inbound codec -/

/-- `DecOpen()` (R170). -/
def decOpen (s : State) : State :=
  { s with fill := 0, inCrc := s.params.crcInit, escaping := false }

/-- The store of DecByte, guarded by the capacity (R171). -/
def ibufStore (b : Byte) (s : State) : State :=
  if s.fill < s.params.nIn then { s with ibuf := s.ibuf.write s.fill b } else s

/-- The part of DecByte after the escape is undone: logical byte `b` is stored, counted and folded (R171). -/
def decLogical (b : Byte) (s : State) : State :=
  { ibufStore b s with fill := s.fill + 1, inCrc := s.params.crcStep s.inCrc b }

/-- `DecByte(b)` (R171). -/
def decByte (b : Byte) (s : State) : State :=
  if b = s.params.esc then { s with escaping := true }
  else if s.escaping then decLogical (b ^^^ s.params.mask) { s with escaping := false }
  else decLogical b s

/-- `DecClose()` (R172). -/
def decClose (s : State) : State :=
  if s.inCrc = s.params.crcGood ∧ 2 ≤ s.fill then { s with fill := s.fill - 2 } else { s with fill := 0 }

/-! ### Reset -/

/-- What a reset does to the link (R251): the byte in transmission is cancelled, and whether the HOST received it is
free (I8; log 9). -/
def cancelLink (s : State) : State :=
  match s.linkByte with
  | some b =>
    { s with linkByte := none, hostGot := if Config.hostGotCancelled s.draws then s.hostGot ++ [b] else s.hostGot }
  | none => s

/-- `Reset()` (R250), with its effect on the link (R251). The contents of the buffers become unspecified: no slot is
written, and the reset counter advances, so that no earlier free byte is seen again (log 8). -/
def resetBlock (s : State) : State :=
  { cancelLink s with
    obuf := [], ow := 0, or := 0
    outCrc := s.params.crcInit, encActive := false
    draining := false, inhibited := false, sigChanged := false, fcOut := true
    ibuf := [], fill := 0, rxState := .wait, escaping := false
    lastRx := s.params.rxLastReset, inCrc := s.params.crcInit, rxHeld := false
    errSticky := 0x00#8, errCode := 0x00#8, errArg1 := 0x0000#16, errArg2 := 0x0000#16
    history := s.history ++ [.reset]
    draws := s.draws + 1 }

/-! ### Arrivals -/

/-- Whether an arrival is an RX_BYTE at the LINK port: the one operation that has an enabling condition (R179, R225).
-/
def Arrival.isReceive : Arrival → Bool
  | .word .link w => opField w == 0x40#8
  | .word .sw _ => false
  | .systemReset => false

/-- The first arrival that is enabled, and the others in their order (R225, R233). While `held` (a frame is in the
dispatch window) the LINK agent holds its raw bytes, in order, and every other operation goes on (R179; log 6). -/
def takeEnabled (held : Bool) : List Arrival → Option (Arrival × List Arrival)
  | [] => none
  | a :: as =>
    if held && a.isReceive then
      match takeEnabled held as with
      | none => none
      | some (b, rest) => some (b, a :: rest)
    else some (a, as)

/-- An illegal operation word (R208): the error, and nothing else. -/
def illegalWord (w : Word) (s : State) : State :=
  raise .illegalOp w 0x0000#16 (respond .nothing s)

/-- The platform's full-system reset (R252): the same reset as INIT's. -/
def systemReset (s : State) : State :=
  resetBlock (respond .nothing s)

/-- The outcome of a meaning that answers with a state or a model fault. -/
def finish : Except Fault State → Host.Outcome State Fault Refusal
  | .ok s => .next s
  | .error e => .fault e

end Sys2Proof.Machine
end

