-- ==== Sys2Proof/Machine/Control.lean ====
section
/-! DEFINITION. Status reads and control (43_control.md R200 to R207). -/

namespace Sys2Proof.Machine

/-- One bit of a status word. -/
def statusBit (b : Bool) : BitVec 1 :=
  BitVec.ofBool b

/-- NOP (R200). -/
def execNop (_d : Byte) (s : State) : Host.Outcome State Fault Refusal :=
  .next (respond .nothing s)

/-- `{or, ow, zext_8(count), 0b00, enc_active, fc_out, sig_changed, inhibited, draining, empty}` (R201). -/
def State.outStatusWord (s : State) : StatusWord :=
  BitVec.ofNat 8 s.or ++ BitVec.ofNat 8 s.ow ++ BitVec.ofNat 8 s.count ++ 0b00#2 ++ statusBit s.encActive ++
    statusBit s.fcOut ++ statusBit s.sigChanged ++ statusBit s.inhibited ++ statusBit s.draining ++ statusBit s.empty

/-- OUT_STATUS (R201). -/
def execOutStatus (_d : Byte) (s : State) : Host.Outcome State Fault Refusal :=
  .next (respond (.word s.outStatusWord) s)

/-- `{cmd, last_rx, fill, 0b00000, rx_held, escaping, (rx_state == ASSEMBLING)}` (R202). -/
def State.inStatusWord (s : State) (cmd : Byte) : StatusWord :=
  cmd ++ s.lastRx ++ BitVec.ofNat 8 s.fill ++ 0b00000#5 ++ statusBit s.rxHeld ++ statusBit s.escaping ++
    statusBit (s.rxState == .assembling)

/-- IN_STATUS (R202): `cmd` is the first byte of the held frame, or 0. -/
def execInStatus (_d : Byte) (s : State) : Host.Outcome State Fault Refusal :=
  if s.rxHeld then
    match ibufReadRange 0 1 s with
    | .error e => .fault e
    | .ok l => .next (respond (.word (s.inStatusWord (l.headD 0x00#8))) s)
  else .next (respond (.word (s.inStatusWord 0x00#8)) s)

/-- `{0x0000, err_code, err_sticky}` (R203). -/
def State.errStatusWord (s : State) : StatusWord :=
  0x0000#16 ++ s.errCode ++ s.errSticky

/-- ERR_STATUS (R203). -/
def execErrStatus (_d : Byte) (s : State) : Host.Outcome State Fault Refusal :=
  .next (respond (.word s.errStatusWord) s)

/-- `{err_arg2, err_arg1}` (R204). -/
def State.errArgsWord (s : State) : StatusWord :=
  s.errArg2 ++ s.errArg1

/-- ERR_ARGS (R204). -/
def execErrArgs (_d : Byte) (s : State) : Host.Outcome State Fault Refusal :=
  .next (respond (.word s.errArgsWord) s)

/-- `{in_crc, out_crc}` (R205). -/
def State.crcStatusWord (s : State) : StatusWord :=
  s.inCrc ++ s.outCrc

/-- CRC_STATUS (R205). -/
def execCrcStatus (_d : Byte) (s : State) : Host.Outcome State Fault Refusal :=
  .next (respond (.word s.crcStatusWord) s)

/-- ERR_CLEAR (R206). -/
def execErrClear (m : Byte) (s : State) : Host.Outcome State Fault Refusal :=
  .next (acknowledge m (respond .nothing s))

/-- INIT (R207): the reset of R250. -/
def execInit (_d : Byte) (s : State) : Host.Outcome State Fault Refusal :=
  .next (resetBlock (respond .nothing s))

end Sys2Proof.Machine
end

