-- ==== Sys2Proof/Machine/Encoder.lean ====
section
/-! DEFINITION. The encoder operations (40_codec.md R110 to R112). -/

namespace Sys2Proof.Machine

/-- ENC_OPEN (R110). -/
def execEncOpen (d : Byte) (s : State) : Host.Outcome State Fault Refusal :=
  let s1 := raiseIf s.encActive .seq (wordArg (.encOpen d)) 0x0000#16 (respond .nothing s)
  finish
    (match oPush [s.params.flag] { s1 with outCrc := s.params.crcInit } with
    | .error e => .error e
    | .ok t => .ok { t with encActive := true })

/-- ENC_BYTE (R111). -/
def execEncByte (b : Byte) (s : State) : Host.Outcome State Fault Refusal :=
  finish (encodeByte b (raiseIf (!s.encActive) .seq (wordArg (.encByte b)) 0x0000#16 (respond .nothing s)))

/-- ENC_CLOSE after its order check (R112): the frame check `f` is taken once, its two bytes are encoded like
content, and the closing flag is pushed unescaped. -/
def closeFrame (s : State) : Except Fault State :=
  let f := ~~~s.outCrc
  match encodeByte (lowByte f) s with
  | .error e => .error e
  | .ok t =>
    match encodeByte (highByte f) t with
    | .error e => .error e
    | .ok u =>
      match oPush [s.params.flag] u with
      | .error e => .error e
      | .ok v => .ok { v with encActive := false }

/-- ENC_CLOSE (R112). -/
def execEncClose (d : Byte) (s : State) : Host.Outcome State Fault Refusal :=
  finish (closeFrame (raiseIf (!s.encActive) .seq (wordArg (.encClose d)) 0x0000#16 (respond .nothing s)))

end Sys2Proof.Machine
end

