-- ==== Sys2Proof/Machine/Flow.lean ====
section
/-! DEFINITION. The output channel and the flow controller (41_output_flow.md R143 to R146). -/

namespace Sys2Proof.Machine

/-- FLUSH (R143). -/
def execFlush (_d : Byte) (s : State) : Host.Outcome State Fault Refusal :=
  finish (flushBody (respond .nothing s))

/-- The block's side of TX_READY (R144): a pending line update first, then one byte or the end of draining. A
spurious event does nothing (R151). -/
def transmitComplete (s : State) : Except Fault State :=
  if s.draining then
    let t := if s.sigChanged then updateLine s else s
    if t.inhibited then .ok { t with draining := false }
    else if t.empty then .ok { t with draining := false }
    else submitNext t
  else .ok s

/-- TX_READY (R144), with the LINK agent's side of it (R231). -/
def execTxReady (_d : Byte) (s : State) : Host.Outcome State Fault Refusal :=
  finish (transmitComplete (linkDone (respond .nothing s)))

/-- INHIBIT_START (R145). -/
def execInhibitStart (_d : Byte) (s : State) : Host.Outcome State Fault Refusal :=
  finish (flushBody { respond .nothing s with inhibited := true, sigChanged := true })

/-- INHIBIT_STOP (R146). -/
def execInhibitStop (_d : Byte) (s : State) : Host.Outcome State Fault Refusal :=
  finish (flushBody { respond .nothing s with inhibited := false, sigChanged := true })

end Sys2Proof.Machine
end

