-- ==== Sys2Proof/Machine/Input.lean ====
section
/-! DEFINITION. The input assembler and its consumer operations (42_input.md R174 to R178). -/

namespace Sys2Proof.Machine

/-- RX_BYTE in WAIT (R174): a non-flag byte after a flag starts a frame, any other byte is ignored. -/
def receiveWaiting (r : Byte) (s : State) : State :=
  if s.lastRx = s.params.flag ∧ r ≠ s.params.flag then decByte r (decOpen { s with rxState := .assembling }) else s

/-- RX_BYTE in the middle of a frame (R174), with the overflow check (R175). -/
def receiveInFrame (r : Byte) (s : State) : State :=
  let t := decByte r s
  if s.params.nIn < t.fill then
    { raise .inOverflow 0x0000#16 0x0000#16 t with fill := 0, rxState := .wait }
  else t

/-- RX_BYTE at the closing flag (R174, R176): an invalid or empty frame raises E_IN_BAD_FRAME with the fill level
before DecClose, a valid one opens the dispatch window. -/
def receiveClosingFlag (s : State) : Except Fault State :=
  let t := { decClose s with rxState := .wait }
  if t.fill = 0 then .ok (raise .inBadFrame (countArg s.fill) 0x0000#16 t)
  else
    match ibufReadRange 0 t.fill t with
    | .error e => .error e
    | .ok bytes => .ok (emit (.frame t.fill bytes) { t with rxHeld := true })

/-- RX_BYTE, once accepted (R174). The raw byte is recorded after every call (R35). -/
def receive (r : Byte) (s : State) : Except Fault State :=
  match s.rxState with
  | .wait => .ok { receiveWaiting r s with lastRx := r }
  | .assembling =>
    if r ≠ s.params.flag then .ok { receiveInFrame r s with lastRx := r }
    else
      match receiveClosingFlag s with
      | .error e => .error e
      | .ok t => .ok { t with lastRx := r }

/-- RX_BYTE (R174). In the dispatch window it is not enabled (R179): the LINK agent holds the byte, first in its
order, and nothing else changes (log 6). -/
def execRxByte (r : Byte) (s : State) : Host.Outcome State Fault Refusal :=
  if s.rxHeld then .next { s with arrivals := .word .link (encode (.rxByte r)) :: s.arrivals }
  else finish (receive r (respond .nothing s))

/-- `avail` of IN_READ (R177): the payload bytes of the held frame. A held frame has at least one byte (R42), so the
subtraction does not go below 0 (log 15). -/
def State.avail (s : State) : Nat :=
  if s.rxHeld then s.fill - 1 else 0

/-- IN_READ (R177). -/
def execInRead (n : Byte) (s : State) : Host.Outcome State Fault Refusal :=
  if s.avail < countOperand n then
    .next (respond (.bytes []) (raise .rdTooLarge (countArg (countOperand n)) (countArg s.avail) s))
  else
    match ibufReadRange 1 (countOperand n) s with
    | .error e => .fault e
    | .ok l => .next (respond (.bytes l) s)

/-- FRAME_RELEASE (R178). -/
def execFrameRelease (d : Byte) (s : State) : Host.Outcome State Fault Refusal :=
  if s.rxHeld then .next { respond .nothing s with fill := 0, rxHeld := false }
  else .next (raise .seq (wordArg (.frameRelease d)) 0x0000#16 (respond .nothing s))

end Sys2Proof.Machine
end

