-- ==== Sys2Proof/Machine/Dispatch.lean ====
section
/-! DEFINITION. The meaning of every operation (30_encoding.md R72): one arm per constructor of Instr. -/

namespace Sys2Proof.Machine

def exec (i : Instr) (s : State) : Host.Outcome State Fault Refusal :=
  match i with
  | .nop d => Sys2Proof.Machine.execNop d s
  | .encOpen d => Sys2Proof.Machine.execEncOpen d s
  | .encByte b => Sys2Proof.Machine.execEncByte b s
  | .encClose d => Sys2Proof.Machine.execEncClose d s
  | .flush d => Sys2Proof.Machine.execFlush d s
  | .inhibitStart d => Sys2Proof.Machine.execInhibitStart d s
  | .inhibitStop d => Sys2Proof.Machine.execInhibitStop d s
  | .inRead n => Sys2Proof.Machine.execInRead n s
  | .frameRelease d => Sys2Proof.Machine.execFrameRelease d s
  | .outStatus d => Sys2Proof.Machine.execOutStatus d s
  | .inStatus d => Sys2Proof.Machine.execInStatus d s
  | .errStatus d => Sys2Proof.Machine.execErrStatus d s
  | .errArgs d => Sys2Proof.Machine.execErrArgs d s
  | .crcStatus d => Sys2Proof.Machine.execCrcStatus d s
  | .errClear m => Sys2Proof.Machine.execErrClear m s
  | .init d => Sys2Proof.Machine.execInit d s
  | .rxByte r => Sys2Proof.Machine.execRxByte r s
  | .txReady d => Sys2Proof.Machine.execTxReady d s

end Sys2Proof.Machine
end

