-- ==== Sys2Proof/Machine/Arrive.lean ====
section
/-! DEFINITION. What an arrival does (30_encoding.md R70, R75; 43_control.md R208; 70_reset_and_hazards.md R252). -/

namespace Sys2Proof.Machine

/-- The effect of one arrival: the operation its word decodes to at its port (R70), E_ILLEGAL_OP for a word that is
illegal there (R75, R208), or the platform's reset (R252). -/
def arrive (a : Arrival) (s : State) : Host.Outcome State Fault Refusal :=
  match a with
  | .systemReset => .next (systemReset s)
  | .word p w =>
    match decode p w with
    | some i => exec i s
    | none => .next (illegalWord w s)

/-- The arrival of an operation at its own port (R72). -/
def Arrival.ofInstr (i : Instr) : Arrival :=
  .word i.port (encode i)

/-- The arrival of a word at the port that R72 gives its opcode; a word that is illegal at both ports arrives at SW.
-/
def wordArrival (w : Word) : Arrival :=
  match decodeWord w with
  | some i => .word i.port w
  | none => .word .sw w

end Sys2Proof.Machine
end

