-- ==== Sys2Proof/Machine/Step.lean ====
section
/-! DEFINITION. One step of the machine: the next enabled arrival takes effect, whole (20_memory.md R52, R59;
60_exceptions.md R230, R233). -/

namespace Sys2Proof.Machine

/-- One step: the first enabled arrival is taken out of the list and takes effect. With no enabled arrival there is
no operation, and nothing changes (log 5). -/
def step (s : State) : Host.Outcome State Fault Refusal :=
  match takeEnabled s.rxHeld s.arrivals with
  | none => .next s
  | some (a, rest) => arrive a { s with arrivals := rest }

/-- `s` with the operation word of these bits arriving next, at its own port (log 17). The word stands before every
other arrival; an RX_BYTE in the dispatch window is held there (R179). Bits of another length are no operation word
(R71), so nothing arrives. -/
def State.withFetchWord (s : State) (nbits w : Nat) : State :=
  match operationWord nbits w with
  | some v => { s with arrivals := wordArrival v :: s.arrivals }
  | none => s

end Sys2Proof.Machine
end

