-- ==== Sys2Proof/Machine/Pseudo.lean ====
section
/-! DEFINITION. Sequences of operations (20_memory.md R54) and the pseudo-operations (30_encoding.md R82). -/

namespace Sys2Proof.Machine

/-- Operations issued one after another, stopping at the first fault or refusal. -/
def runOps : List Instr → State → Host.Outcome State Fault Refusal
  | [], s => .next s
  | i :: is, s =>
    match exec i s with
    | .next t => runOps is t
    | .fault e => .fault e
    | .refused e => .refused e

/-- `ENC_FRAME b0, ..., bk` (R82). -/
def encFrame (content : List Byte) : List Instr :=
  .encOpen 0x00#8 :: (content.map Instr.encByte ++ [.encClose 0x00#8])

/-- `SEND_FRAME b0, ..., bk` (R82). -/
def sendFrame (content : List Byte) : List Instr :=
  encFrame content ++ [.flush 0x00#8]

/-- `RX_RAW r0, ..., rk` (R82). -/
def rxRaw (raw : List Byte) : List Instr :=
  raw.map Instr.rxByte

/-- `RX_FRAME b0, ..., bk` (R82). -/
def rxFrame (p : Params) (content : List Byte) : List Instr :=
  rxRaw (p.wire content)

/-- `DRAIN` (R82): TX_READY repeated while `draining = 1`, at most `n` times. -/
def drain : Nat → State → Host.Outcome State Fault Refusal
  | 0, s => .next s
  | n + 1, s =>
    if s.draining then
      match exec (.txReady 0x00#8) s with
      | .next t => drain n t
      | .fault e => .fault e
      | .refused e => .refused e
    else .next s

end Sys2Proof.Machine
end

