-- ==== Sys2Proof/Safety.lean ====
section
/-! DEFINITION. The terms that claims about the machine use: the invariants of 10_state.md R42, what a list of events
says, and what an encoder operation hands to the output buffer. -/

namespace Sys2Proof.Machine

/-! ### The invariant -/

/-- R42 items 1 and 2: the indices are in their ranges. -/
abbrev State.IndexInv (s : State) : Prop :=
  s.ow < s.params.nOut ∧ s.or < s.params.nOut ∧ s.fill ≤ s.params.nIn

/-- R42 items 3 and 4: the dispatch window and the empty assembler. -/
abbrev State.WindowInv (s : State) : Prop :=
  (s.rxHeld = true → s.rxState = .wait ∧ 1 ≤ s.fill ∧ s.fill + 2 ≤ s.params.nIn) ∧
    (s.rxState = .wait → s.rxHeld = false → s.fill = 0)

/-- R42 item 5: with no update pending, the line shows the flag. -/
abbrev State.LineInv (s : State) : Prop :=
  s.sigChanged = false → s.fcOut = !s.inhibited

/-- R42 item 6: `draining` says exactly that the LINK agent holds a byte. -/
abbrev State.LinkInv (s : State) : Prop :=
  s.draining = s.linkBusy

/-- R42 item 7: the two high sticky bits are 0. -/
abbrev State.StickyInv (s : State) : Prop :=
  s.errSticky &&& 0xC0#8 = 0x00#8

/-- Both byte arrays are in canonical form and list existing slots only (R22, R50). -/
abbrev State.MemoryInv (s : State) : Prop :=
  (s.obuf.wf ∧ s.ibuf.wf) ∧ (∀ c ∈ s.obuf, c.1 < s.params.nOut) ∧ (∀ c ∈ s.ibuf, c.1 < s.params.nIn)

/-- The slots that rules read have been written: `[or, ow)` of `obuf` and `[0, fill)` of `ibuf` (R23, R31). -/
abbrev State.WrittenInv (s : State) : Prop :=
  (∀ k < s.count, (s.obuf.read? ((s.or + k) % s.params.nOut)).isSome = true) ∧
    (∀ i < s.fill, (s.ibuf.read? i).isSome = true)

/-- What holds between any two operations (R42), with the constraints of R7 on the parameters. -/
abbrev State.Inv (s : State) : Prop :=
  s.params.WellFormed ∧ s.IndexInv ∧ s.WindowInv ∧ s.LineInv ∧ s.LinkInv ∧ s.StickyInv ∧ s.MemoryInv ∧ s.WrittenInv

/-! ### Events -/

/-- The bytes handed to the link, in order. -/
def txBytes : List Event → List Byte
  | [] => []
  | .tx b :: evs => b :: txBytes evs
  | .fc _ :: evs => txBytes evs
  | .frame _ _ :: evs => txBytes evs
  | .err _ _ _ :: evs => txBytes evs
  | .reset :: evs => txBytes evs

/-- The error registers of R38 and R39. -/
structure ErrRegs where
  sticky : BitVec 8
  code : BitVec 8
  arg1 : Word
  arg2 : Word
  deriving DecidableEq, Repr

/-- The error registers of a state. -/
def State.errRegs (s : State) : ErrRegs :=
  { sticky := s.errSticky, code := s.errCode, arg1 := s.errArg1, arg2 := s.errArg2 }

/-- The error registers after the errors of a list of events have been recorded one after another (R221, R223). -/
def recordErrors : List Event → ErrRegs → ErrRegs
  | [], r => r
  | .err k a1 a2 :: evs, r =>
    recordErrors evs { sticky := r.sticky ||| k.stickyBit, code := BitVec.ofNat 8 k.code, arg1 := a1, arg2 := a2 }
  | .tx _ :: evs, r => recordErrors evs r
  | .fc _ :: evs, r => recordErrors evs r
  | .frame _ _ :: evs, r => recordErrors evs r
  | .reset :: evs, r => recordErrors evs r

/-! ### What an encoder operation hands to the output buffer -/

/-- The byte lists an operation gives to OPush, in order (R110 to R112). -/
def State.pushes (s : State) : Instr → List (List Byte)
  | .encOpen _ => [[s.params.flag]]
  | .encByte b => [s.params.stuff b]
  | .encClose _ => [s.params.stuff (lowByte (~~~s.outCrc)), s.params.stuff (highByte (~~~s.outCrc)), [s.params.flag]]
  | .nop _ | .flush _ | .inhibitStart _ | .inhibitStop _ | .inRead _ | .frameRelease _ | .outStatus _ | .inStatus _
  | .errStatus _ | .errArgs _ | .crcStatus _ | .errClear _ | .init _ | .rxByte _ | .txReady _ => []

/-- The bytes of these lists that the buffer takes with `free` slots left: each list whole or not at all under
DROP_NEWEST (R104), every list under LAP (R105). -/
def accepted (pol : OvfPolicy) : Nat → List (List Byte) → List Byte
  | _, [] => []
  | free, l :: ls =>
    match pol with
    | .lap => l ++ accepted pol free ls
    | .dropNewest => if l.length ≤ free then l ++ accepted pol (free - l.length) ls else accepted pol free ls

/-- The overflow errors of these lists: one for each list that does not fit, with the bytes needed and the free slots
(R104, R220). None under LAP (R105). -/
def overflowErrors (pol : OvfPolicy) : Nat → List (List Byte) → List Event
  | _, [] => []
  | free, l :: ls =>
    match pol with
    | .lap => overflowErrors pol free ls
    | .dropNewest =>
      if l.length ≤ free then overflowErrors pol (free - l.length) ls
      else .err .outOverflow (countArg l.length) (countArg free) :: overflowErrors pol free ls

/-- The bytes operation `i` appends to the output buffer in state `s`. -/
def State.appended (s : State) (i : Instr) : List Byte :=
  accepted s.params.policy s.free (s.pushes i)

/-- `t` is `s` with the bytes `l` written to `obuf` from slot `ow` on, wrapping at `N_OUT`, and `ow` advanced past
them (R24, R104): the slots of the last `N_OUT` bytes of `l` hold them, every other slot is as before. -/
def AppendsBytes (l : List Byte) (s t : State) : Prop :=
  t.ow = (s.ow + l.length) % s.params.nOut ∧
    (∀ k : Nat, ∀ b : Byte, l[k]? = some b → l.length ≤ k + s.params.nOut →
      t.obufByte ((s.ow + k) % s.params.nOut) = b) ∧
    (∀ a : Nat, (∀ k < l.length, a ≠ (s.ow + k) % s.params.nOut) → t.obufByte a = s.obufByte a)

/-- What an encoder operation does besides its CRC and `enc_active` (R110 to R112): the order error if it is out of
order, then the overflow errors, are recorded; the bytes the buffer takes are appended; nothing else changes. -/
def EncoderEffect (i : Instr) (outOfOrder : Bool) (s t : State) : Prop :=
  AppendsBytes (s.appended i) s t ∧
    (∃ evs : List Event,
      evs = (if outOfOrder then [.err .seq (encode i) 0x0000#16] else []) ++
          overflowErrors s.params.policy s.free (s.pushes i) ∧
        t.history = s.history ++ evs ∧ t.errRegs = recordErrors evs s.errRegs) ∧
    t.resp = .nothing ∧
    { t with
      obuf := s.obuf, ow := s.ow, outCrc := s.outCrc, encActive := s.encActive, errSticky := s.errSticky,
      errCode := s.errCode, errArg1 := s.errArg1, errArg2 := s.errArg2, history := s.history, resp := s.resp } = s

/-- The frame check of a content under the block's CRC: the law of R12 for this one content. -/
abbrev FrameCheckHolds (p : Params) (content : List Byte) : Prop :=
  p.crcFold p.crcInit (p.frameBytes content) = p.crcGood

end Sys2Proof.Machine
end

