-- ==== Sys2Proof/Certificates/Slice0/Obligations.lean ====
section
/-! DEFINITION. The statements about the model, for the provers. Each docstring names the rule of spec/ it formalises.
-/

open Sys2Proof Sys2Proof.Machine

/-! ### Encoding and steps -/

/-- R71, R72, R75: what the decoder reads at a port is exactly the operation whose encoding the word is, if that
operation belongs to the port; no bit of a word is dropped, and no word has two meanings. -/
def Obligations.DecodeReadsExactlyTheEncodedOperation : Prop :=
  ∀ (p : Port) (w : Word) (i : Instr), decode p w = some i ↔ i.port = p ∧ encode i = w

/-- R72: the opcode map, one line per row of the table, with any data field. -/
def Obligations.OpcodeMapDecodesRowByRow : Prop :=
  ∀ d : Byte,
    decode .sw (0x00#8 ++ d) = some (.nop d) ∧ decode .sw (0x01#8 ++ d) = some (.encOpen d) ∧
    decode .sw (0x02#8 ++ d) = some (.encByte d) ∧ decode .sw (0x03#8 ++ d) = some (.encClose d) ∧
    decode .sw (0x04#8 ++ d) = some (.flush d) ∧ decode .sw (0x05#8 ++ d) = some (.inhibitStart d) ∧
    decode .sw (0x06#8 ++ d) = some (.inhibitStop d) ∧ decode .sw (0x10#8 ++ d) = some (.inRead d) ∧
    decode .sw (0x11#8 ++ d) = some (.frameRelease d) ∧ decode .sw (0x20#8 ++ d) = some (.outStatus d) ∧
    decode .sw (0x21#8 ++ d) = some (.inStatus d) ∧ decode .sw (0x22#8 ++ d) = some (.errStatus d) ∧
    decode .sw (0x23#8 ++ d) = some (.errArgs d) ∧ decode .sw (0x24#8 ++ d) = some (.crcStatus d) ∧
    decode .sw (0x25#8 ++ d) = some (.errClear d) ∧ decode .sw (0x2F#8 ++ d) = some (.init d) ∧
    decode .link (0x40#8 ++ d) = some (.rxByte d) ∧ decode .link (0x41#8 ++ d) = some (.txReady d)

/-- R75, R208: the legal opcodes of each port, written out; every other word is illegal there, and a step on an
illegal word raises E_ILLEGAL_OP(w, 0) and changes nothing else. -/
def Obligations.IllegalWordRaisesAndChangesNothingElse : Prop :=
  ∀ (p : Port) (w : Word) (legal : List Byte),
    legal = (match p with
      | .sw => [0x00#8, 0x01#8, 0x02#8, 0x03#8, 0x04#8, 0x05#8, 0x06#8, 0x10#8, 0x11#8, 0x20#8, 0x21#8, 0x22#8,
          0x23#8, 0x24#8, 0x25#8, 0x2F#8]
      | .link => [0x40#8, 0x41#8]) →
    (decode p w = none ↔ w.extractLsb' 8 8 ∉ legal) ∧
    ∀ (s : State) (rest : List Arrival), s.arrivals = .word p w :: rest → w.extractLsb' 8 8 ∉ legal →
      step s = .next { s with
        arrivals := rest, resp := .nothing, errSticky := s.errSticky ||| 0x20#8, errCode := 6#8, errArg1 := w,
        errArg2 := 0#16, history := s.history ++ [.err .illegalOp w 0#16] }

/-- R52, R70, R230: when the next arrival is a word that decodes to an operation, and that operation is enabled, the
step is the operation's meaning on the state with the arrival taken out. -/
def Obligations.StepRunsDecodedOperation : Prop :=
  ∀ (s : State) (p : Port) (w : Word) (rest : List Arrival) (i : Instr),
    s.arrivals = .word p w :: rest → decode p w = some i → (s.rxHeld = false ∨ ∀ r, i ≠ .rxByte r) →
    step s = exec i { s with arrivals := rest }

/-- R179, R225: in the dispatch window the raw bytes that arrive are held by the LINK agent, in order; the first other
operation takes its step past them; when nothing else arrives nothing changes (log 5); an RX_BYTE that is issued
anyway changes nothing, and its byte stays first in the LINK agent's order (log 6); FRAME_RELEASE lifts the hold and
leaves the held bytes where they are. -/
def Obligations.HeldReceiveWaitsWhileOthersRun : Prop :=
  ∀ s : State, s.rxHeld = true →
    (∀ (held : List Byte) (a : Arrival) (rest : List Arrival), a.isReceive = false →
      s.arrivals = held.map (fun r => Arrival.ofInstr (.rxByte r)) ++ a :: rest →
      step s = arrive a { s with arrivals := held.map (fun r => Arrival.ofInstr (.rxByte r)) ++ rest }) ∧
    (∀ held : List Byte, s.arrivals = held.map (fun r => Arrival.ofInstr (.rxByte r)) → step s = .next s) ∧
    (∀ r : Byte, exec (.rxByte r) s = .next { s with arrivals := Arrival.ofInstr (.rxByte r) :: s.arrivals }) ∧
    (∀ d : Byte, ∃ t, exec (.frameRelease d) s = .next t ∧ t.rxHeld = false ∧ t.arrivals = s.arrivals)

/-- R52, R54, R230: a sequence of operations that ends with nothing held back is what as many steps of the machine do
when exactly these operations arrive, one after another, at their ports; so what is stated about sequences of operations
is said of runs of the machine. -/
def Obligations.RunOfArrivalsRunsTheOperations : Prop :=
  ∀ (is : List Instr) (s t : State), runOps is { s with arrivals := [] } = .next t → t.arrivals = [] →
    Host.Core.run Sys2Proof.core is.length { s with arrivals := is.map Arrival.ofInstr } = .next t

/-- R252: the platform's full-system reset is the same reset as INIT's. -/
def Obligations.SystemResetStepIsTheInitReset : Prop :=
  ∀ (s : State) (rest : List Arrival) (d : Byte), s.arrivals = .systemReset :: rest →
    step s = exec (.init d) { s with arrivals := rest }

/-! ### Status and control -/

/-- R200: NOP leaves every field unchanged; it returns nothing to its issuer (log 11). -/
def Obligations.NopLeavesEveryFieldUnchanged : Prop :=
  ∀ (d : Byte) (s : State), decode .sw (0x00#8 ++ d) = some (.nop d) ∧
    ∃ t, exec (.nop d) s = .next t ∧ t.resp = .nothing ∧ { t with resp := s.resp } = s

/-- R55, first item: the status reads and NOP have no side effect, and repeating one gives the same state and
response. -/
def Obligations.StatusReadsHaveNoSideEffect : Prop :=
  ∀ (d : Byte) (i : Instr) (s t : State),
    i ∈ [.outStatus d, .inStatus d, .errStatus d, .errArgs d, .crcStatus d, .nop d] →
    exec i s = .next t → { t with resp := s.resp } = s ∧ exec i t = .next t

/-- R201: OUT_STATUS completes in every state, and every field of its word by bit number. -/
def Obligations.OutStatusReturnsTheOutputFields : Prop :=
  ∀ (d : Byte) (s : State), decode .sw (0x20#8 ++ d) = some (.outStatus d) ∧ ∃ w : StatusWord,
    exec (.outStatus d) s = .next { s with resp := .word w } ∧
    w.getLsbD 0 = decide (s.ow = s.or) ∧ w.getLsbD 1 = s.draining ∧ w.getLsbD 2 = s.inhibited ∧
    w.getLsbD 3 = s.sigChanged ∧ w.getLsbD 4 = s.fcOut ∧ w.getLsbD 5 = s.encActive ∧
    w.extractLsb' 6 2 = 0#2 ∧ w.extractLsb' 8 8 = BitVec.ofNat 8 s.count ∧
    w.extractLsb' 16 8 = BitVec.ofNat 8 s.ow ∧ w.extractLsb' 24 8 = BitVec.ofNat 8 s.or ∧
    (∀ p : Params, s = State.resetWith p → w = 0x00000011#32)

/-- R202: IN_STATUS completes, and every field of its word by bit number; `cmd` is the first byte of the held frame,
or 0. -/
def Obligations.InStatusReturnsTheInputFields : Prop :=
  ∀ (d : Byte) (s : State), (s.rxHeld = true → 1 ≤ s.params.nIn) →
    decode .sw (0x21#8 ++ d) = some (.inStatus d) ∧ ∃ w : StatusWord,
    exec (.inStatus d) s = .next { s with resp := .word w } ∧
    w.getLsbD 0 = decide (s.rxState = .assembling) ∧ w.getLsbD 1 = s.escaping ∧ w.getLsbD 2 = s.rxHeld ∧
    w.extractLsb' 3 5 = 0#5 ∧ w.extractLsb' 8 8 = BitVec.ofNat 8 s.fill ∧ w.extractLsb' 16 8 = s.lastRx ∧
    w.extractLsb' 24 8 = (if s.rxHeld then s.ibufByte 0 else 0#8) ∧
    (∀ p : Params, s = State.resetWith p → w.extractLsb' 16 8 = p.rxLastReset ∧ w.extractLsb' 0 16 = 0#16)

/-- R203: ERR_STATUS completes in every state, and every field of its word. -/
def Obligations.ErrStatusReturnsTheErrorSummary : Prop :=
  ∀ (d : Byte) (s : State), decode .sw (0x22#8 ++ d) = some (.errStatus d) ∧ ∃ w : StatusWord,
    exec (.errStatus d) s = .next { s with resp := .word w } ∧
    w.extractLsb' 0 8 = s.errSticky ∧ w.extractLsb' 8 8 = s.errCode ∧ w.extractLsb' 16 16 = 0#16 ∧
    (∀ p : Params, s = State.resetWith p → w = 0#32)

/-- R204: ERR_ARGS completes in every state, and both fields of its word. -/
def Obligations.ErrArgsReturnsBothArguments : Prop :=
  ∀ (d : Byte) (s : State), decode .sw (0x23#8 ++ d) = some (.errArgs d) ∧ ∃ w : StatusWord,
    exec (.errArgs d) s = .next { s with resp := .word w } ∧
    w.extractLsb' 0 16 = s.errArg1 ∧ w.extractLsb' 16 16 = s.errArg2 ∧
    (∀ p : Params, s = State.resetWith p → w = 0#32)

/-- R205: CRC_STATUS completes in every state, and both fields of its word. -/
def Obligations.CrcStatusReturnsBothCrcs : Prop :=
  ∀ (d : Byte) (s : State), decode .sw (0x24#8 ++ d) = some (.crcStatus d) ∧ ∃ w : StatusWord,
    exec (.crcStatus d) s = .next { s with resp := .word w } ∧
    w.extractLsb' 0 16 = s.outCrc ∧ w.extractLsb' 16 16 = s.inCrc ∧
    (∀ p : Params, s = State.resetWith p → w.extractLsb' 0 16 = p.crcInit ∧ w.extractLsb' 16 16 = p.crcInit)

/-- R206: ERR_CLEAR completes in every state; bit `k` of `err_sticky` is cleared where the mask has it and `k` is below
6; nothing else changes. -/
def Obligations.ErrClearClearsExactlyTheMaskedErrors : Prop :=
  ∀ (m : Byte) (s : State), decode .sw (0x25#8 ++ m) = some (.errClear m) ∧
    ∃ t, exec (.errClear m) s = .next t ∧ t.resp = .nothing ∧
    (∀ k < 8, t.errSticky.getLsbD k = (s.errSticky.getLsbD k && !(m.getLsbD k && decide (k < 6)))) ∧
    { t with errSticky := s.errSticky, resp := s.resp } = s

/-- R207, R250, R252: INIT completes in every state and puts every field of the block at its reset value: but for the
history, the bytes the HOST has, what is still to arrive and the model's own counter, the machine is the one a power-on
reset with the same parameters leaves. The event RESET is appended, and nothing that is still to arrive is lost. -/
def Obligations.InitIsAPowerOnReset : Prop :=
  ∀ (d : Byte) (s : State), ∃ t, exec (.init d) s = .next t ∧
    { t with history := [.reset], hostGot := [], arrivals := [], draws := 0 } = State.resetWith s.params ∧
    t.history = s.history ++ [.reset] ∧ t.arrivals = s.arrivals ∧
    t.ow = 0 ∧ t.or = 0 ∧ t.outCrc = s.params.crcInit ∧ t.encActive = false ∧ t.draining = false ∧
    t.inhibited = false ∧ t.sigChanged = false ∧ t.fcOut = true ∧ t.fill = 0 ∧ t.rxState = .wait ∧
    t.escaping = false ∧ t.lastRx = s.params.rxLastReset ∧ t.inCrc = s.params.crcInit ∧ t.rxHeld = false ∧
    t.errSticky = 0#8 ∧ t.errCode = 0#8 ∧ t.errArg1 = 0#16 ∧ t.errArg2 = 0#16 ∧
    (∀ a : Nat, t.obuf.read? a = none ∧ t.ibuf.read? a = none)

/-- R251: a reset cancels the byte on the link: `link_busy` is cleared, and the HOST has received the byte or has not;
it has received nothing else. -/
def Obligations.ResetCancelsTheByteInFlight : Prop :=
  ∀ (d : Byte) (s : State), ∃ t, exec (.init d) s = .next t ∧ t.linkBusy = false ∧
    (t.hostGot = s.hostGot ∨ ∃ b, s.linkByte = some b ∧ t.hostGot = s.hostGot ++ [b])

/-! ### Encoder -/

/-- R110: ENC_OPEN completes, restarts the CRC, opens an encode and appends one unescaped FLAG, or raises
E_OUT_OVERFLOW(1, free) where it does not fit; E_SEQ is raised first if an encode is open. `EncoderEffect` says the
bytes, the errors and the frame. -/
def Obligations.EncOpenRestartsTheCrcAndAppendsFlag : Prop :=
  ∀ (d : Byte) (s : State), s.ow < s.params.nOut → s.or < s.params.nOut →
    decode .sw (0x01#8 ++ d) = some (.encOpen d) ∧
    ∃ t, exec (.encOpen d) s = .next t ∧ t.outCrc = s.params.crcInit ∧ t.encActive = true ∧
      EncoderEffect (.encOpen d) s.encActive s t

/-- R111, R103: ENC_BYTE completes, folds the byte always, and appends its stuffed form if it fits; E_SEQ is raised
first if no encode is open. -/
def Obligations.EncByteFoldsAlwaysAndAppendsStuffed : Prop :=
  ∀ (b : Byte) (s : State), s.ow < s.params.nOut → s.or < s.params.nOut →
    decode .sw (0x02#8 ++ b) = some (.encByte b) ∧
    ∃ t, exec (.encByte b) s = .next t ∧ t.outCrc = s.params.crcStep s.outCrc b ∧ t.encActive = s.encActive ∧
      EncoderEffect (.encByte b) (!s.encActive) s t

/-- R112: ENC_CLOSE completes, appends the two stuffed bytes of the complemented CRC, low byte first, and an unescaped
FLAG, each list whole or not at all, folds both CRC bytes, and closes the encode; E_SEQ is raised first if no encode
is open. -/
def Obligations.EncCloseAppendsFrameCheckAndFlag : Prop :=
  ∀ (d : Byte) (s : State), s.ow < s.params.nOut → s.or < s.params.nOut →
    decode .sw (0x03#8 ++ d) = some (.encClose d) ∧
    ∃ t, exec (.encClose d) s = .next t ∧ t.encActive = false ∧
      t.outCrc = s.params.crcStep (s.params.crcStep s.outCrc ((~~~s.outCrc).extractLsb' 0 8))
        ((~~~s.outCrc).extractLsb' 8 8) ∧
      (∀ content, s.outCrc = s.params.crcFold s.params.crcInit content → FrameCheckHolds s.params content →
        t.outCrc = s.params.crcGood) ∧
      EncoderEffect (.encClose d) (!s.encActive) s t

/-- R105: under LAP the encoder operations never raise E_OUT_OVERFLOW and drop nothing: the count of pending bytes
goes on modulo N_OUT, and where it comes back to 0 the channel reads as empty. -/
def Obligations.LapNeverRefusesAndLosesSilently : Prop :=
  ∀ (i : Instr) (d : Byte) (s t : State), s.params.policy = .lap → s.ow < s.params.nOut → s.or < s.params.nOut →
    i ∈ [.encOpen d, .encByte d, .encClose d] → exec i s = .next t →
    t.count = (s.count + (s.pushes i).flatten.length) % s.params.nOut ∧
    (∀ a1 a2 : Word, Event.err .outOverflow a1 a2 ∉ t.history.drop s.history.length) ∧
    (t.count = 0 → t.empty = true ∧ t.pending = []) ∧
    AppendsBytes (s.pushes i).flatten s t

/-- R113: a complete encode from a closed encoder with room for the frame appends exactly the wire form of its content
to the pending bytes, raises no error, and leaves the encoder closed with the CRC of the content and its frame
check. -/
def Obligations.CompleteEncodeAppendsTheWireForm : Prop :=
  ∀ (content : List Byte) (s : State), s.ow < s.params.nOut → s.or < s.params.nOut → s.encActive = false →
    (s.params.wire content).length ≤ s.free →
    ∃ t, runOps (encFrame content) s = .next t ∧ t.pending = s.pending ++ s.params.wire content ∧
      t.ow = (s.ow + (s.params.wire content).length) % s.params.nOut ∧
      t.history = s.history ∧ t.errRegs = s.errRegs ∧ t.encActive = false ∧
      t.outCrc = s.params.crcFold s.params.crcInit (s.params.frameBytes content) ∧
      { t with obuf := s.obuf, ow := s.ow, outCrc := s.outCrc, resp := s.resp } = s

/-! ### Output channel and flow controller -/

/-- R143: FLUSH completes; its five cases. -/
def Obligations.FlushUpdatesTheLineOrSubmitsOneByte : Prop :=
  ∀ (d : Byte) (s : State), s.or < s.params.nOut →
    decode .sw (0x04#8 ++ d) = some (.flush d) ∧
    (s.draining = true → exec (.flush d) s = .next { s with resp := .nothing }) ∧
    (s.draining = false → s.sigChanged = true →
      exec (.flush d) s = .next { s with
        resp := .nothing, fcOut := !s.inhibited, sigChanged := false, history := s.history ++ [.fc (!s.inhibited)] }) ∧
    (s.draining = false → s.sigChanged = false → s.inhibited = true →
      exec (.flush d) s = .next { s with resp := .nothing }) ∧
    (s.draining = false → s.sigChanged = false → s.inhibited = false → s.ow ≠ s.or →
      exec (.flush d) s = .next { s with
        resp := .nothing, linkByte := some (s.obufByte s.or), or := (s.or + 1) % s.params.nOut, draining := true,
        history := s.history ++ [.tx (s.obufByte s.or)] }) ∧
    (s.draining = false → s.sigChanged = false → s.inhibited = false → s.ow = s.or →
      exec (.flush d) s = .next { s with resp := .nothing })

/-- R144, with the LINK agent's part of R231 item 1: TX_READY with a byte in flight delivers that byte; a pending line
update comes first, then one byte is submitted or draining ends. -/
def Obligations.TxReadyUpdatesTheLineThenSubmitsOrStops : Prop :=
  ∀ (d b : Byte) (s : State), s.or < s.params.nOut → s.draining = true → s.linkByte = some b →
    ∃ t, exec (.txReady d) s = .next t ∧ t.hostGot = s.hostGot ++ [b] ∧ t.resp = .nothing ∧ t.sigChanged = false ∧
      t.fcOut = (if s.sigChanged then !s.inhibited else s.fcOut) ∧
      (if s.inhibited = false ∧ s.ow ≠ s.or then
        t.draining = true ∧ t.linkByte = some (s.obufByte s.or) ∧ t.or = (s.or + 1) % s.params.nOut ∧
          t.history = s.history ++ (if s.sigChanged then [.fc (!s.inhibited)] else []) ++ [.tx (s.obufByte s.or)]
      else
        t.draining = false ∧ t.linkByte = none ∧ t.or = s.or ∧
          t.history = s.history ++ (if s.sigChanged then [.fc (!s.inhibited)] else [])) ∧
      { t with
        hostGot := s.hostGot, resp := s.resp, sigChanged := s.sigChanged, fcOut := s.fcOut, draining := s.draining,
        linkByte := s.linkByte, or := s.or, history := s.history } = s

/-- R151: a TX_READY with nothing draining changes no state of the block and records no event. -/
def Obligations.SpuriousTxReadyDoesNothing : Prop :=
  ∀ (d : Byte) (s : State), s.draining = false →
    ∃ t, exec (.txReady d) s = .next t ∧ t.history = s.history ∧
      { t with resp := s.resp, linkByte := s.linkByte, hostGot := s.hostGot } = s ∧
      (s.linkByte = none → { t with resp := s.resp } = s)

/-- R145, R146: INHIBIT_START and INHIBIT_STOP complete in every state. With a byte in flight they only set the two
flags; otherwise the line is driven at once, no byte is sent, and no update stays pending. -/
def Obligations.InhibitSetsTheFlagAndDrivesAnIdleLine : Prop :=
  ∀ (d : Byte) (s : State),
    (decode .sw (0x05#8 ++ d) = some (.inhibitStart d) ∧ decode .sw (0x06#8 ++ d) = some (.inhibitStop d)) ∧
    (s.draining = true →
      exec (.inhibitStart d) s = .next { s with resp := .nothing, inhibited := true, sigChanged := true } ∧
      exec (.inhibitStop d) s = .next { s with resp := .nothing, inhibited := false, sigChanged := true }) ∧
    (s.draining = false →
      exec (.inhibitStart d) s = .next { s with
        resp := .nothing, inhibited := true, sigChanged := false, fcOut := false,
        history := s.history ++ [.fc false] } ∧
      exec (.inhibitStop d) s = .next { s with
        resp := .nothing, inhibited := false, sigChanged := false, fcOut := true,
        history := s.history ++ [.fc true] })

/-- R147: any number of INHIBIT_START operations leaves `inhibited = 1`; a later INHIBIT_STOP leaves `inhibited = 0`,
after which FLUSH (nothing draining) or TX_READY (a byte in flight) submits the next pending byte. -/
def Obligations.InhibitIsIdempotentAndStopRestoresDraining : Prop :=
  ∀ (n : Nat) (d : Byte) (s : State), s.or < s.params.nOut →
    ∃ t u : State, runOps (List.replicate (n + 1) (.inhibitStart d)) s = .next t ∧ t.inhibited = true ∧
      exec (.inhibitStop d) t = .next u ∧ u.inhibited = false ∧
      (s.ow ≠ s.or →
        ∃ v : State,
          exec (if s.draining then .txReady d else .flush d) u = .next v ∧
          txBytes v.history = txBytes s.history ++ [s.obufByte s.or] ∧ v.or = (s.or + 1) % s.params.nOut)

/-- R148, first sentence: from an inhibited state, no operation but INHIBIT_STOP and INIT lets a byte be submitted, and
the state stays inhibited. (INIT, a reset, ends the inhibition too, which R148 does not mention.) -/
def Obligations.NoByteIsSubmittedWhileInhibited : Prop :=
  ∀ (is : List Instr) (s t : State), s.inhibited = true →
    (∀ d : Byte, .inhibitStop d ∉ is ∧ .init d ∉ is) → runOps is s = .next t →
    t.inhibited = true ∧ txBytes t.history = txBytes s.history

/-- R148, second sentence: from an inhibited state, in any sequence of operations without a reset, an FC(1) event
comes before the first byte that is submitted. -/
def Obligations.LineIsReassertedBeforeTheNextByte : Prop :=
  ∀ (is : List Instr) (s t : State) (before after : List Event) (b : Byte), s.inhibited = true →
    (∀ d : Byte, .init d ∉ is) → runOps is s = .next t →
    t.history = s.history ++ (before ++ .tx b :: after) → .fc true ∈ before

/-- R149, R28: at most one byte is outstanding. An operation submits at most one byte; an operation other than
TX_READY submits one only when the LINK agent holds none; and with `draining` meaning that it holds one, that meaning
is kept. -/
def Obligations.AtMostOneByteIsOutstanding : Prop :=
  ∀ (i : Instr) (s t : State), s.LinkInv → exec i s = .next t →
    t.LinkInv ∧
    (i.port = .sw → txBytes t.history ≠ txBytes s.history → s.linkByte = none) ∧
    (txBytes t.history).length ≤ (txBytes s.history).length + 1

/-- R150, R231 item 1, bounded: with a byte in flight and no inhibition, as many TX_READY events as there are bytes not
yet delivered submit every pending byte in order, deliver them all to the HOST, and end draining. -/
def Obligations.DrainingDeliversEveryPendingByte : Prop :=
  ∀ (d b : Byte) (s : State), s.ow < s.params.nOut → s.or < s.params.nOut → s.draining = true →
    s.inhibited = false → s.linkByte = some b →
    ∃ t, runOps (List.replicate (s.count + 1) (.txReady d)) s = .next t ∧
      txBytes t.history = txBytes s.history ++ s.pending ∧ t.hostGot = s.hostGot ++ b :: s.pending ∧
      t.pending = [] ∧ t.draining = false ∧ t.linkByte = none

/-- R272, bounded: a SEND_FRAME that fits, with no inhibition, delivers the byte in flight, the pending bytes and then
the wire form of the content to the HOST, in order, with one TX_READY for each of these bytes, and raises no error.
Draining may have been active already; if it was not and a line update is pending, one more FLUSH starts it. The number
of TX_READY events takes the place of fairness (log 20), and delivery is recorded at TX_READY (log 10). -/
def Obligations.SendFrameReachesTheHost : Prop :=
  ∀ (content inFlight : List Byte) (d : Byte) (s : State), s.ow < s.params.nOut → s.or < s.params.nOut →
    s.encActive = false → s.inhibited = false → (s.draining = true → s.linkBusy = true) →
    (s.params.wire content).length ≤ s.free → inFlight = (if s.draining then s.linkByte.toList else []) →
    ∃ t, runOps (sendFrame content ++ (if s.draining = false ∧ s.sigChanged = true then [.flush d] else []) ++
        List.replicate (inFlight ++ s.pending ++ s.params.wire content).length (.txReady d)) s = .next t ∧
      t.hostGot = s.hostGot ++ (inFlight ++ s.pending ++ s.params.wire content) ∧
      txBytes t.history = txBytes s.history ++ (s.pending ++ s.params.wire content) ∧
      t.errRegs = s.errRegs ∧ t.draining = false ∧ t.pending = []

/-- R58: under DROP_NEWEST the output channel is a FIFO. For every operation but INIT, the bytes submitted so far
followed by the bytes pending are those from before, followed by the bytes the operation appended: no byte is lost,
repeated or reordered. -/
def Obligations.OutputChannelIsAFifo : Prop :=
  ∀ (i : Instr) (s t : State), s.ow < s.params.nOut → s.or < s.params.nOut → s.params.policy = .dropNewest →
    (∀ d, i ≠ .init d) → exec i s = .next t →
    txBytes t.history ++ t.pending = txBytes s.history ++ s.pending ++ s.appended i

/-- R231 items 1 and 3: for every operation but INIT, the bytes delivered to the HOST followed by the byte in flight
grow by exactly the bytes the operation submits, in order. -/
def Obligations.LinkDeliversSubmittedBytesInOrder : Prop :=
  ∀ (i : Instr) (s t : State), s.LinkInv → (∀ d, i ≠ .init d) → exec i s = .next t →
    ∃ new : List Byte, txBytes t.history = txBytes s.history ++ new ∧
      t.hostGot ++ t.linkByte.toList = s.hostGot ++ s.linkByte.toList ++ new

/-- R24, R30, R43: the frame of FLUSH, INHIBIT_START, INHIBIT_STOP and TX_READY: they write `or`, the flow controller's
fields, the link, the history and the response, and nothing else; no slot of either array changes. -/
def Obligations.FlowOperationsFrame : Prop :=
  ∀ (d : Byte) (i : Instr) (s t : State), i ∈ [.flush d, .inhibitStart d, .inhibitStop d, .txReady d] →
    exec i s = .next t →
    { t with
      or := s.or, draining := s.draining, inhibited := s.inhibited, sigChanged := s.sigChanged, fcOut := s.fcOut,
      history := s.history, linkByte := s.linkByte, hostGot := s.hostGot, resp := s.resp } = s ∧
    (i ≠ .txReady d → t.hostGot = s.hostGot) ∧ t.errRegs = s.errRegs ∧
    (∀ a : Nat, t.obufByte a = s.obufByte a ∧ t.ibufByte a = s.ibufByte a)

/-! ### Input assembler -/

/-- R174, WAIT: a non-flag byte after a flag starts a frame, with the CRC and the escape flag fresh (R170) and the byte
decoded (R171); any other byte is only recorded. -/
def Obligations.ReceiveInWaitStartsAFrameOrIgnores : Prop :=
  ∀ (r : Byte) (s : State), s.rxHeld = false → s.rxState = .wait → 1 ≤ s.params.nIn →
    (¬(s.lastRx = s.params.flag ∧ r ≠ s.params.flag) →
      exec (.rxByte r) s = .next { s with lastRx := r, resp := .nothing }) ∧
    (s.lastRx = s.params.flag → r ≠ s.params.flag → r = s.params.esc →
      exec (.rxByte r) s = .next { s with
        rxState := .assembling, fill := 0, inCrc := s.params.crcInit, escaping := true, lastRx := r,
        resp := .nothing }) ∧
    (s.lastRx = s.params.flag → r ≠ s.params.flag → r ≠ s.params.esc →
      ∃ t, exec (.rxByte r) s = .next t ∧ t.rxState = .assembling ∧ t.fill = 1 ∧
        t.inCrc = s.params.crcStep s.params.crcInit r ∧ t.escaping = false ∧ t.lastRx = r ∧ t.resp = .nothing ∧
        t.ibufByte 0 = r ∧ (∀ a, a ≠ 0 → t.ibufByte a = s.ibufByte a) ∧
        { t with
          rxState := s.rxState, fill := s.fill, inCrc := s.inCrc, escaping := s.escaping, lastRx := s.lastRx,
          resp := s.resp, ibuf := s.ibuf } = s)

/-- R174, R171, R175, middle of a frame: ESC only sets the escape flag; any other byte is unescaped if the flag is set,
stored at `fill`, counted and folded; a byte for which there is no slot is folded but not stored, raises
E_IN_OVERFLOW(0, 0) and discards the frame. -/
def Obligations.ReceiveInFrameDecodesOneByte : Prop :=
  ∀ (r : Byte) (s : State) (b : Byte), s.rxHeld = false → s.rxState = .assembling → s.fill ≤ s.params.nIn →
    r ≠ s.params.flag → b = (if s.escaping then r ^^^ s.params.mask else r) →
    (r = s.params.esc → exec (.rxByte r) s = .next { s with escaping := true, lastRx := r, resp := .nothing }) ∧
    (r ≠ s.params.esc → s.fill < s.params.nIn →
      ∃ t, exec (.rxByte r) s = .next t ∧ t.fill = s.fill + 1 ∧ t.inCrc = s.params.crcStep s.inCrc b ∧
        t.escaping = false ∧ t.lastRx = r ∧ t.resp = .nothing ∧ t.ibufByte s.fill = b ∧
        (∀ a, a ≠ s.fill → t.ibufByte a = s.ibufByte a) ∧
        { t with
          fill := s.fill, inCrc := s.inCrc, escaping := s.escaping, lastRx := s.lastRx, resp := s.resp,
          ibuf := s.ibuf } = s) ∧
    (r ≠ s.params.esc → s.fill = s.params.nIn →
      exec (.rxByte r) s = .next { s with
        fill := 0, rxState := .wait, inCrc := s.params.crcStep s.inCrc b, escaping := false, lastRx := r,
        resp := .nothing, errSticky := s.errSticky ||| 0x01#8, errCode := 1#8, errArg1 := 0#16, errArg2 := 0#16,
        history := s.history ++ [.err .inOverflow 0#16 0#16] })

/-- R174, R172, R176, end of a frame: a FLAG in a frame closes it. A good CRC over more than two logical bytes opens
the dispatch window with the two CRC bytes dropped and the frame's bytes in the FRAME event; anything else raises
E_IN_BAD_FRAME with the fill level before the close. -/
def Obligations.ClosingFlagDispatchesOrRaises : Prop :=
  ∀ (s : State), s.rxHeld = false → s.rxState = .assembling → s.fill ≤ s.params.nIn →
    (s.inCrc = s.params.crcGood ∧ 3 ≤ s.fill →
      exec (.rxByte s.params.flag) s = .next { s with
        fill := s.fill - 2, rxState := .wait, rxHeld := true, lastRx := s.params.flag, resp := .nothing,
        history := s.history ++ [.frame (s.fill - 2) ((List.range (s.fill - 2)).map s.ibufByte)] }) ∧
    (¬(s.inCrc = s.params.crcGood ∧ 3 ≤ s.fill) →
      exec (.rxByte s.params.flag) s = .next { s with
        fill := 0, rxState := .wait, lastRx := s.params.flag, resp := .nothing,
        errSticky := s.errSticky ||| 0x02#8, errCode := 2#8, errArg1 := BitVec.ofNat 16 s.fill, errArg2 := 0#16,
        history := s.history ++ [.err .inBadFrame (BitVec.ofNat 16 s.fill) 0#16] })

/-- R35: every accepted RX_BYTE records its raw byte, and no other operation but INIT changes `last_rx`. -/
def Obligations.LastRawByteIsAlwaysRecorded : Prop :=
  ∀ s t : State,
    (∀ r : Byte, s.rxHeld = false → exec (.rxByte r) s = .next t → t.lastRx = r) ∧
    (∀ i : Instr, (∀ r : Byte, i ≠ .rxByte r ∧ i ≠ .init r) → exec i s = .next t → t.lastRx = s.lastRx)

/-- R22, R31, R234: the frame of RX_BYTE. It writes the input assembler's fields, the error registers, the history and
the response; of the input buffer only the slot it stores to (slot 0 at the start of a frame, `fill` inside one), and
none when the byte is FLAG, ESC, ignored or has no slot; and what is to arrive only while it waits. -/
def Obligations.ReceiveFrame : Prop :=
  ∀ (r : Byte) (s t : State), exec (.rxByte r) s = .next t →
    { t with
      ibuf := s.ibuf, fill := s.fill, rxState := s.rxState, escaping := s.escaping, lastRx := s.lastRx,
      inCrc := s.inCrc, rxHeld := s.rxHeld, errSticky := s.errSticky, errCode := s.errCode, errArg1 := s.errArg1,
      errArg2 := s.errArg2, history := s.history, resp := s.resp, arrivals := s.arrivals } = s ∧
    (∀ a : Nat, t.obufByte a = s.obufByte a) ∧
    (∀ a : Nat, a ≠ (match s.rxState with | .wait => 0 | .assembling => s.fill) → t.ibufByte a = s.ibufByte a) ∧
    ((s.rxHeld = true ∨ r = s.params.flag ∨ r = s.params.esc ∨ (s.rxState = .wait ∧ s.lastRx ≠ s.params.flag) ∨
        (s.rxState = .assembling ∧ s.params.nIn ≤ s.fill)) → ∀ a : Nat, t.ibufByte a = s.ibufByte a) ∧
    (s.rxHeld = false → t.arrivals = s.arrivals)

/-- R177: IN_READ completes. It returns the `n` payload bytes after the command identifier when the held frame has
them, and otherwise raises E_RD_TOO_LARGE(n, avail) and returns no byte; outside the window `avail` is 0. -/
def Obligations.InReadReturnsPayloadOrRaises : Prop :=
  ∀ (d : Byte) (s : State) (avail : Nat), s.fill ≤ s.params.nIn →
    (s.rxHeld = true → 1 ≤ s.fill) → avail = (if s.rxHeld then s.fill - 1 else 0) →
    decode .sw (0x10#8 ++ d) = some (.inRead d) ∧
    (d.toNat ≤ avail →
      exec (.inRead d) s = .next { s with resp := .bytes ((List.range d.toNat).map fun k => s.ibufByte (k + 1)) }) ∧
    (avail < d.toNat →
      exec (.inRead d) s = .next { s with
        resp := .bytes [], errSticky := s.errSticky ||| 0x04#8, errCode := 3#8,
        errArg1 := BitVec.ofNat 16 d.toNat, errArg2 := BitVec.ofNat 16 avail,
        history := s.history ++ [.err .rdTooLarge (BitVec.ofNat 16 d.toNat) (BitVec.ofNat 16 avail)] })

/-- R178: FRAME_RELEASE completes in every state: it ends the dispatch window, or raises E_SEQ with its own operation
word and does nothing else. -/
def Obligations.FrameReleaseEndsTheWindowOrRaises : Prop :=
  ∀ (d : Byte) (s : State), decode .sw (0x11#8 ++ d) = some (.frameRelease d) ∧
    (s.rxHeld = true → exec (.frameRelease d) s = .next { s with fill := 0, rxHeld := false, resp := .nothing }) ∧
    (s.rxHeld = false →
      exec (.frameRelease d) s = .next { s with
        resp := .nothing, errSticky := s.errSticky ||| 0x10#8, errCode := 5#8, errArg1 := 0x11#8 ++ d,
        errArg2 := 0#16, history := s.history ++ [.err .seq (0x11#8 ++ d) 0#16] })

/-- R22, R31: the frame of IN_READ and FRAME_RELEASE: no slot of either array changes; IN_READ writes only the error
registers, the history and the response; FRAME_RELEASE also `fill` and `rx_held`. -/
def Obligations.ConsumerOperationsFrame : Prop :=
  ∀ (d : Byte) (i : Instr) (s t : State), i ∈ [.inRead d, .frameRelease d] → exec i s = .next t →
    { t with
      fill := s.fill, rxHeld := s.rxHeld, errSticky := s.errSticky, errCode := s.errCode, errArg1 := s.errArg1,
      errArg2 := s.errArg2, history := s.history, resp := s.resp } = s ∧
    (i = .inRead d → t.fill = s.fill ∧ t.rxHeld = s.rxHeld) ∧
    (∀ a : Nat, t.obufByte a = s.obufByte a ∧ t.ibufByte a = s.ibufByte a)

/-- R180: the round trip. The wire form of a content that fits, fed byte by byte from WAIT with any `last_rx` and
`escaping`, ends with the FRAME event of exactly that content, the dispatch window open on it, and no error. The
premises are the stuffing law (R13) and the frame-check law (R12), the latter for this content. -/
def Obligations.ReceivingAWireFormYieldsItsContent : Prop :=
  ∀ (content : List Byte) (s : State), 1 ≤ content.length → content.length + 2 ≤ s.params.nIn →
    s.params.StuffingLaw → FrameCheckHolds s.params content → s.rxState = .wait → s.rxHeld = false →
    ∃ t, runOps (rxFrame s.params content) s = .next t ∧
      t.history = s.history ++ [.frame content.length content] ∧ t.rxHeld = true ∧ t.fill = content.length ∧
      (∀ k < content.length, content[k]? = some (t.ibufByte k)) ∧ t.errRegs = s.errRegs

/-- R183: the wire form of the empty content passes the check and is still reported as E_IN_BAD_FRAME(2, 0); under
the defaults it is `7E 00 00 7E`. -/
def Obligations.EmptyFrameIsReportedAsBad : Prop :=
  Params.default.wire [] = [0x7E#8, 0x00#8, 0x00#8, 0x7E#8] ∧
  ∀ s : State, 2 ≤ s.params.nIn → s.params.StuffingLaw → FrameCheckHolds s.params [] → s.rxState = .wait →
    s.rxHeld = false →
    ∃ t, runOps (rxFrame s.params []) s = .next t ∧ t.history = s.history ++ [.err .inBadFrame 2#16 0#16] ∧
      t.rxHeld = false ∧ t.fill = 0 ∧ t.rxState = .wait

/-- R181: overflow resumes cleanly. More than N_IN non-FLAG raw bytes after a start, the first N_IN + 1 of them no ESC,
raise exactly one E_IN_OVERFLOW, on the (N_IN + 1)-th; the frame is discarded, the later bytes are ignored; and the next
FLAG followed by another byte starts a new frame. -/
def Obligations.OverflowIsRaisedOnceAndReceptionResumes : Prop :=
  ∀ (raw : List Byte) (r : Byte) (s : State), 1 ≤ s.params.nIn → s.params.nIn < raw.length →
    (∀ b ∈ raw, b ≠ s.params.flag) → (∀ b ∈ raw.take (s.params.nIn + 1), b ≠ s.params.esc) → r ≠ s.params.flag →
    s.rxState = .wait → s.rxHeld = false →
    ∃ t u v : State,
      runOps (rxRaw (s.params.flag :: raw.take s.params.nIn)) s = .next t ∧ t.history = s.history ∧
      runOps (rxRaw (s.params.flag :: raw)) s = .next u ∧
      u.history = s.history ++ [.err .inOverflow 0#16 0#16] ∧ u.rxState = .wait ∧ u.fill = 0 ∧
      runOps (rxRaw [s.params.flag, r]) u = .next v ∧ v.rxState = .assembling ∧ v.history = u.history

/-- R185: with the default CRC, the wire form of a content with one bit of one raw byte between its flags inverted,
where the inversion neither makes nor unmakes a FLAG or an ESC, is rejected: E_IN_BAD_FRAME with the whole logical
length, no FRAME event, no dispatch window. -/
def Obligations.SingleBitFlipIsRejected : Prop :=
  ∀ (content before after : List Byte) (x : Byte) (k : Nat) (s : State),
    s.params.crcAlg = .fcs16 → s.params.crcInit = 0xFFFF#16 → s.params.crcGood = 0xF0B8#16 → s.params.StuffingLaw →
    content.length + 2 ≤ s.params.nIn →
    s.params.stuffAll (s.params.frameBytes content) = before ++ x :: after → k < 8 →
    x ≠ s.params.esc → x ^^^ (1#8 <<< k) ≠ s.params.flag → x ^^^ (1#8 <<< k) ≠ s.params.esc →
    s.rxState = .wait → s.rxHeld = false →
    ∃ t, runOps (rxRaw (s.params.flag :: (before ++ (x ^^^ (1#8 <<< k)) :: after ++ [s.params.flag]))) s = .next t ∧
      t.history = s.history ++ [.err .inBadFrame (BitVec.ofNat 16 (content.length + 2)) 0#16] ∧ t.rxHeld = false

/-! ### The codec's functions -/

/-- R101: the default CRC step equals its table form, for every CRC and byte, with the table as the spec prints it. -/
def Obligations.CrcStepEqualsItsTableForm : Prop :=
  fcsTable.length = 256 ∧
  (∀ b : Byte, fcsTable[b.toNat]? = some (fcs16Step 0x0000#16 b)) ∧
  ∀ (c : Word) (b : Byte),
    fcs16Step c b = (c >>> 8) ^^^ (fcsTable[((c ^^^ b.setWidth 16).extractLsb' 0 8).toNat]?.getD 0#16)

/-- R102, all four items, for the default parameters: the check value; the frame-check law (R12) for every content; no
single byte gives the good residue, and neither does the initial value; the step is linear, and two streams of one
length that differ in one bit leave different CRCs. -/
def Obligations.DefaultCrcProperties : Prop :=
  ~~~(Params.default.crcFold 0xFFFF#16
      [0x31#8, 0x32#8, 0x33#8, 0x34#8, 0x35#8, 0x36#8, 0x37#8, 0x38#8, 0x39#8]) = 0x906E#16 ∧
  (Params.default.crcInit = 0xFFFF#16 ∧ Params.default.crcGood = 0xF0B8#16 ∧ Params.default.FrameCheckLaw) ∧
  (∀ b : Byte, fcs16Step 0xFFFF#16 b ≠ 0xF0B8#16) ∧
  (∀ (c c' : Word) (b b' : Byte), fcs16Step (c ^^^ c') (b ^^^ b') = fcs16Step c b ^^^ fcs16Step c' b') ∧
  (∀ (c : Word) (before after : List Byte) (b : Byte) (k : Nat), k < 8 →
    Params.default.crcFold c (before ++ b :: after) ≠
      Params.default.crcFold c (before ++ (b ^^^ (1#8 <<< k)) :: after))

/-- R13, R7: the constraints of R7 give the stuffing law; with the law, the encoded content of a frame holds no FLAG and
every ESC in it is followed by a byte that is neither FLAG nor ESC; and the defaults satisfy the law. -/
def Obligations.StuffedContentHidesFlagAndPairsEsc : Prop :=
  (∀ p : Params, p.WellFormed → p.StuffingLaw) ∧
  (∀ (p : Params) (content : List Byte), p.StuffingLaw → p.flag ∉ p.stuffAll content ∧
    ∀ before after : List Byte, p.stuffAll content = before ++ p.esc :: after →
      ∃ x rest, after = x :: rest ∧ x ≠ p.flag ∧ x ≠ p.esc) ∧
  (Params.default.StuffingLaw ∧ Params.default.flag ^^^ Params.default.mask = 0x5E#8 ∧
    Params.default.esc ^^^ Params.default.mask = 0x5D#8)

/-- R114: the wire form of a content has between |P| + 4 and 2|P| + 6 bytes, two more than the stuffed lengths of the
content and CRC bytes add up to; and with N_OUT = 256 under DROP_NEWEST a content of at most 124 bytes fits an empty
buffer. -/
def Obligations.FrameSpaceIsBounded : Prop :=
  ∀ (content : List Byte) (p : Params),
    (p.wire content).length = 2 + ((p.frameBytes content).map fun b => (p.stuff b).length).sum ∧
    content.length + 4 ≤ (p.wire content).length ∧ (p.wire content).length ≤ 2 * content.length + 6 ∧
    (∀ s : State, s.params = p → p.nOut = 256 → p.policy = .dropNewest → s.ow = s.or → s.or < 256 →
      content.length ≤ 124 → (p.wire content).length ≤ s.free)

/-! ### Errors, events and the whole machine -/

/-- R221, R223, R38, R39: for every operation but ERR_CLEAR and INIT, the error registers after it are those before it
with the operation's own ERR events recorded one after another; so the code and arguments end holding the last, and no
sticky bit is lost. -/
def Obligations.ErrorRegistersRecordTheErrorEvents : Prop :=
  ∀ (i : Instr) (s t : State), (∀ d, i ≠ .errClear d ∧ i ≠ .init d) → exec i s = .next t →
    ∃ evs : List Event, t.history = s.history ++ evs ∧ t.errRegs = recordErrors evs s.errRegs ∧
      s.errSticky &&& t.errSticky = s.errSticky

/-- R40: the history is append-only, through every step. -/
def Obligations.HistoryIsAppendOnly : Prop :=
  ∀ s t : State, step s = .next t → s.history <+: t.history

/-- R226: the level outputs. `frame_irq` is up exactly in the dispatch window and FRAME_RELEASE clears it; `err_irq`
is up exactly when a sticky bit is set, ERR_CLEAR takes it down when its mask covers every set bit, and with the high
bits 0 (R42 item 7) the mask 0x3F always does. -/
def Obligations.InterruptOutputsFollowTheirCauses : Prop :=
  ∀ s : State,
    (s.frameIrq = true ↔ s.rxHeld = true) ∧ (s.errIrq = true ↔ s.errSticky ≠ 0#8) ∧
    (∀ (d : Byte) (t : State), exec (.frameRelease d) s = .next t → t.frameIrq = false) ∧
    (∀ (m : Byte) (t : State), exec (.errClear m) s = .next t →
      (t.errIrq = false ↔ s.errSticky &&& ~~~(m &&& 0x3F#8) = 0#8)) ∧
    (∀ t : State, s.StickyInv → exec (.errClear 0x3F#8) s = .next t → t.errIrq = false)

/-- R7, R43: no step changes the parameters. -/
def Obligations.ParametersNeverChange : Prop :=
  ∀ s t : State, step s = .next t → t.params = s.params

/-- R234: TX_READY and RX_BYTE commute: either order ends in the same state but for the order of their events in the
history. In the dispatch window R179 does not enable RX_BYTE; that it completes there too, with its byte put back, is the
model's choice (log 6). -/
def Obligations.TxReadyAndReceiveCommute : Prop :=
  ∀ (d r : Byte) (s : State), s.or < s.params.nOut → s.fill ≤ s.params.nIn →
    ∃ (a b u v : State) (tx rx : List Event),
      exec (.txReady d) s = .next a ∧ exec (.rxByte r) a = .next u ∧
      exec (.rxByte r) s = .next b ∧ exec (.txReady d) b = .next v ∧
      u.history = s.history ++ (tx ++ rx) ∧ v.history = s.history ++ (rx ++ tx) ∧
      { u with history := [] } = { v with history := [] }

/-- R42: every step keeps the invariant: the indices in range, the dispatch window and the empty assembler, the line,
the link, the sticky bits, the canonical form of both arrays, and every slot a rule reads written. -/
def Obligations.EveryStepKeepsTheInvariant : Prop :=
  ∀ s t : State, s.Inv → step s = .next t → t.Inv

/-- R42, R250: the state after reset meets the invariant, for all parameters that R7 allows. -/
def Obligations.ResetMeetsTheInvariant : Prop :=
  (∀ p : Params, p.WellFormed → (State.resetWith p).Inv) ∧ State.reset.Inv

/-- R227, R233, R253: nothing stops the machine. In a state that meets the invariant every operation answers a next
state, and so does the step. Four of these cases are the model's choice, where the spec does not enable an operation or
lets a model refuse it: the step with nothing enabled (log 5), RX_BYTE in the dispatch window (log 6), TX_READY with
`draining` = 0 (log 13) and an illegal word (log 14). -/
def Obligations.InvariantStatesNeverStop : Prop :=
  ∀ s : State, s.Inv → (∃ t, step s = .next t) ∧ ∀ i : Instr, ∃ t, exec i s = .next t

/-- R23, R31, R44: the unspecified contents of the buffers are never observed. In a state that meets the invariant,
no operation but INIT depends on the free bytes of the unwritten slots: with another draw of them it does the same. -/
def Obligations.UnspecifiedContentsAreNeverObserved : Prop :=
  ∀ (i : Instr) (s t : State) (n : Nat), s.Inv → (∀ d, i ≠ .init d) → exec i s = .next t →
    exec i { s with draws := n } = .next { t with draws := n }
end

