-- ==== Sys2Proof/Laws/State.lean ====
section
/-! SUPPORT. One lemma per field per update of the state, for the updates that several operations share: what the update
writes, and that it leaves every other field alone. -/

namespace Sys2Proof.Machine

/-! ### Emit (R11) -/

@[simp] theorem emit_params (ev : Event) (s : State) : (emit ev s).params = s.params := rfl
@[simp] theorem emit_obuf (ev : Event) (s : State) : (emit ev s).obuf = s.obuf := rfl
@[simp] theorem emit_ow (ev : Event) (s : State) : (emit ev s).ow = s.ow := rfl
@[simp] theorem emit_or (ev : Event) (s : State) : (emit ev s).or = s.or := rfl
@[simp] theorem emit_outCrc (ev : Event) (s : State) : (emit ev s).outCrc = s.outCrc := rfl
@[simp] theorem emit_encActive (ev : Event) (s : State) : (emit ev s).encActive = s.encActive := rfl
@[simp] theorem emit_draining (ev : Event) (s : State) : (emit ev s).draining = s.draining := rfl
@[simp] theorem emit_inhibited (ev : Event) (s : State) : (emit ev s).inhibited = s.inhibited := rfl
@[simp] theorem emit_sigChanged (ev : Event) (s : State) : (emit ev s).sigChanged = s.sigChanged := rfl
@[simp] theorem emit_fcOut (ev : Event) (s : State) : (emit ev s).fcOut = s.fcOut := rfl
@[simp] theorem emit_ibuf (ev : Event) (s : State) : (emit ev s).ibuf = s.ibuf := rfl
@[simp] theorem emit_fill (ev : Event) (s : State) : (emit ev s).fill = s.fill := rfl
@[simp] theorem emit_rxState (ev : Event) (s : State) : (emit ev s).rxState = s.rxState := rfl
@[simp] theorem emit_escaping (ev : Event) (s : State) : (emit ev s).escaping = s.escaping := rfl
@[simp] theorem emit_lastRx (ev : Event) (s : State) : (emit ev s).lastRx = s.lastRx := rfl
@[simp] theorem emit_inCrc (ev : Event) (s : State) : (emit ev s).inCrc = s.inCrc := rfl
@[simp] theorem emit_rxHeld (ev : Event) (s : State) : (emit ev s).rxHeld = s.rxHeld := rfl
@[simp] theorem emit_errSticky (ev : Event) (s : State) : (emit ev s).errSticky = s.errSticky := rfl
@[simp] theorem emit_errCode (ev : Event) (s : State) : (emit ev s).errCode = s.errCode := rfl
@[simp] theorem emit_errArg1 (ev : Event) (s : State) : (emit ev s).errArg1 = s.errArg1 := rfl
@[simp] theorem emit_errArg2 (ev : Event) (s : State) : (emit ev s).errArg2 = s.errArg2 := rfl
@[simp] theorem emit_history (ev : Event) (s : State) : (emit ev s).history = s.history ++ [ev] := rfl
@[simp] theorem emit_resp (ev : Event) (s : State) : (emit ev s).resp = s.resp := rfl
@[simp] theorem emit_linkByte (ev : Event) (s : State) : (emit ev s).linkByte = s.linkByte := rfl
@[simp] theorem emit_hostGot (ev : Event) (s : State) : (emit ev s).hostGot = s.hostGot := rfl
@[simp] theorem emit_arrivals (ev : Event) (s : State) : (emit ev s).arrivals = s.arrivals := rfl
@[simp] theorem emit_draws (ev : Event) (s : State) : (emit ev s).draws = s.draws := rfl

/-! ### the response (R11) -/

@[simp] theorem respond_params (v : Resp) (s : State) : (respond v s).params = s.params := rfl
@[simp] theorem respond_obuf (v : Resp) (s : State) : (respond v s).obuf = s.obuf := rfl
@[simp] theorem respond_ow (v : Resp) (s : State) : (respond v s).ow = s.ow := rfl
@[simp] theorem respond_or (v : Resp) (s : State) : (respond v s).or = s.or := rfl
@[simp] theorem respond_outCrc (v : Resp) (s : State) : (respond v s).outCrc = s.outCrc := rfl
@[simp] theorem respond_encActive (v : Resp) (s : State) : (respond v s).encActive = s.encActive := rfl
@[simp] theorem respond_draining (v : Resp) (s : State) : (respond v s).draining = s.draining := rfl
@[simp] theorem respond_inhibited (v : Resp) (s : State) : (respond v s).inhibited = s.inhibited := rfl
@[simp] theorem respond_sigChanged (v : Resp) (s : State) : (respond v s).sigChanged = s.sigChanged := rfl
@[simp] theorem respond_fcOut (v : Resp) (s : State) : (respond v s).fcOut = s.fcOut := rfl
@[simp] theorem respond_ibuf (v : Resp) (s : State) : (respond v s).ibuf = s.ibuf := rfl
@[simp] theorem respond_fill (v : Resp) (s : State) : (respond v s).fill = s.fill := rfl
@[simp] theorem respond_rxState (v : Resp) (s : State) : (respond v s).rxState = s.rxState := rfl
@[simp] theorem respond_escaping (v : Resp) (s : State) : (respond v s).escaping = s.escaping := rfl
@[simp] theorem respond_lastRx (v : Resp) (s : State) : (respond v s).lastRx = s.lastRx := rfl
@[simp] theorem respond_inCrc (v : Resp) (s : State) : (respond v s).inCrc = s.inCrc := rfl
@[simp] theorem respond_rxHeld (v : Resp) (s : State) : (respond v s).rxHeld = s.rxHeld := rfl
@[simp] theorem respond_errSticky (v : Resp) (s : State) : (respond v s).errSticky = s.errSticky := rfl
@[simp] theorem respond_errCode (v : Resp) (s : State) : (respond v s).errCode = s.errCode := rfl
@[simp] theorem respond_errArg1 (v : Resp) (s : State) : (respond v s).errArg1 = s.errArg1 := rfl
@[simp] theorem respond_errArg2 (v : Resp) (s : State) : (respond v s).errArg2 = s.errArg2 := rfl
@[simp] theorem respond_history (v : Resp) (s : State) : (respond v s).history = s.history := rfl
@[simp] theorem respond_resp (v : Resp) (s : State) : (respond v s).resp = v := rfl
@[simp] theorem respond_linkByte (v : Resp) (s : State) : (respond v s).linkByte = s.linkByte := rfl
@[simp] theorem respond_hostGot (v : Resp) (s : State) : (respond v s).hostGot = s.hostGot := rfl
@[simp] theorem respond_arrivals (v : Resp) (s : State) : (respond v s).arrivals = s.arrivals := rfl
@[simp] theorem respond_draws (v : Resp) (s : State) : (respond v s).draws = s.draws := rfl

/-! ### raise (R221) -/

@[simp] theorem raise_params (k : ErrKind) (a1 a2 : Word) (s : State) : (raise k a1 a2 s).params = s.params := rfl
@[simp] theorem raise_obuf (k : ErrKind) (a1 a2 : Word) (s : State) : (raise k a1 a2 s).obuf = s.obuf := rfl
@[simp] theorem raise_ow (k : ErrKind) (a1 a2 : Word) (s : State) : (raise k a1 a2 s).ow = s.ow := rfl
@[simp] theorem raise_or (k : ErrKind) (a1 a2 : Word) (s : State) : (raise k a1 a2 s).or = s.or := rfl
@[simp] theorem raise_outCrc (k : ErrKind) (a1 a2 : Word) (s : State) : (raise k a1 a2 s).outCrc = s.outCrc := rfl
@[simp] theorem raise_encActive (k : ErrKind) (a1 a2 : Word) (s : State) : (raise k a1 a2 s).encActive = s.encActive := rfl
@[simp] theorem raise_draining (k : ErrKind) (a1 a2 : Word) (s : State) : (raise k a1 a2 s).draining = s.draining := rfl
@[simp] theorem raise_inhibited (k : ErrKind) (a1 a2 : Word) (s : State) : (raise k a1 a2 s).inhibited = s.inhibited := rfl
@[simp] theorem raise_sigChanged (k : ErrKind) (a1 a2 : Word) (s : State) : (raise k a1 a2 s).sigChanged = s.sigChanged := rfl
@[simp] theorem raise_fcOut (k : ErrKind) (a1 a2 : Word) (s : State) : (raise k a1 a2 s).fcOut = s.fcOut := rfl
@[simp] theorem raise_ibuf (k : ErrKind) (a1 a2 : Word) (s : State) : (raise k a1 a2 s).ibuf = s.ibuf := rfl
@[simp] theorem raise_fill (k : ErrKind) (a1 a2 : Word) (s : State) : (raise k a1 a2 s).fill = s.fill := rfl
@[simp] theorem raise_rxState (k : ErrKind) (a1 a2 : Word) (s : State) : (raise k a1 a2 s).rxState = s.rxState := rfl
@[simp] theorem raise_escaping (k : ErrKind) (a1 a2 : Word) (s : State) : (raise k a1 a2 s).escaping = s.escaping := rfl
@[simp] theorem raise_lastRx (k : ErrKind) (a1 a2 : Word) (s : State) : (raise k a1 a2 s).lastRx = s.lastRx := rfl
@[simp] theorem raise_inCrc (k : ErrKind) (a1 a2 : Word) (s : State) : (raise k a1 a2 s).inCrc = s.inCrc := rfl
@[simp] theorem raise_rxHeld (k : ErrKind) (a1 a2 : Word) (s : State) : (raise k a1 a2 s).rxHeld = s.rxHeld := rfl
@[simp] theorem raise_errSticky (k : ErrKind) (a1 a2 : Word) (s : State) : (raise k a1 a2 s).errSticky = s.errSticky ||| k.stickyBit := rfl
@[simp] theorem raise_errCode (k : ErrKind) (a1 a2 : Word) (s : State) : (raise k a1 a2 s).errCode = BitVec.ofNat 8 k.code := rfl
@[simp] theorem raise_errArg1 (k : ErrKind) (a1 a2 : Word) (s : State) : (raise k a1 a2 s).errArg1 = a1 := rfl
@[simp] theorem raise_errArg2 (k : ErrKind) (a1 a2 : Word) (s : State) : (raise k a1 a2 s).errArg2 = a2 := rfl
@[simp] theorem raise_history (k : ErrKind) (a1 a2 : Word) (s : State) : (raise k a1 a2 s).history = s.history ++ [.err k a1 a2] := rfl
@[simp] theorem raise_resp (k : ErrKind) (a1 a2 : Word) (s : State) : (raise k a1 a2 s).resp = s.resp := rfl
@[simp] theorem raise_linkByte (k : ErrKind) (a1 a2 : Word) (s : State) : (raise k a1 a2 s).linkByte = s.linkByte := rfl
@[simp] theorem raise_hostGot (k : ErrKind) (a1 a2 : Word) (s : State) : (raise k a1 a2 s).hostGot = s.hostGot := rfl
@[simp] theorem raise_arrivals (k : ErrKind) (a1 a2 : Word) (s : State) : (raise k a1 a2 s).arrivals = s.arrivals := rfl
@[simp] theorem raise_draws (k : ErrKind) (a1 a2 : Word) (s : State) : (raise k a1 a2 s).draws = s.draws := rfl

/-! ### ERR_CLEAR's write (R206) -/

@[simp] theorem acknowledge_params (m : Byte) (s : State) : (acknowledge m s).params = s.params := rfl
@[simp] theorem acknowledge_obuf (m : Byte) (s : State) : (acknowledge m s).obuf = s.obuf := rfl
@[simp] theorem acknowledge_ow (m : Byte) (s : State) : (acknowledge m s).ow = s.ow := rfl
@[simp] theorem acknowledge_or (m : Byte) (s : State) : (acknowledge m s).or = s.or := rfl
@[simp] theorem acknowledge_outCrc (m : Byte) (s : State) : (acknowledge m s).outCrc = s.outCrc := rfl
@[simp] theorem acknowledge_encActive (m : Byte) (s : State) : (acknowledge m s).encActive = s.encActive := rfl
@[simp] theorem acknowledge_draining (m : Byte) (s : State) : (acknowledge m s).draining = s.draining := rfl
@[simp] theorem acknowledge_inhibited (m : Byte) (s : State) : (acknowledge m s).inhibited = s.inhibited := rfl
@[simp] theorem acknowledge_sigChanged (m : Byte) (s : State) : (acknowledge m s).sigChanged = s.sigChanged := rfl
@[simp] theorem acknowledge_fcOut (m : Byte) (s : State) : (acknowledge m s).fcOut = s.fcOut := rfl
@[simp] theorem acknowledge_ibuf (m : Byte) (s : State) : (acknowledge m s).ibuf = s.ibuf := rfl
@[simp] theorem acknowledge_fill (m : Byte) (s : State) : (acknowledge m s).fill = s.fill := rfl
@[simp] theorem acknowledge_rxState (m : Byte) (s : State) : (acknowledge m s).rxState = s.rxState := rfl
@[simp] theorem acknowledge_escaping (m : Byte) (s : State) : (acknowledge m s).escaping = s.escaping := rfl
@[simp] theorem acknowledge_lastRx (m : Byte) (s : State) : (acknowledge m s).lastRx = s.lastRx := rfl
@[simp] theorem acknowledge_inCrc (m : Byte) (s : State) : (acknowledge m s).inCrc = s.inCrc := rfl
@[simp] theorem acknowledge_rxHeld (m : Byte) (s : State) : (acknowledge m s).rxHeld = s.rxHeld := rfl
@[simp] theorem acknowledge_errSticky (m : Byte) (s : State) : (acknowledge m s).errSticky = s.errSticky &&& ~~~(maskOperand m) := rfl
@[simp] theorem acknowledge_errCode (m : Byte) (s : State) : (acknowledge m s).errCode = s.errCode := rfl
@[simp] theorem acknowledge_errArg1 (m : Byte) (s : State) : (acknowledge m s).errArg1 = s.errArg1 := rfl
@[simp] theorem acknowledge_errArg2 (m : Byte) (s : State) : (acknowledge m s).errArg2 = s.errArg2 := rfl
@[simp] theorem acknowledge_history (m : Byte) (s : State) : (acknowledge m s).history = s.history := rfl
@[simp] theorem acknowledge_resp (m : Byte) (s : State) : (acknowledge m s).resp = s.resp := rfl
@[simp] theorem acknowledge_linkByte (m : Byte) (s : State) : (acknowledge m s).linkByte = s.linkByte := rfl
@[simp] theorem acknowledge_hostGot (m : Byte) (s : State) : (acknowledge m s).hostGot = s.hostGot := rfl
@[simp] theorem acknowledge_arrivals (m : Byte) (s : State) : (acknowledge m s).arrivals = s.arrivals := rfl
@[simp] theorem acknowledge_draws (m : Byte) (s : State) : (acknowledge m s).draws = s.draws := rfl

/-! ### Submit (R141) -/

@[simp] theorem submit_params (b : Byte) (s : State) : (submit b s).params = s.params := rfl
@[simp] theorem submit_obuf (b : Byte) (s : State) : (submit b s).obuf = s.obuf := rfl
@[simp] theorem submit_ow (b : Byte) (s : State) : (submit b s).ow = s.ow := rfl
@[simp] theorem submit_or (b : Byte) (s : State) : (submit b s).or = s.or := rfl
@[simp] theorem submit_outCrc (b : Byte) (s : State) : (submit b s).outCrc = s.outCrc := rfl
@[simp] theorem submit_encActive (b : Byte) (s : State) : (submit b s).encActive = s.encActive := rfl
@[simp] theorem submit_draining (b : Byte) (s : State) : (submit b s).draining = s.draining := rfl
@[simp] theorem submit_inhibited (b : Byte) (s : State) : (submit b s).inhibited = s.inhibited := rfl
@[simp] theorem submit_sigChanged (b : Byte) (s : State) : (submit b s).sigChanged = s.sigChanged := rfl
@[simp] theorem submit_fcOut (b : Byte) (s : State) : (submit b s).fcOut = s.fcOut := rfl
@[simp] theorem submit_ibuf (b : Byte) (s : State) : (submit b s).ibuf = s.ibuf := rfl
@[simp] theorem submit_fill (b : Byte) (s : State) : (submit b s).fill = s.fill := rfl
@[simp] theorem submit_rxState (b : Byte) (s : State) : (submit b s).rxState = s.rxState := rfl
@[simp] theorem submit_escaping (b : Byte) (s : State) : (submit b s).escaping = s.escaping := rfl
@[simp] theorem submit_lastRx (b : Byte) (s : State) : (submit b s).lastRx = s.lastRx := rfl
@[simp] theorem submit_inCrc (b : Byte) (s : State) : (submit b s).inCrc = s.inCrc := rfl
@[simp] theorem submit_rxHeld (b : Byte) (s : State) : (submit b s).rxHeld = s.rxHeld := rfl
@[simp] theorem submit_errSticky (b : Byte) (s : State) : (submit b s).errSticky = s.errSticky := rfl
@[simp] theorem submit_errCode (b : Byte) (s : State) : (submit b s).errCode = s.errCode := rfl
@[simp] theorem submit_errArg1 (b : Byte) (s : State) : (submit b s).errArg1 = s.errArg1 := rfl
@[simp] theorem submit_errArg2 (b : Byte) (s : State) : (submit b s).errArg2 = s.errArg2 := rfl
@[simp] theorem submit_history (b : Byte) (s : State) : (submit b s).history = s.history ++ [.tx b] := rfl
@[simp] theorem submit_resp (b : Byte) (s : State) : (submit b s).resp = s.resp := rfl
@[simp] theorem submit_linkByte (b : Byte) (s : State) : (submit b s).linkByte = some b := rfl
@[simp] theorem submit_hostGot (b : Byte) (s : State) : (submit b s).hostGot = s.hostGot := rfl
@[simp] theorem submit_arrivals (b : Byte) (s : State) : (submit b s).arrivals = s.arrivals := rfl
@[simp] theorem submit_draws (b : Byte) (s : State) : (submit b s).draws = s.draws := rfl

/-! ### SetLine (R142) -/

@[simp] theorem setLine_params (v : Bool) (s : State) : (setLine v s).params = s.params := rfl
@[simp] theorem setLine_obuf (v : Bool) (s : State) : (setLine v s).obuf = s.obuf := rfl
@[simp] theorem setLine_ow (v : Bool) (s : State) : (setLine v s).ow = s.ow := rfl
@[simp] theorem setLine_or (v : Bool) (s : State) : (setLine v s).or = s.or := rfl
@[simp] theorem setLine_outCrc (v : Bool) (s : State) : (setLine v s).outCrc = s.outCrc := rfl
@[simp] theorem setLine_encActive (v : Bool) (s : State) : (setLine v s).encActive = s.encActive := rfl
@[simp] theorem setLine_draining (v : Bool) (s : State) : (setLine v s).draining = s.draining := rfl
@[simp] theorem setLine_inhibited (v : Bool) (s : State) : (setLine v s).inhibited = s.inhibited := rfl
@[simp] theorem setLine_sigChanged (v : Bool) (s : State) : (setLine v s).sigChanged = s.sigChanged := rfl
@[simp] theorem setLine_fcOut (v : Bool) (s : State) : (setLine v s).fcOut = v := rfl
@[simp] theorem setLine_ibuf (v : Bool) (s : State) : (setLine v s).ibuf = s.ibuf := rfl
@[simp] theorem setLine_fill (v : Bool) (s : State) : (setLine v s).fill = s.fill := rfl
@[simp] theorem setLine_rxState (v : Bool) (s : State) : (setLine v s).rxState = s.rxState := rfl
@[simp] theorem setLine_escaping (v : Bool) (s : State) : (setLine v s).escaping = s.escaping := rfl
@[simp] theorem setLine_lastRx (v : Bool) (s : State) : (setLine v s).lastRx = s.lastRx := rfl
@[simp] theorem setLine_inCrc (v : Bool) (s : State) : (setLine v s).inCrc = s.inCrc := rfl
@[simp] theorem setLine_rxHeld (v : Bool) (s : State) : (setLine v s).rxHeld = s.rxHeld := rfl
@[simp] theorem setLine_errSticky (v : Bool) (s : State) : (setLine v s).errSticky = s.errSticky := rfl
@[simp] theorem setLine_errCode (v : Bool) (s : State) : (setLine v s).errCode = s.errCode := rfl
@[simp] theorem setLine_errArg1 (v : Bool) (s : State) : (setLine v s).errArg1 = s.errArg1 := rfl
@[simp] theorem setLine_errArg2 (v : Bool) (s : State) : (setLine v s).errArg2 = s.errArg2 := rfl
@[simp] theorem setLine_history (v : Bool) (s : State) : (setLine v s).history = s.history ++ [.fc v] := rfl
@[simp] theorem setLine_resp (v : Bool) (s : State) : (setLine v s).resp = s.resp := rfl
@[simp] theorem setLine_linkByte (v : Bool) (s : State) : (setLine v s).linkByte = s.linkByte := rfl
@[simp] theorem setLine_hostGot (v : Bool) (s : State) : (setLine v s).hostGot = s.hostGot := rfl
@[simp] theorem setLine_arrivals (v : Bool) (s : State) : (setLine v s).arrivals = s.arrivals := rfl
@[simp] theorem setLine_draws (v : Bool) (s : State) : (setLine v s).draws = s.draws := rfl

/-! ### the pending line update (R143, R144) -/

@[simp] theorem updateLine_params (s : State) : (updateLine s).params = s.params := rfl
@[simp] theorem updateLine_obuf (s : State) : (updateLine s).obuf = s.obuf := rfl
@[simp] theorem updateLine_ow (s : State) : (updateLine s).ow = s.ow := rfl
@[simp] theorem updateLine_or (s : State) : (updateLine s).or = s.or := rfl
@[simp] theorem updateLine_outCrc (s : State) : (updateLine s).outCrc = s.outCrc := rfl
@[simp] theorem updateLine_encActive (s : State) : (updateLine s).encActive = s.encActive := rfl
@[simp] theorem updateLine_draining (s : State) : (updateLine s).draining = s.draining := rfl
@[simp] theorem updateLine_inhibited (s : State) : (updateLine s).inhibited = s.inhibited := rfl
@[simp] theorem updateLine_sigChanged (s : State) : (updateLine s).sigChanged = false := rfl
@[simp] theorem updateLine_fcOut (s : State) : (updateLine s).fcOut = !s.inhibited := rfl
@[simp] theorem updateLine_ibuf (s : State) : (updateLine s).ibuf = s.ibuf := rfl
@[simp] theorem updateLine_fill (s : State) : (updateLine s).fill = s.fill := rfl
@[simp] theorem updateLine_rxState (s : State) : (updateLine s).rxState = s.rxState := rfl
@[simp] theorem updateLine_escaping (s : State) : (updateLine s).escaping = s.escaping := rfl
@[simp] theorem updateLine_lastRx (s : State) : (updateLine s).lastRx = s.lastRx := rfl
@[simp] theorem updateLine_inCrc (s : State) : (updateLine s).inCrc = s.inCrc := rfl
@[simp] theorem updateLine_rxHeld (s : State) : (updateLine s).rxHeld = s.rxHeld := rfl
@[simp] theorem updateLine_errSticky (s : State) : (updateLine s).errSticky = s.errSticky := rfl
@[simp] theorem updateLine_errCode (s : State) : (updateLine s).errCode = s.errCode := rfl
@[simp] theorem updateLine_errArg1 (s : State) : (updateLine s).errArg1 = s.errArg1 := rfl
@[simp] theorem updateLine_errArg2 (s : State) : (updateLine s).errArg2 = s.errArg2 := rfl
@[simp] theorem updateLine_history (s : State) : (updateLine s).history = s.history ++ [.fc (!s.inhibited)] := rfl
@[simp] theorem updateLine_resp (s : State) : (updateLine s).resp = s.resp := rfl
@[simp] theorem updateLine_linkByte (s : State) : (updateLine s).linkByte = s.linkByte := rfl
@[simp] theorem updateLine_hostGot (s : State) : (updateLine s).hostGot = s.hostGot := rfl
@[simp] theorem updateLine_arrivals (s : State) : (updateLine s).arrivals = s.arrivals := rfl
@[simp] theorem updateLine_draws (s : State) : (updateLine s).draws = s.draws := rfl

/-! ### DecOpen (R170) -/

@[simp] theorem decOpen_params (s : State) : (decOpen s).params = s.params := rfl
@[simp] theorem decOpen_obuf (s : State) : (decOpen s).obuf = s.obuf := rfl
@[simp] theorem decOpen_ow (s : State) : (decOpen s).ow = s.ow := rfl
@[simp] theorem decOpen_or (s : State) : (decOpen s).or = s.or := rfl
@[simp] theorem decOpen_outCrc (s : State) : (decOpen s).outCrc = s.outCrc := rfl
@[simp] theorem decOpen_encActive (s : State) : (decOpen s).encActive = s.encActive := rfl
@[simp] theorem decOpen_draining (s : State) : (decOpen s).draining = s.draining := rfl
@[simp] theorem decOpen_inhibited (s : State) : (decOpen s).inhibited = s.inhibited := rfl
@[simp] theorem decOpen_sigChanged (s : State) : (decOpen s).sigChanged = s.sigChanged := rfl
@[simp] theorem decOpen_fcOut (s : State) : (decOpen s).fcOut = s.fcOut := rfl
@[simp] theorem decOpen_ibuf (s : State) : (decOpen s).ibuf = s.ibuf := rfl
@[simp] theorem decOpen_fill (s : State) : (decOpen s).fill = 0 := rfl
@[simp] theorem decOpen_rxState (s : State) : (decOpen s).rxState = s.rxState := rfl
@[simp] theorem decOpen_escaping (s : State) : (decOpen s).escaping = false := rfl
@[simp] theorem decOpen_lastRx (s : State) : (decOpen s).lastRx = s.lastRx := rfl
@[simp] theorem decOpen_inCrc (s : State) : (decOpen s).inCrc = s.params.crcInit := rfl
@[simp] theorem decOpen_rxHeld (s : State) : (decOpen s).rxHeld = s.rxHeld := rfl
@[simp] theorem decOpen_errSticky (s : State) : (decOpen s).errSticky = s.errSticky := rfl
@[simp] theorem decOpen_errCode (s : State) : (decOpen s).errCode = s.errCode := rfl
@[simp] theorem decOpen_errArg1 (s : State) : (decOpen s).errArg1 = s.errArg1 := rfl
@[simp] theorem decOpen_errArg2 (s : State) : (decOpen s).errArg2 = s.errArg2 := rfl
@[simp] theorem decOpen_history (s : State) : (decOpen s).history = s.history := rfl
@[simp] theorem decOpen_resp (s : State) : (decOpen s).resp = s.resp := rfl
@[simp] theorem decOpen_linkByte (s : State) : (decOpen s).linkByte = s.linkByte := rfl
@[simp] theorem decOpen_hostGot (s : State) : (decOpen s).hostGot = s.hostGot := rfl
@[simp] theorem decOpen_arrivals (s : State) : (decOpen s).arrivals = s.arrivals := rfl
@[simp] theorem decOpen_draws (s : State) : (decOpen s).draws = s.draws := rfl

/-! ### raise under a condition -/

@[simp] theorem raiseIf_params (c : Bool) (k : ErrKind) (a1 a2 : Word) (s : State) : (raiseIf c k a1 a2 s).params = s.params := by
  cases c <;> rfl
@[simp] theorem raiseIf_obuf (c : Bool) (k : ErrKind) (a1 a2 : Word) (s : State) : (raiseIf c k a1 a2 s).obuf = s.obuf := by
  cases c <;> rfl
@[simp] theorem raiseIf_ow (c : Bool) (k : ErrKind) (a1 a2 : Word) (s : State) : (raiseIf c k a1 a2 s).ow = s.ow := by
  cases c <;> rfl
@[simp] theorem raiseIf_or (c : Bool) (k : ErrKind) (a1 a2 : Word) (s : State) : (raiseIf c k a1 a2 s).or = s.or := by
  cases c <;> rfl
@[simp] theorem raiseIf_outCrc (c : Bool) (k : ErrKind) (a1 a2 : Word) (s : State) : (raiseIf c k a1 a2 s).outCrc = s.outCrc := by
  cases c <;> rfl
@[simp] theorem raiseIf_encActive (c : Bool) (k : ErrKind) (a1 a2 : Word) (s : State) : (raiseIf c k a1 a2 s).encActive = s.encActive := by
  cases c <;> rfl
@[simp] theorem raiseIf_draining (c : Bool) (k : ErrKind) (a1 a2 : Word) (s : State) : (raiseIf c k a1 a2 s).draining = s.draining := by
  cases c <;> rfl
@[simp] theorem raiseIf_inhibited (c : Bool) (k : ErrKind) (a1 a2 : Word) (s : State) : (raiseIf c k a1 a2 s).inhibited = s.inhibited := by
  cases c <;> rfl
@[simp] theorem raiseIf_sigChanged (c : Bool) (k : ErrKind) (a1 a2 : Word) (s : State) : (raiseIf c k a1 a2 s).sigChanged = s.sigChanged := by
  cases c <;> rfl
@[simp] theorem raiseIf_fcOut (c : Bool) (k : ErrKind) (a1 a2 : Word) (s : State) : (raiseIf c k a1 a2 s).fcOut = s.fcOut := by
  cases c <;> rfl
@[simp] theorem raiseIf_ibuf (c : Bool) (k : ErrKind) (a1 a2 : Word) (s : State) : (raiseIf c k a1 a2 s).ibuf = s.ibuf := by
  cases c <;> rfl
@[simp] theorem raiseIf_fill (c : Bool) (k : ErrKind) (a1 a2 : Word) (s : State) : (raiseIf c k a1 a2 s).fill = s.fill := by
  cases c <;> rfl
@[simp] theorem raiseIf_rxState (c : Bool) (k : ErrKind) (a1 a2 : Word) (s : State) : (raiseIf c k a1 a2 s).rxState = s.rxState := by
  cases c <;> rfl
@[simp] theorem raiseIf_escaping (c : Bool) (k : ErrKind) (a1 a2 : Word) (s : State) : (raiseIf c k a1 a2 s).escaping = s.escaping := by
  cases c <;> rfl
@[simp] theorem raiseIf_lastRx (c : Bool) (k : ErrKind) (a1 a2 : Word) (s : State) : (raiseIf c k a1 a2 s).lastRx = s.lastRx := by
  cases c <;> rfl
@[simp] theorem raiseIf_inCrc (c : Bool) (k : ErrKind) (a1 a2 : Word) (s : State) : (raiseIf c k a1 a2 s).inCrc = s.inCrc := by
  cases c <;> rfl
@[simp] theorem raiseIf_rxHeld (c : Bool) (k : ErrKind) (a1 a2 : Word) (s : State) : (raiseIf c k a1 a2 s).rxHeld = s.rxHeld := by
  cases c <;> rfl
@[simp] theorem raiseIf_resp (c : Bool) (k : ErrKind) (a1 a2 : Word) (s : State) : (raiseIf c k a1 a2 s).resp = s.resp := by
  cases c <;> rfl
@[simp] theorem raiseIf_linkByte (c : Bool) (k : ErrKind) (a1 a2 : Word) (s : State) : (raiseIf c k a1 a2 s).linkByte = s.linkByte := by
  cases c <;> rfl
@[simp] theorem raiseIf_hostGot (c : Bool) (k : ErrKind) (a1 a2 : Word) (s : State) : (raiseIf c k a1 a2 s).hostGot = s.hostGot := by
  cases c <;> rfl
@[simp] theorem raiseIf_arrivals (c : Bool) (k : ErrKind) (a1 a2 : Word) (s : State) : (raiseIf c k a1 a2 s).arrivals = s.arrivals := by
  cases c <;> rfl
@[simp] theorem raiseIf_draws (c : Bool) (k : ErrKind) (a1 a2 : Word) (s : State) : (raiseIf c k a1 a2 s).draws = s.draws := by
  cases c <;> rfl

@[simp] theorem raiseIf_history (c : Bool) (k : ErrKind) (a1 a2 : Word) (s : State) :
    (raiseIf c k a1 a2 s).history = s.history ++ (if c then [.err k a1 a2] else []) := by
  cases c <;> simp [raiseIf]

@[simp] theorem raiseIf_true (k : ErrKind) (a1 a2 : Word) (s : State) : raiseIf true k a1 a2 s = raise k a1 a2 s := rfl

@[simp] theorem raiseIf_false (k : ErrKind) (a1 a2 : Word) (s : State) : raiseIf false k a1 a2 s = s := rfl

end Sys2Proof.Machine
end

