-- ==== Sys2Proof/Laws/Memory.lean ====
section
/-! SUPPORT. The laws of the byte arrays (20_memory.md R50, R51): a read after a write, and the canonical form. -/

namespace Sys2Proof.Machine

theorem Memory.read?_write_same (m : Memory) (i : Nat) (b : Byte) : (m.write i b).read? i = some b := by
  induction m with
  | nil => simp [Memory.write, Memory.read?]
  | cons c m ih =>
    obtain ⟨a, v⟩ := c
    by_cases h1 : i < a
    · simp [Memory.write, Memory.read?, h1]
    · by_cases h2 : i = a
      · simp [Memory.write, Memory.read?, h2]
      · have h3 : ¬ a = i := fun h => h2 h.symm
        simp [Memory.write, Memory.read?, h1, h2, h3, ih]

theorem Memory.read?_write_other (m : Memory) {i j : Nat} (b : Byte) (h : j ≠ i) :
    (m.write i b).read? j = m.read? j := by
  have h' : ¬ i = j := fun e => h e.symm
  induction m with
  | nil => simp [Memory.write, Memory.read?, h']
  | cons c m ih =>
    obtain ⟨a, v⟩ := c
    by_cases h1 : i < a
    · simp [Memory.write, Memory.read?, h1, h']
    · by_cases h2 : i = a
      · subst h2
        simp [Memory.write, Memory.read?, h']
      · simp only [Memory.write, if_neg h1, if_neg h2, Memory.read?, ih]

/-- Reading after a write. -/
theorem Memory.read?_write (m : Memory) (i j : Nat) (b : Byte) :
    (m.write i b).read? j = if j = i then some b else m.read? j := by
  by_cases h : j = i
  · subst h; simp [Memory.read?_write_same]
  · simp [h, Memory.read?_write_other]

/-- The slots listed after a write. -/
theorem Memory.mem_write {m : Memory} {i : Nat} {b : Byte} {c : Host.Cell} (h : c ∈ m.write i b) :
    c.1 = i ∨ c ∈ m := by
  induction m with
  | nil => simp only [Memory.write, List.mem_singleton] at h; simp [h]
  | cons d m ih =>
    obtain ⟨a, v⟩ := d
    simp only [Memory.write] at h
    split at h
    · rcases List.mem_cons.1 h with h | h
      · exact .inl (by rw [h])
      · exact .inr h
    · split at h
      · rcases List.mem_cons.1 h with h | h
        · exact .inl (by rw [h])
        · exact .inr (List.mem_cons_of_mem _ h)
      · rcases List.mem_cons.1 h with h | h
        · exact .inr (by rw [h]; exact List.mem_cons_self)
        · rcases ih h with h | h
          · exact .inl h
          · exact .inr (List.mem_cons_of_mem _ h)

theorem Memory.wf_nil : Memory.wf [] := by decide

theorem Memory.wf_cons (a : Nat) (v : Byte) (m : Memory) :
    Memory.wf ((a, v) :: m) ↔ (∀ c ∈ m, a < c.1) ∧ Memory.wf m := by
  simp [Memory.wf]

/-- A write keeps the canonical form. -/
theorem Memory.wf_write {m : Memory} (h : m.wf) (i : Nat) (b : Byte) : (m.write i b).wf := by
  induction m with
  | nil => simp [Memory.write, Memory.wf]
  | cons c m ih =>
    obtain ⟨a, v⟩ := c
    obtain ⟨hlt, hm⟩ := (Memory.wf_cons a v m).1 h
    by_cases h1 : i < a
    · simp only [Memory.write, if_pos h1]
      refine (Memory.wf_cons i b _).2 ⟨fun c hc => ?_, h⟩
      rcases List.mem_cons.1 hc with hc | hc
      · rw [hc]; exact h1
      · exact Nat.lt_trans h1 (hlt c hc)
    · by_cases h2 : i = a
      · simp only [Memory.write, if_neg h1, if_pos h2]
        exact (Memory.wf_cons i b m).2 ⟨by rw [h2]; exact hlt, hm⟩
      · simp only [Memory.write, if_neg h1, if_neg h2]
        refine (Memory.wf_cons a v _).2 ⟨fun c hc => ?_, ih hm⟩
        rcases Memory.mem_write hc with hc | hc
        · omega
        · exact hlt c hc

theorem Memory.read?_none_of_lt {m : Memory} {i : Nat} (h : ∀ c ∈ m, i < c.1) : m.read? i = none := by
  induction m with
  | nil => rfl
  | cons c m ih =>
    obtain ⟨a, v⟩ := c
    have ha : i < a := h (a, v) List.mem_cons_self
    have hne : ¬ a = i := by omega
    simp only [Memory.read?, if_neg hne]
    exact ih fun c hc => h c (List.mem_cons_of_mem _ hc)

/-- Two canonical byte arrays that read alike are equal data. -/
theorem Memory.ext_of_wf {m n : Memory} (hm : m.wf) (hn : n.wf) (h : ∀ i, m.read? i = n.read? i) : m = n := by
  induction m generalizing n with
  | nil =>
    cases n with
    | nil => rfl
    | cons d n => simpa [Memory.read?] using h d.1
  | cons c m ih =>
    obtain ⟨a, v⟩ := c
    obtain ⟨hlt, hm'⟩ := (Memory.wf_cons a v m).1 hm
    cases n with
    | nil => simpa [Memory.read?] using h a
    | cons d n =>
      obtain ⟨b, w⟩ := d
      obtain ⟨hlt', hn'⟩ := (Memory.wf_cons b w n).1 hn
      have hab : a = b := by
        rcases Nat.lt_trichotomy a b with hl | he | hl
        · have hnone : Memory.read? ((b, w) :: n) a = none := by
            refine Memory.read?_none_of_lt fun c hc => ?_
            rcases List.mem_cons.1 hc with hc | hc
            · rw [hc]; exact hl
            · exact Nat.lt_trans hl (hlt' c hc)
          have := h a
          rw [hnone] at this
          simp [Memory.read?] at this
        · exact he
        · have hnone : Memory.read? ((a, v) :: m) b = none := by
            refine Memory.read?_none_of_lt fun c hc => ?_
            rcases List.mem_cons.1 hc with hc | hc
            · rw [hc]; exact hl
            · exact Nat.lt_trans hl (hlt c hc)
          have := h b
          rw [hnone] at this
          simp [Memory.read?] at this
      subst hab
      have hvw : v = w := by simpa [Memory.read?] using h a
      subst hvw
      refine congrArg _ (ih hm' hn' fun i => ?_)
      by_cases hi : a = i
      · subst hi
        rw [Memory.read?_none_of_lt hlt, Memory.read?_none_of_lt hlt']
      · simpa [Memory.read?, hi] using h i

/-! ### Every operation on the arrays keeps the canonical form -/

theorem obufWrite_wf {i : Nat} {b : Byte} {s t : State} (h : obufWrite i b s = .ok t) (hw : s.obuf.wf) :
    t.obuf.wf := by
  unfold obufWrite at h
  split at h
  · rw [← Except.ok.inj h]
    exact Memory.wf_write hw i b
  · cases h

theorem pushByte_wf {b : Byte} {s t : State} (h : pushByte b s = .ok t) (hw : s.obuf.wf) : t.obuf.wf := by
  unfold pushByte at h
  split at h
  · cases h
  · rename_i u hu
    rw [← Except.ok.inj h]
    exact obufWrite_wf (t := u) hu hw

theorem pushAll_wf {l : List Byte} {s t : State} (h : pushAll l s = .ok t) (hw : s.obuf.wf) : t.obuf.wf := by
  induction l generalizing s with
  | nil =>
    rw [← Except.ok.inj h]
    exact hw
  | cons b bs ih =>
    unfold pushAll at h
    split at h
    · cases h
    · rename_i u hu
      exact ih h (pushByte_wf hu hw)

theorem oPush_wf {l : List Byte} {s t : State} (h : oPush l s = .ok t) (hw : s.obuf.wf) : t.obuf.wf := by
  unfold oPush at h
  split at h
  · exact pushAll_wf h hw
  · rw [← Except.ok.inj h]
    exact hw

theorem ibufStore_wf {b : Byte} {s : State} (hw : s.ibuf.wf) : (ibufStore b s).ibuf.wf := by
  unfold ibufStore
  split
  · exact Memory.wf_write hw _ _
  · exact hw

theorem decByte_wf {b : Byte} {s : State} (hw : s.ibuf.wf) : (decByte b s).ibuf.wf := by
  unfold decByte decLogical
  split
  · exact hw
  · split
    · exact ibufStore_wf (s := { s with escaping := false }) hw
    · exact ibufStore_wf hw

theorem resetBlock_wf (s : State) : (resetBlock s).obuf.wf ∧ (resetBlock s).ibuf.wf :=
  ⟨Memory.wf_nil, Memory.wf_nil⟩

/-- The memories at reset are in canonical form. -/
theorem resetWith_wf (p : Params) : (State.resetWith p).obuf.wf ∧ (State.resetWith p).ibuf.wf :=
  ⟨Memory.wf_nil, Memory.wf_nil⟩

theorem reset_wf : State.reset.obuf.wf ∧ State.reset.ibuf.wf :=
  resetWith_wf Params.default

end Sys2Proof.Machine
end

