-- ==== Sys2Proof/Laws/Queue.lean ====
section
/-! SUPPORT. The output buffer as a queue: index arithmetic (10_state.md R24, R25), what OPush does in one equation
(40_codec.md R104, R105), several OPush calls in a row, and the pending bytes (R23). -/

namespace Sys2Proof.Machine

/-! ### What a slot and the pending bytes depend on -/

theorem obufByte_congr {s t : State} (h : t.obuf = s.obuf) (hd : t.draws = s.draws) (a : Nat) :
    t.obufByte a = s.obufByte a := by
  simp only [State.obufByte, h, hd]

theorem ibufByte_congr {s t : State} (h : t.ibuf = s.ibuf) (hd : t.draws = s.draws) (a : Nat) :
    t.ibufByte a = s.ibufByte a := by
  simp only [State.ibufByte, h, hd]

theorem count_congr {s t : State} (hp : t.params = s.params) (hw : t.ow = s.ow) (hr : t.or = s.or) :
    t.count = s.count := by
  simp only [State.count, hp, hw, hr]

theorem pending_congr {s t : State} (hp : t.params = s.params) (hw : t.ow = s.ow) (hr : t.or = s.or)
    (hb : t.obuf = s.obuf) (hd : t.draws = s.draws) : t.pending = s.pending := by
  simp only [State.pending, count_congr hp hw hr, obufByte_congr hb hd, hp, hr]

/-! ### Index arithmetic -/

theorem add_mod_cases {a k n : Nat} (ha : a < n) (hk : k ≤ n) :
    (a + k < n ∧ (a + k) % n = a + k) ∨ (n ≤ a + k ∧ (a + k) % n = a + k - n) := by
  by_cases h : a + k < n
  · exact .inl ⟨h, Nat.mod_eq_of_lt h⟩
  · refine .inr ⟨by omega, ?_⟩
    rw [Nat.mod_eq_sub_mod (by omega)]
    exact Nat.mod_eq_of_lt (by omega)

theorem State.count_cases {s : State} (hw : s.ow < s.params.nOut) (hr : s.or < s.params.nOut) :
    (s.or ≤ s.ow ∧ s.count = s.ow - s.or) ∨ (s.ow < s.or ∧ s.count = s.ow + s.params.nOut - s.or) := by
  unfold State.count
  by_cases h : s.or ≤ s.ow
  · refine .inl ⟨h, ?_⟩
    have : s.ow + s.params.nOut - s.or = (s.ow - s.or) + s.params.nOut := by omega
    rw [this, Nat.add_mod_right]
    exact Nat.mod_eq_of_lt (by omega)
  · exact .inr ⟨by omega, Nat.mod_eq_of_lt (by omega)⟩

theorem State.count_lt {s : State} (hw : s.ow < s.params.nOut) (hr : s.or < s.params.nOut) :
    s.count < s.params.nOut := by
  rcases State.count_cases hw hr with ⟨_, h⟩ | ⟨_, h⟩ <;> omega

theorem State.count_eq_zero {s : State} (hw : s.ow < s.params.nOut) (hr : s.or < s.params.nOut) :
    s.count = 0 ↔ s.ow = s.or := by
  rcases State.count_cases hw hr with ⟨_, h⟩ | ⟨_, h⟩ <;> omega

/-- `ow` is `or` advanced by the count. -/
theorem State.or_add_count {s : State} (hw : s.ow < s.params.nOut) (hr : s.or < s.params.nOut) :
    (s.or + s.count) % s.params.nOut = s.ow := by
  rcases State.count_cases hw hr with ⟨h1, h2⟩ | ⟨h1, h2⟩
  · rcases add_mod_cases hr (Nat.le_of_lt (State.count_lt hw hr)) with ⟨h3, h4⟩ | ⟨h3, h4⟩ <;> omega
  · rcases add_mod_cases hr (Nat.le_of_lt (State.count_lt hw hr)) with ⟨h3, h4⟩ | ⟨h3, h4⟩ <;> omega

theorem State.empty_iff (s : State) : s.empty = true ↔ s.ow = s.or := by
  simp [State.empty]

/-! ### Writing a list of bytes -/

/-- The cells after a list of bytes has been written from slot `i` on, wrapping at `n`. -/
def writeFrom (n : Nat) : Memory → Nat → List Byte → Memory
  | m, _, [] => m
  | m, i, b :: bs => writeFrom n (m.write i b) ((i + 1) % n) bs

theorem writeFrom_wf {n : Nat} {m : Memory} (h : m.wf) (i : Nat) (l : List Byte) : (writeFrom n m i l).wf := by
  induction l generalizing m i with
  | nil => exact h
  | cons b bs ih => exact ih (Memory.wf_write h i b) _

theorem writeFrom_mem {n : Nat} {m : Memory} {i : Nat} (hi : i < n) (hm : ∀ c ∈ m, c.1 < n) (l : List Byte) :
    ∀ c ∈ writeFrom n m i l, c.1 < n := by
  induction l generalizing m i with
  | nil => exact hm
  | cons b bs ih =>
    refine ih (Nat.mod_lt _ (by omega)) fun c hc => ?_
    rcases Memory.mem_write hc with h | h
    · omega
    · exact hm c h

theorem writeFrom_append (n : Nat) (m : Memory) (i : Nat) (hi : i < n) (l l' : List Byte) :
    writeFrom n m i (l ++ l') = writeFrom n (writeFrom n m i l) ((i + l.length) % n) l' := by
  induction l generalizing m i with
  | nil => simp [writeFrom, Nat.mod_eq_of_lt hi]
  | cons b bs ih =>
    simp only [List.cons_append, writeFrom, List.length_cons]
    rw [ih _ _ (Nat.mod_lt _ (by omega)), Nat.mod_add_mod]
    congr 2
    omega

/-- A slot outside the written ones reads as before. -/
theorem read?_writeFrom_other {n : Nat} {m : Memory} {i a : Nat} {l : List Byte} (hi : i < n)
    (h : ∀ k < l.length, a ≠ (i + k) % n) : (writeFrom n m i l).read? a = m.read? a := by
  induction l generalizing m i with
  | nil => rfl
  | cons b bs ih =>
    simp only [writeFrom]
    have h0 : a ≠ i := by simpa [Nat.mod_eq_of_lt hi] using h 0 (by simp)
    rw [ih (Nat.mod_lt _ (by omega)), Memory.read?_write_other _ _ h0]
    intro k hk
    have := h (k + 1) (by simpa using hk)
    rwa [Nat.mod_add_mod, Nat.add_assoc, Nat.add_comm 1 k]

/-- The slots of the last `n` bytes hold them. -/
theorem read?_writeFrom_at {n : Nat} {m : Memory} {i k : Nat} {l : List Byte} {b : Byte} (hi : i < n)
    (hk : l[k]? = some b) (hl : l.length ≤ k + n) : (writeFrom n m i l).read? ((i + k) % n) = some b := by
  induction l generalizing m i k with
  | nil => simp at hk
  | cons c cs ih =>
    simp only [writeFrom]
    cases k with
    | zero =>
      have hc : c = b := by simpa using hk
      subst hc
      rw [read?_writeFrom_other (Nat.mod_lt _ (by omega)), Nat.add_zero, Nat.mod_eq_of_lt hi,
        Memory.read?_write_same]
      intro j hj
      have hjn : j + 1 < n := by simp only [List.length_cons] at hl; omega
      rw [Nat.mod_add_mod, Nat.add_zero, Nat.mod_eq_of_lt hi, Nat.add_assoc, Nat.add_comm 1 j]
      rcases add_mod_cases hi (Nat.le_of_lt hjn) with ⟨_, h⟩ | ⟨_, h⟩ <;> omega
    | succ k =>
      have := ih (m := m.write i c) (i := (i + 1) % n) (k := k) (Nat.mod_lt _ (by omega)) (by simpa using hk)
        (by simp only [List.length_cons] at hl; omega)
      rwa [Nat.mod_add_mod, Nat.add_assoc, Nat.add_comm 1 k] at this

/-! ### OPush -/

/-- `s` with the bytes `l` written to `obuf` from `ow` on and `ow` advanced. -/
def State.appendBytes (s : State) (l : List Byte) : State :=
  { s with obuf := writeFrom s.params.nOut s.obuf s.ow l, ow := (s.ow + l.length) % s.params.nOut }

/-- The loop of OPush, with `ow` in range, writes the whole list. -/
theorem pushAll_eq {s : State} (hw : s.ow < s.params.nOut) (l : List Byte) : pushAll l s = .ok (s.appendBytes l) := by
  induction l generalizing s with
  | nil => simp [pushAll, State.appendBytes, writeFrom, Nat.mod_eq_of_lt hw]
  | cons b bs ih =>
    have hn : (s.ow + 1) % s.params.nOut < s.params.nOut := Nat.mod_lt _ (by omega)
    simp only [pushAll, pushByte, obufWrite, if_pos hw, State.nextSlot]
    rw [ih (s := { s with obuf := s.obuf.write s.ow b, ow := (s.ow + 1) % s.params.nOut }) hn]
    simp only [State.appendBytes, writeFrom, Nat.mod_add_mod, List.length_cons]
    congr 3
    omega

/-- What OPush leaves: the list whole, or the error. -/
def State.pushed (s : State) (l : List Byte) : State :=
  if s.accepts l.length then s.appendBytes l
  else raise .outOverflow (countArg l.length) (countArg s.free) s

/-- All that OPush can do, with `ow` in range. -/
theorem oPush_eq {s : State} (hw : s.ow < s.params.nOut) (l : List Byte) : oPush l s = .ok (s.pushed l) := by
  unfold oPush State.pushed
  split
  · exact pushAll_eq hw l
  · rfl

theorem appendBytes_ow_lt {s : State} (hw : s.ow < s.params.nOut) (l : List Byte) :
    (s.appendBytes l).ow < s.params.nOut := Nat.mod_lt _ (by omega)

theorem pushed_params (s : State) (l : List Byte) : (s.pushed l).params = s.params := by
  unfold State.pushed; split <;> rfl

theorem pushed_or (s : State) (l : List Byte) : (s.pushed l).or = s.or := by
  unfold State.pushed; split <;> rfl

theorem pushed_ow_lt {s : State} (hw : s.ow < s.params.nOut) (l : List Byte) :
    (s.pushed l).ow < s.params.nOut := by
  unfold State.pushed; split
  · exact appendBytes_ow_lt hw l
  · exact hw

/-- The count after bytes are appended, modulo the capacity. -/
theorem count_appendBytes {s : State} (hr : s.or < s.params.nOut) (l : List Byte) :
    (s.appendBytes l).count = (s.count + l.length) % s.params.nOut := by
  have h1 : (s.appendBytes l).count = ((s.ow + l.length) % s.params.nOut + (s.params.nOut - s.or)) % s.params.nOut := by
    simp only [State.count, State.appendBytes]
    congr 1
    omega
  have h2 : s.count = (s.ow + (s.params.nOut - s.or)) % s.params.nOut := by
    simp only [State.count]
    congr 1
    omega
  rw [h1, h2, Nat.mod_add_mod, Nat.mod_add_mod]
  congr 1
  omega

theorem count_appendBytes_of_le {s : State} (hw : s.ow < s.params.nOut) (hr : s.or < s.params.nOut)
    {l : List Byte} (h : l.length ≤ s.free) : (s.appendBytes l).count = s.count + l.length := by
  have := State.count_lt hw hr
  rw [count_appendBytes hr, Nat.mod_eq_of_lt]
  unfold State.free at h
  omega

theorem free_appendBytes {s : State} (hw : s.ow < s.params.nOut) (hr : s.or < s.params.nOut)
    {l : List Byte} (h : l.length ≤ s.free) : (s.appendBytes l).free = s.free - l.length := by
  have : (s.appendBytes l).params = s.params := rfl
  rw [State.free, count_appendBytes_of_le hw hr h, this, State.free]
  omega

theorem appendBytes_nil {s : State} (hw : s.ow < s.params.nOut) : s.appendBytes [] = s := by
  simp [State.appendBytes, writeFrom, Nat.mod_eq_of_lt hw]

theorem appendBytes_appendBytes {s : State} (hw : s.ow < s.params.nOut) (l l' : List Byte) :
    (s.appendBytes l).appendBytes l' = s.appendBytes (l ++ l') := by
  simp only [State.appendBytes, writeFrom_append _ _ _ hw, Nat.mod_add_mod, List.length_append, Nat.add_assoc]

/-! ### Error registers -/

/-- `s` with a list of events appended and its errors recorded. -/
def State.recorded (s : State) (evs : List Event) : State :=
  { s with
    history := s.history ++ evs
    errSticky := (recordErrors evs s.errRegs).sticky
    errCode := (recordErrors evs s.errRegs).code
    errArg1 := (recordErrors evs s.errRegs).arg1
    errArg2 := (recordErrors evs s.errRegs).arg2 }

theorem recordErrors_append (l l' : List Event) (r : ErrRegs) :
    recordErrors (l ++ l') r = recordErrors l' (recordErrors l r) := by
  induction l generalizing r with
  | nil => rfl
  | cons e l ih => cases e <;> simp [recordErrors, ih]

theorem recorded_nil (s : State) : s.recorded [] = s := by
  simp [State.recorded, recordErrors, State.errRegs]

theorem recorded_errRegs (s : State) (evs : List Event) : (s.recorded evs).errRegs = recordErrors evs s.errRegs := rfl

theorem recorded_recorded (s : State) (l l' : List Event) : (s.recorded l).recorded l' = s.recorded (l ++ l') := by
  simp only [State.recorded, recordErrors_append, List.append_assoc]
  rfl

theorem appendBytes_recorded (s : State) (evs : List Event) (l : List Byte) :
    (s.recorded evs).appendBytes l = (s.appendBytes l).recorded evs := rfl

theorem raise_eq_recorded (k : ErrKind) (a1 a2 : Word) (s : State) : raise k a1 a2 s = s.recorded [.err k a1 a2] := rfl

theorem raiseIf_eq_recorded (c : Bool) (k : ErrKind) (a1 a2 : Word) (s : State) :
    raiseIf c k a1 a2 s = s.recorded (if c then [.err k a1 a2] else []) := by
  cases c
  · simp [raiseIf, recorded_nil]
  · rfl

/-! ### Several pushes -/

/-- Several OPush calls in a row: the accepted bytes are appended and the overflow errors recorded. -/
theorem foldl_pushed {s : State} (hw : s.ow < s.params.nOut) (hr : s.or < s.params.nOut) (ls : List (List Byte)) :
    ls.foldl State.pushed s =
      (s.appendBytes (accepted s.params.policy s.free ls)).recorded (overflowErrors s.params.policy s.free ls) := by
  induction ls generalizing s with
  | nil => simp [accepted, overflowErrors, appendBytes_nil hw, recorded_nil]
  | cons l ls ih =>
    rw [List.foldl_cons, ih (by rw [pushed_params]; exact pushed_ow_lt hw l) (by rw [pushed_params, pushed_or]; exact hr)]
    rw [pushed_params]
    cases hp : s.params.policy with
    | lap =>
      have hacc : s.accepts l.length = true := by simp [State.accepts, hp]
      have hfree : ∀ f f' : Nat, accepted .lap f ls = accepted .lap f' ls := by
        intro f f'
        clear ih
        induction ls generalizing f f' with
        | nil => rfl
        | cons a ls ih2 => simp [accepted, ih2 f f']
      have herr : ∀ f : Nat, overflowErrors .lap f ls = [] := by
        intro f
        clear ih hfree
        induction ls generalizing f with
        | nil => rfl
        | cons a ls ih2 => simp [overflowErrors, ih2 f]
      simp only [State.pushed, hacc, if_true, appendBytes_appendBytes hw, accepted, overflowErrors, herr]
      rw [hfree (s.appendBytes l).free s.free]
    | dropNewest =>
      by_cases hl : l.length ≤ s.free
      · have hacc : s.accepts l.length = true := by simp [State.accepts, hp, hl]
        simp only [State.pushed, hacc, if_true, appendBytes_appendBytes hw, accepted, overflowErrors, if_pos hl,
          free_appendBytes hw hr hl]
      · have hacc : s.accepts l.length = false := by simp [State.accepts, hp, hl]
        simp only [State.pushed, hacc, accepted, overflowErrors, if_neg hl, raise_eq_recorded]
        have hfree : (s.recorded [.err .outOverflow (countArg l.length) (countArg s.free)]).free = s.free := rfl
        simp only [Bool.false_eq_true, if_false, hfree]
        rw [appendBytes_recorded, recorded_recorded]
        rfl

/-! ### Pending bytes -/

theorem pending_length (s : State) : s.pending.length = s.count := by
  simp [State.pending]

theorem obufByte_appendBytes_other {s : State} (hw : s.ow < s.params.nOut) {l : List Byte} {a : Nat}
    (h : ∀ k < l.length, a ≠ (s.ow + k) % s.params.nOut) : (s.appendBytes l).obufByte a = s.obufByte a := by
  simp only [State.obufByte, State.appendBytes, read?_writeFrom_other hw h]

theorem obufByte_appendBytes_at {s : State} (hw : s.ow < s.params.nOut) {l : List Byte} {k : Nat} {b : Byte}
    (hk : l[k]? = some b) (hl : l.length ≤ k + s.params.nOut) :
    (s.appendBytes l).obufByte ((s.ow + k) % s.params.nOut) = b := by
  simp only [State.obufByte, State.appendBytes, read?_writeFrom_at hw hk hl, Option.getD_some]

theorem appendsBytes_appendBytes {s : State} (hw : s.ow < s.params.nOut) (l : List Byte) :
    AppendsBytes l s (s.appendBytes l) :=
  ⟨rfl, fun _ _ hk hl => obufByte_appendBytes_at hw hk hl, fun _ h => obufByte_appendBytes_other hw h⟩

/-- Appending bytes that fit appends them to the pending bytes. -/
theorem pending_appendBytes {s : State} (hw : s.ow < s.params.nOut) (hr : s.or < s.params.nOut) {l : List Byte}
    (h : l.length ≤ s.free) : (s.appendBytes l).pending = s.pending ++ l := by
  have hc := State.count_lt hw hr
  have hsum : s.count + l.length < s.params.nOut := by unfold State.free at h; omega
  apply List.ext_getElem?
  intro k
  simp only [State.pending, count_appendBytes_of_le hw hr h, List.getElem?_map]
  have hpar : (s.appendBytes l).params = s.params := rfl
  have hor : (s.appendBytes l).or = s.or := rfl
  rw [hpar, hor]
  by_cases h1 : k < s.count
  · rw [List.getElem?_append_left (by simpa using h1), List.getElem?_map, List.getElem?_range (by omega),
      List.getElem?_range h1]
    simp only [Option.map_some]
    rw [obufByte_appendBytes_other hw]
    intro j hj
    rw [← State.or_add_count hw hr, Nat.mod_add_mod, Nat.add_assoc]
    have hk : k ≤ s.params.nOut := by omega
    have hj' : s.count + j ≤ s.params.nOut := by omega
    rcases add_mod_cases hr hk with ⟨_, e1⟩ | ⟨_, e1⟩ <;> rcases add_mod_cases hr hj' with ⟨_, e2⟩ | ⟨_, e2⟩ <;> omega
  · rw [List.getElem?_append_right (by simpa using h1)]
    simp only [List.length_map, List.length_range]
    by_cases h2 : k < s.count + l.length
    · rw [List.getElem?_range h2]
      obtain ⟨j, rfl⟩ : ∃ j, k = s.count + j := ⟨k - s.count, by omega⟩
      have hj : j < l.length := by omega
      rw [Nat.add_sub_cancel_left, Option.map_some, ← Nat.add_assoc, ← Nat.mod_add_mod, State.or_add_count hw hr,
        List.getElem?_eq_getElem hj]
      exact congrArg some (obufByte_appendBytes_at hw (List.getElem?_eq_getElem hj) (by omega))
    · rw [List.getElem?_eq_none (by simpa using h2), List.getElem?_eq_none (by omega)]
      rfl

/-- The pending bytes of a non-empty buffer: the byte at `or`, and those from the next slot on. -/
theorem pending_cons {s : State} (hw : s.ow < s.params.nOut) (hr : s.or < s.params.nOut) (hne : s.ow ≠ s.or) :
    s.pending = s.obufByte s.or :: ({ s with or := s.nextSlot s.or } : State).pending := by
  have hc : s.count ≠ 0 := fun h => hne ((State.count_eq_zero hw hr).1 h)
  have hn : s.nextSlot s.or < s.params.nOut := Nat.mod_lt _ (by omega)
  have hcount : ({ s with or := s.nextSlot s.or } : State).count + 1 = s.count := by
    have e1 := State.count_cases hw hr
    have e2 := State.count_cases (s := { s with or := s.nextSlot s.or }) hw hn
    have e3 := add_mod_cases hr (k := 1) (by omega)
    simp only [State.nextSlot] at e2 ⊢
    omega
  simp only [State.pending, ← hcount, List.range_succ_eq_map, List.map_cons, List.map_map, Nat.add_zero,
    Nat.mod_eq_of_lt hr]
  congr 1
  apply List.map_congr_left
  intro k _
  simp only [Function.comp, State.nextSlot, State.obufByte, Nat.mod_add_mod]
  rw [Nat.add_assoc, Nat.add_comm 1 k]

theorem count_next {s : State} (hw : s.ow < s.params.nOut) (hr : s.or < s.params.nOut) (hne : s.ow ≠ s.or) :
    ({ s with or := s.nextSlot s.or } : State).count + 1 = s.count := by
  have := congrArg List.length (pending_cons hw hr hne)
  simpa [pending_length] using this.symm

theorem pending_nil {s : State} (hw : s.ow < s.params.nOut) (hr : s.or < s.params.nOut) (h : s.ow = s.or) :
    s.pending = [] := by
  simp [State.pending, (State.count_eq_zero hw hr).2 h]

end Sys2Proof.Machine
end

