-- ==== Sys2Proof/Laws/Encoder.lean ====
section
/-! SUPPORT. What each encoder operation does, in one equation (40_codec.md R110 to R112), and the effect that
`EncoderEffect` names. -/

namespace Sys2Proof.Machine

/-- `s` with another outbound CRC. -/
def State.setCrc (s : State) (c : Word) : State :=
  { s with outCrc := c }

theorem setCrc_setCrc (s : State) (c c' : Word) : (s.setCrc c).setCrc c' = s.setCrc c' := rfl

/-- The CRC and OPush do not see each other. -/
theorem pushed_setCrc (s : State) (l : List Byte) (c : Word) : (s.setCrc c).pushed l = (s.pushed l).setCrc c := by
  have h : (s.setCrc c).accepts l.length = s.accepts l.length := rfl
  unfold State.pushed
  rw [h]
  split <;> rfl

theorem pushed_outCrc (s : State) (l : List Byte) : (s.pushed l).outCrc = s.outCrc := by
  unfold State.pushed; split <;> rfl

/-- EncByte in one equation (R103). -/
theorem encodeByte_eq {s : State} (hw : s.ow < s.params.nOut) (b : Byte) :
    encodeByte b s = .ok ((s.pushed (s.params.stuff b)).setCrc (s.params.crcStep s.outCrc b)) := by
  rw [← pushed_setCrc]
  exact oPush_eq (s := s.setCrc (s.params.crcStep s.outCrc b)) hw _

/-- The errors of an encoder operation: the order error if it is out of order, then the overflow errors. -/
def State.encoderErrors (s : State) (i : Instr) (outOfOrder : Bool) : List Event :=
  (if outOfOrder then [.err .seq (encode i) 0x0000#16] else []) ++
    overflowErrors s.params.policy s.free (s.pushes i)

/-- `s` after an encoder operation, but for the CRC and `enc_active`. -/
def State.encoded (s : State) (i : Instr) (outOfOrder : Bool) : State :=
  { (s.appendBytes (s.appended i)).recorded (s.encoderErrors i outOfOrder) with resp := .nothing }

theorem encoded_eq {s : State} (hw : s.ow < s.params.nOut) (hr : s.or < s.params.nOut) (i : Instr) (o : Bool) :
    (s.pushes i).foldl State.pushed (raiseIf o .seq (encode i) 0x0000#16 (respond .nothing s)) = s.encoded i o := by
  rw [raiseIf_eq_recorded]
  rw [foldl_pushed (s := (respond .nothing s).recorded (if o then [.err .seq (encode i) 0x0000#16] else [])) hw hr]
  rw [appendBytes_recorded, recorded_recorded]
  rfl

theorem exec_encOpen {s : State} (hw : s.ow < s.params.nOut) (hr : s.or < s.params.nOut) (d : Byte) :
    exec (.encOpen d) s =
      .next { (s.encoded (.encOpen d) s.encActive).setCrc s.params.crcInit with encActive := true } := by
  rw [← encoded_eq hw hr]
  have h := oPush_eq (s := (raiseIf s.encActive .seq (encode (.encOpen d)) 0x0000#16 (respond .nothing s)).setCrc
    s.params.crcInit) (by simpa [State.setCrc] using hw) [s.params.flag]
  rw [pushed_setCrc] at h
  simp only [State.setCrc] at h
  simp only [exec, execEncOpen, wordArg, h]
  rfl

theorem exec_encByte {s : State} (hw : s.ow < s.params.nOut) (hr : s.or < s.params.nOut) (b : Byte) :
    exec (.encByte b) s =
      .next ((s.encoded (.encByte b) (!s.encActive)).setCrc (s.params.crcStep s.outCrc b)) := by
  rw [← encoded_eq hw hr]
  simp only [exec, execEncByte, wordArg]
  rw [encodeByte_eq (by simpa using hw)]
  simp [finish, State.pushes]

/-- ENC_CLOSE after its order check, in one equation. -/
theorem closeFrame_eq {s : State} (hw : s.ow < s.params.nOut) (d : Byte) :
    closeFrame s = .ok { ((s.pushes (.encClose d)).foldl State.pushed s).setCrc
      (s.params.crcFold s.outCrc (frameCheckBytes (~~~s.outCrc))) with encActive := false } := by
  have h1 := pushed_ow_lt hw (s.params.stuff (lowByte (~~~s.outCrc)))
  have h2 := pushed_ow_lt (s := s.pushed (s.params.stuff (lowByte (~~~s.outCrc)))) (by rw [pushed_params]; exact h1)
    (s.params.stuff (highByte (~~~s.outCrc)))
  simp only [closeFrame, encodeByte_eq hw]
  rw [encodeByte_eq (by simpa [State.setCrc, pushed_params] using h1)]
  simp only [pushed_setCrc, setCrc_setCrc]
  have hp : ((s.pushed (s.params.stuff (lowByte (~~~s.outCrc)))).setCrc
      (s.params.crcStep s.outCrc (lowByte (~~~s.outCrc)))).params = s.params := pushed_params _ _
  rw [hp, oPush_eq (by simpa [State.setCrc, pushed_params] using h2)]
  simp only [pushed_setCrc]
  rfl

theorem exec_encClose {s : State} (hw : s.ow < s.params.nOut) (hr : s.or < s.params.nOut) (d : Byte) :
    exec (.encClose d) s =
      .next { (s.encoded (.encClose d) (!s.encActive)).setCrc
        (s.params.crcFold s.outCrc (frameCheckBytes (~~~s.outCrc))) with encActive := false } := by
  rw [← encoded_eq hw hr]
  simp only [exec, execEncClose, wordArg]
  rw [closeFrame_eq (by simpa using hw) d]
  simp only [finish, State.pushes, raiseIf_params, raiseIf_outCrc, respond_params, respond_outCrc]

/-- The effect of an encoder operation, read off its equation. -/
theorem encoderEffect_encoded {s : State} (hw : s.ow < s.params.nOut) (i : Instr) (o : Bool) (c : Word) (a : Bool) :
    EncoderEffect i o s { (s.encoded i o).setCrc c with encActive := a } :=
  ⟨appendsBytes_appendBytes hw _, ⟨_, rfl, rfl, rfl⟩, rfl, rfl⟩

end Sys2Proof.Machine
end

