-- ==== Sys2Proof/Laws/Flow.lean ====
section
/-! SUPPORT. What the output channel and flow controller can do (41_output_flow.md R141 to R146): one lemma per shared
operation that says all its cases. -/

namespace Sys2Proof.Machine

/-- `s` after the byte at `or` has been submitted and `or` advanced (R143, R144). -/
def State.submittedNext (s : State) : State :=
  { submit (s.obufByte s.or) s with or := s.nextSlot s.or }

theorem submitNext_eq {s : State} (hr : s.or < s.params.nOut) : submitNext s = .ok s.submittedNext := by
  simp [submitNext, obufRead, hr, State.submittedNext]

theorem submitNext_ok {s t : State} (h : submitNext s = .ok t) : s.or < s.params.nOut ∧ t = s.submittedNext := by
  by_cases hr : s.or < s.params.nOut
  · rw [submitNext_eq hr] at h
    exact ⟨hr, (Except.ok.inj h).symm⟩
  · simp [submitNext, obufRead, hr] at h

/-- All that the flush body can do (R143). -/
theorem flushBody_ok {s t : State} (h : flushBody s = .ok t) :
    ((s.draining = true ∨ (s.sigChanged = false ∧ (s.inhibited = true ∨ s.ow = s.or))) ∧ t = s) ∨
    (s.draining = false ∧ s.sigChanged = true ∧ t = updateLine s) ∨
    (s.draining = false ∧ s.sigChanged = false ∧ s.inhibited = false ∧ s.ow ≠ s.or ∧ s.or < s.params.nOut ∧
      t = { s.submittedNext with draining := true }) := by
  unfold flushBody at h
  split at h
  · rename_i h1; exact .inl ⟨.inl h1, (Except.ok.inj h).symm⟩
  · rename_i h1
    have h1 : s.draining = false := by simpa using h1
    split at h
    · rename_i h2; exact .inr (.inl ⟨h1, h2, (Except.ok.inj h).symm⟩)
    · rename_i h2
      have h2 : s.sigChanged = false := by simpa using h2
      split at h
      · rename_i h3; exact .inl ⟨.inr ⟨h2, .inl h3⟩, (Except.ok.inj h).symm⟩
      · rename_i h3
        split at h
        · rename_i h4; exact .inl ⟨.inr ⟨h2, .inr ((State.empty_iff s).1 h4)⟩, (Except.ok.inj h).symm⟩
        · rename_i h4
          split at h
          · cases h
          · rename_i u hu
            obtain ⟨hr, rfl⟩ := submitNext_ok hu
            exact .inr (.inr ⟨h1, h2, by simpa using h3, fun e => h4 ((State.empty_iff s).2 e), hr,
              (Except.ok.inj h).symm⟩)

/-- The flush body answers with a state whenever `or` is in range. -/
theorem flushBody_isOk {s : State} (hr : s.or < s.params.nOut) : ∃ t, flushBody s = .ok t := by
  unfold flushBody
  simp only [submitNext_eq hr]
  repeat' split
  all_goals exact ⟨_, rfl⟩

/-- `s` after its pending line update, if there is one (R144). -/
def State.lineUpdated (s : State) : State :=
  if s.sigChanged then updateLine s else s

/-- All that the block's side of TX_READY can do (R144). -/
theorem transmitComplete_ok {s t : State} (h : transmitComplete s = .ok t) :
    (s.draining = false ∧ t = s) ∨
    (s.draining = true ∧ (s.inhibited = true ∨ s.ow = s.or) ∧ t = { s.lineUpdated with draining := false }) ∨
    (s.draining = true ∧ s.inhibited = false ∧ s.ow ≠ s.or ∧ s.or < s.params.nOut ∧
      t = s.lineUpdated.submittedNext) := by
  unfold transmitComplete at h
  split at h
  · rename_i hd
    simp only at h
    change (if s.lineUpdated.inhibited = true then _ else if s.lineUpdated.empty = true then _ else
      submitNext s.lineUpdated) = _ at h
    have hi : s.lineUpdated.inhibited = s.inhibited := by unfold State.lineUpdated; split <;> rfl
    have he : s.lineUpdated.empty = s.empty := by unfold State.lineUpdated; split <;> rfl
    have ho : s.lineUpdated.or = s.or := by unfold State.lineUpdated; split <;> rfl
    have hp : s.lineUpdated.params = s.params := by unfold State.lineUpdated; split <;> rfl
    rw [hi, he] at h
    split at h
    · rename_i h1; exact .inr (.inl ⟨hd, .inl h1, (Except.ok.inj h).symm⟩)
    · rename_i h1
      split at h
      · rename_i h2; exact .inr (.inl ⟨hd, .inr ((State.empty_iff s).1 h2), (Except.ok.inj h).symm⟩)
      · rename_i h2
        obtain ⟨hr, rfl⟩ := submitNext_ok h
        rw [ho, hp] at hr
        exact .inr (.inr ⟨hd, by simpa using h1, fun e => h2 ((State.empty_iff s).2 e), hr, rfl⟩)
  · rename_i hd
    exact .inl ⟨by simpa using hd, (Except.ok.inj h).symm⟩

/-- The block's side of TX_READY answers with a state whenever `or` is in range. -/
theorem transmitComplete_isOk {s : State} (hr : s.or < s.params.nOut) : ∃ t, transmitComplete s = .ok t := by
  unfold transmitComplete
  split
  · simp only
    by_cases hs : s.sigChanged = true
    · rw [if_pos hs, submitNext_eq (s := updateLine s) (by simpa using hr)]
      repeat' split
      all_goals exact ⟨_, rfl⟩
    · rw [if_neg hs, submitNext_eq hr]
      repeat' split
      all_goals exact ⟨_, rfl⟩
  · exact ⟨_, rfl⟩

/-- The LINK agent's side of a TX_READY touches its own fields only (R231). -/
theorem linkDone_cases (s : State) :
    (s.linkByte = none ∧ linkDone s = s) ∨
    (∃ b, s.linkByte = some b ∧ linkDone s = { s with linkByte := none, hostGot := s.hostGot ++ [b] }) := by
  unfold linkDone
  cases h : s.linkByte with
  | none => exact .inl ⟨rfl, rfl⟩
  | some b => exact .inr ⟨b, rfl, rfl⟩

/-- A meaning that ends in `finish` answers a next state exactly when its operations do. -/
theorem finish_next {x : Except Fault State} {t : State} : finish x = .next t ↔ x = .ok t := by
  cases x <;> simp [finish]

end Sys2Proof.Machine
end

