-- ==== Sys2Proof/Laws/Input.lean ====
section
/-! SUPPORT. What the decoder primitives and RX_BYTE can do (42_input.md R170 to R176). -/

namespace Sys2Proof.Machine

/-- `s` with logical byte `b` stored (where there is a slot), counted and folded: DecByte past the escape (R171). -/
theorem decLogical_eq (b : Byte) (s : State) :
    decLogical b s = { s with
      ibuf := if s.fill < s.params.nIn then s.ibuf.write s.fill b else s.ibuf
      fill := s.fill + 1
      inCrc := s.params.crcStep s.inCrc b } := by
  unfold decLogical ibufStore
  split <;> rfl

/-- The logical byte that raw byte `r` stands for (R171). -/
def State.unescape (s : State) (r : Byte) : Byte :=
  if s.escaping then r ^^^ s.params.mask else r

/-- DecByte of the escape byte (R171). -/
theorem decByte_esc (s : State) : decByte s.params.esc s = { s with escaping := true } := by
  simp [decByte]

/-- DecByte of any other byte (R171). -/
theorem decByte_other {r : Byte} {s : State} (h : r ≠ s.params.esc) :
    decByte r s = { s with
      escaping := false
      ibuf := if s.fill < s.params.nIn then s.ibuf.write s.fill (s.unescape r) else s.ibuf
      fill := s.fill + 1
      inCrc := s.params.crcStep s.inCrc (s.unescape r) } := by
  unfold decByte
  rw [if_neg h]
  by_cases he : s.escaping = true
  · rw [if_pos he, decLogical_eq]
    simp [State.unescape, he]
  · have he' : s.escaping = false := by simpa using he
    rw [if_neg he, decLogical_eq]
    simp [State.unescape, he']

/-- DecByte writes the decoder's fields only. -/
theorem decByte_frame (r : Byte) (s : State) : ∃ e m f c,
    decByte r s = { s with escaping := e, ibuf := m, fill := f, inCrc := c } := by
  by_cases h : r = s.params.esc
  · subst h; exact ⟨true, s.ibuf, s.fill, s.inCrc, decByte_esc s⟩
  · exact ⟨_, _, _, _, decByte_other h⟩

/-- A range of `ibuf` that exists is read whole. -/
theorem ibufReadRange_eq {s : State} {i n : Nat} (h : n = 0 ∨ i + n ≤ s.params.nIn) :
    ibufReadRange i n s = .ok ((List.range' i n).map s.ibufByte) := if_pos h

theorem ibufReadRange_ok {s : State} {i n : Nat} {l : List Byte} (h : ibufReadRange i n s = .ok l) :
    (n = 0 ∨ i + n ≤ s.params.nIn) ∧ l = (List.range' i n).map s.ibufByte := by
  unfold ibufReadRange at h
  split at h
  · rename_i hc; exact ⟨hc, (Except.ok.inj h).symm⟩
  · cases h

/-- What an accepted RX_BYTE of the closing flag leaves (R172, R174, R176). -/
theorem receiveClosingFlag_eq {s : State} (hf : s.fill ≤ s.params.nIn + 2) :
    receiveClosingFlag s = .ok (if s.inCrc = s.params.crcGood ∧ 3 ≤ s.fill then
        emit (.frame (s.fill - 2) ((List.range (s.fill - 2)).map s.ibufByte))
          { s with fill := s.fill - 2, rxState := .wait, rxHeld := true }
      else raise .inBadFrame (countArg s.fill) 0x0000#16 { s with fill := 0, rxState := .wait }) := by
  unfold receiveClosingFlag decClose
  by_cases h3 : s.inCrc = s.params.crcGood ∧ 3 ≤ s.fill
  · have h2 : s.inCrc = s.params.crcGood ∧ 2 ≤ s.fill := ⟨h3.1, by omega⟩
    have hz : ¬ s.fill - 2 = 0 := by omega
    simp only [if_pos h3, if_pos h2, if_neg hz]
    rw [ibufReadRange_eq (.inr (by simp only; omega)), ← List.range_eq_range']
    rfl
  · rw [if_neg h3]
    by_cases h2 : s.inCrc = s.params.crcGood ∧ 2 ≤ s.fill
    · have hz : s.fill - 2 = 0 := by
        have : ¬ 3 ≤ s.fill := fun e => h3 ⟨h2.1, e⟩
        omega
      simp only [if_pos h2, hz, if_true]
    · simp only [if_neg h2, if_true]

theorem receiveClosingFlag_ok {s t : State} (h : receiveClosingFlag s = .ok t) :
    (s.inCrc = s.params.crcGood ∧ 3 ≤ s.fill ∧ s.fill ≤ s.params.nIn + 2 ∧
      t = emit (.frame (s.fill - 2) ((List.range (s.fill - 2)).map s.ibufByte))
        { s with fill := s.fill - 2, rxState := .wait, rxHeld := true }) ∨
    (¬(s.inCrc = s.params.crcGood ∧ 3 ≤ s.fill) ∧
      t = raise .inBadFrame (countArg s.fill) 0x0000#16 { s with fill := 0, rxState := .wait }) := by
  by_cases hf : s.fill ≤ s.params.nIn + 2
  · rw [receiveClosingFlag_eq hf] at h
    have h := (Except.ok.inj h).symm
    by_cases hc : s.inCrc = s.params.crcGood ∧ 3 ≤ s.fill
    · rw [if_pos hc] at h; exact .inl ⟨hc.1, hc.2, hf, h⟩
    · rw [if_neg hc] at h; exact .inr ⟨hc, h⟩
  · by_cases hc : s.inCrc = s.params.crcGood
    · exfalso
      have h2 : 2 ≤ s.fill := by omega
      have hz : ¬ s.fill - 2 = 0 := by omega
      unfold receiveClosingFlag decClose at h
      simp only [hc, h2, and_self, if_true, if_neg hz] at h
      unfold ibufReadRange at h
      simp only at h
      rw [if_neg (by omega)] at h
      cases h
    · right
      refine ⟨fun e => hc e.1, ?_⟩
      unfold receiveClosingFlag decClose at h
      simp only [hc, false_and, if_false, if_true] at h
      exact (Except.ok.inj h).symm

/-- All that an accepted RX_BYTE can do (R174). -/
theorem receive_ok {r : Byte} {s t : State} (h : receive r s = .ok t) :
    (s.rxState = .wait ∧ ¬(s.lastRx = s.params.flag ∧ r ≠ s.params.flag) ∧ t = { s with lastRx := r }) ∨
    (s.rxState = .wait ∧ s.lastRx = s.params.flag ∧ r ≠ s.params.flag ∧
      t = { decByte r (decOpen { s with rxState := .assembling }) with lastRx := r }) ∨
    (s.rxState = .assembling ∧ r ≠ s.params.flag ∧ (decByte r s).fill ≤ s.params.nIn ∧
      t = { decByte r s with lastRx := r }) ∨
    (s.rxState = .assembling ∧ r ≠ s.params.flag ∧ s.params.nIn < (decByte r s).fill ∧
      t = { raise .inOverflow 0x0000#16 0x0000#16 (decByte r s) with fill := 0, rxState := .wait, lastRx := r }) ∨
    (s.rxState = .assembling ∧ r = s.params.flag ∧
      ∃ u, receiveClosingFlag s = .ok u ∧ t = { u with lastRx := r }) := by
  unfold receive at h
  split at h
  · rename_i hst
    have h := (Except.ok.inj h).symm
    unfold receiveWaiting at h
    by_cases hc : s.lastRx = s.params.flag ∧ r ≠ s.params.flag
    · rw [if_pos hc] at h; exact .inr (.inl ⟨hst, hc.1, hc.2, h⟩)
    · rw [if_neg hc] at h; exact .inl ⟨hst, hc, h⟩
  · rename_i hst
    split at h
    · rename_i hr
      have h := (Except.ok.inj h).symm
      unfold receiveInFrame at h
      simp only at h
      by_cases ho : s.params.nIn < (decByte r s).fill
      · rw [if_pos ho] at h; exact .inr (.inr (.inr (.inl ⟨hst, hr, ho, h⟩)))
      · rw [if_neg ho] at h; exact .inr (.inr (.inl ⟨hst, hr, by omega, h⟩))
    · rename_i hr
      have hr : r = s.params.flag := by simpa using hr
      split at h
      · cases h
      · rename_i u hu
        exact .inr (.inr (.inr (.inr ⟨hst, hr, u, hu, (Except.ok.inj h).symm⟩)))

/-- An accepted RX_BYTE answers with a state whenever the fill level is within the buffer. -/
theorem receive_isOk {r : Byte} {s : State} (hf : s.fill ≤ s.params.nIn) : ∃ t, receive r s = .ok t := by
  unfold receive
  split
  · exact ⟨_, rfl⟩
  · split
    · exact ⟨_, rfl⟩
    · rw [receiveClosingFlag_eq (by omega)]
      exact ⟨_, rfl⟩

/-! ### Each case of RX_BYTE in one equation (R174, R175) -/

theorem exec_rxByte {r : Byte} {s : State} (h : s.rxHeld = false) :
    exec (.rxByte r) s = finish (receive r (respond .nothing s)) := by
  simp [exec, execRxByte, h]

theorem receive_ignored {r : Byte} {s : State} (hst : s.rxState = .wait)
    (h : ¬(s.lastRx = s.params.flag ∧ r ≠ s.params.flag)) : receive r s = .ok { s with lastRx := r } := by
  simp only [receive, hst, receiveWaiting, if_neg h]

/-- The state of a frame's first byte: everything fresh (R170). -/
def State.opened (s : State) : State :=
  { s with rxState := .assembling, fill := 0, inCrc := s.params.crcInit, escaping := false }

theorem receive_start {r : Byte} {s : State} (hst : s.rxState = .wait) (h1 : s.lastRx = s.params.flag)
    (h2 : r ≠ s.params.flag) : receive r s = .ok { decByte r s.opened with lastRx := r } := by
  have h : decOpen { s with rxState := .assembling } = s.opened := rfl
  simp only [receive, hst, receiveWaiting, if_pos (And.intro h1 h2), h]

theorem receive_inFrame {r : Byte} {s : State} (hst : s.rxState = .assembling) (h : r ≠ s.params.flag)
    (hf : (decByte r s).fill ≤ s.params.nIn) : receive r s = .ok { decByte r s with lastRx := r } := by
  simp only [receive, hst, if_pos h, receiveInFrame, if_neg (Nat.not_lt.2 hf)]

theorem receive_overflow {r : Byte} {s : State} (hst : s.rxState = .assembling) (h : r ≠ s.params.flag)
    (hf : s.params.nIn < (decByte r s).fill) :
    receive r s = .ok { raise .inOverflow 0x0000#16 0x0000#16 (decByte r s) with
      fill := 0, rxState := .wait, lastRx := r } := by
  simp only [receive, hst, if_pos h, receiveInFrame, if_pos hf]

theorem receive_dispatch {s : State} (hst : s.rxState = .assembling) (hf : s.fill ≤ s.params.nIn + 2)
    (hc : s.inCrc = s.params.crcGood) (h3 : 3 ≤ s.fill) :
    receive s.params.flag s = .ok { s with
      fill := s.fill - 2, rxState := .wait, rxHeld := true, lastRx := s.params.flag,
      history := s.history ++ [.frame (s.fill - 2) ((List.range (s.fill - 2)).map s.ibufByte)] } := by
  have h := receiveClosingFlag_eq hf
  rw [if_pos ⟨hc, h3⟩] at h
  simp only [receive, hst, h, if_neg (show ¬ (s.params.flag ≠ s.params.flag) from fun e => e rfl)]
  rfl

theorem receive_bad {s : State} (hst : s.rxState = .assembling) (hf : s.fill ≤ s.params.nIn + 2)
    (hc : ¬(s.inCrc = s.params.crcGood ∧ 3 ≤ s.fill)) :
    receive s.params.flag s = .ok { raise .inBadFrame (countArg s.fill) 0x0000#16 s with
      fill := 0, rxState := .wait, lastRx := s.params.flag } := by
  have h := receiveClosingFlag_eq hf
  rw [if_neg hc] at h
  simp only [receive, hst, h, if_neg (show ¬ (s.params.flag ≠ s.params.flag) from fun e => e rfl)]
  rfl

/-! ### Slots of the input buffer -/

theorem ibufByte_write_same {s t : State} {i : Nat} {b : Byte} (h : t.ibuf = s.ibuf.write i b) :
    t.ibufByte i = b := by
  simp [State.ibufByte, h, Memory.read?_write_same]

theorem ibufByte_write_other {s t : State} {i a : Nat} {b : Byte} (h : t.ibuf = s.ibuf.write i b)
    (hd : t.draws = s.draws) (ha : a ≠ i) : t.ibufByte a = s.ibufByte a := by
  simp [State.ibufByte, h, hd, Memory.read?_write_other _ _ ha]

end Sys2Proof.Machine
end

