-- ==== Sys2Proof/Laws/Frames.lean ====
section
/-! SUPPORT. What each meaning can do when it answers a next state, for every state: the fields it writes and the
events it appends. Later proofs cite these and never unfold a meaning. -/

namespace Sys2Proof.Machine

/-- A list of events that holds error events only. -/
def OnlyErrors (evs : List Event) : Prop :=
  ∀ e ∈ evs, ∃ k a1 a2, e = .err k a1 a2

theorem onlyErrors_nil : OnlyErrors [] := by simp [OnlyErrors]

theorem onlyErrors_single (k : ErrKind) (a1 a2 : Word) : OnlyErrors [.err k a1 a2] := by
  simp [OnlyErrors]

theorem OnlyErrors.append {l l' : List Event} (h : OnlyErrors l) (h' : OnlyErrors l') : OnlyErrors (l ++ l') := by
  intro e he
  rcases List.mem_append.1 he with he | he
  · exact h e he
  · exact h' e he

theorem txBytes_append (l l' : List Event) : txBytes (l ++ l') = txBytes l ++ txBytes l' := by
  induction l with
  | nil => rfl
  | cons e l ih => cases e <;> simp [txBytes, ih]

theorem OnlyErrors.txBytes {l : List Event} (h : OnlyErrors l) : txBytes l = [] := by
  induction l with
  | nil => rfl
  | cons e l ih =>
    obtain ⟨k, a1, a2, rfl⟩ := h e List.mem_cons_self
    exact ih fun x hx => h x (List.mem_cons_of_mem _ hx)

/-! ### Encoder operations -/

/-- All that the loop of OPush can do. -/
theorem pushAll_ok {l : List Byte} {s t : State} (h : pushAll l s = .ok t) :
    (l = [] ∧ t = s) ∨ (s.ow < s.params.nOut ∧ t = s.appendBytes l) := by
  cases l with
  | nil => exact .inl ⟨rfl, (Except.ok.inj h).symm⟩
  | cons b bs =>
    by_cases hw : s.ow < s.params.nOut
    · rw [pushAll_eq hw] at h
      exact .inr ⟨hw, (Except.ok.inj h).symm⟩
    · simp [pushAll, pushByte, obufWrite, hw] at h

/-- All that OPush can do (R104, R105). -/
theorem oPush_ok {l : List Byte} {s t : State} (h : oPush l s = .ok t) :
    (s.accepts l.length = true ∧ ((l = [] ∧ t = s) ∨ (s.ow < s.params.nOut ∧ t = s.appendBytes l))) ∨
    (s.accepts l.length = false ∧ t = raise .outOverflow (countArg l.length) (countArg s.free) s) := by
  unfold oPush at h
  split at h
  · rename_i ha; exact .inl ⟨ha, pushAll_ok h⟩
  · rename_i ha; exact .inr ⟨by simpa using ha, (Except.ok.inj h).symm⟩

/-- What the encoder writes: `t` is `s` with the output buffer, `ow`, the CRC and `enc_active` at some values, some
errors recorded and nothing returned. -/
def EncoderWrites (s t : State) : Prop :=
  ∃ m w c a r evs, OnlyErrors evs ∧
    t = ({ s with obuf := m, ow := w, outCrc := c, encActive := a, resp := r } : State).recorded evs

theorem encoderWrites_refl (s : State) : EncoderWrites s s :=
  ⟨s.obuf, s.ow, s.outCrc, s.encActive, s.resp, [], onlyErrors_nil, (recorded_nil _).symm⟩

theorem EncoderWrites.trans {s t u : State} (h : EncoderWrites s t) (h' : EncoderWrites t u) : EncoderWrites s u := by
  obtain ⟨m, w, c, a, r, e1, he1, rfl⟩ := h
  obtain ⟨m', w', c', a', r', e2, he2, rfl⟩ := h'
  refine ⟨m', w', c', a', r', e1 ++ e2, he1.append he2, ?_⟩
  rw [← recorded_recorded]
  rfl

theorem encoderWrites_raise (k : ErrKind) (a1 a2 : Word) (s : State) : EncoderWrites s (raise k a1 a2 s) :=
  ⟨s.obuf, s.ow, s.outCrc, s.encActive, s.resp, _, onlyErrors_single k a1 a2, rfl⟩

theorem encoderWrites_raiseIf (c : Bool) (k : ErrKind) (a1 a2 : Word) (s : State) :
    EncoderWrites s (raiseIf c k a1 a2 s) := by
  cases c
  · exact encoderWrites_refl s
  · exact encoderWrites_raise k a1 a2 s

theorem encoderWrites_set (s : State) (c : Word) (a : Bool) (r : Resp) :
    EncoderWrites s { s with outCrc := c, encActive := a, resp := r } :=
  ⟨s.obuf, s.ow, c, a, r, [], onlyErrors_nil, (recorded_nil _).symm⟩

theorem encoderWrites_oPush {l : List Byte} {s t : State} (h : oPush l s = .ok t) : EncoderWrites s t := by
  rcases oPush_ok h with ⟨_, ⟨_, rfl⟩ | ⟨_, rfl⟩⟩ | ⟨_, rfl⟩
  · exact encoderWrites_refl _
  · exact ⟨_, _, s.outCrc, s.encActive, s.resp, [], onlyErrors_nil, (recorded_nil _).symm⟩
  · exact encoderWrites_raise _ _ _ _

theorem encoderWrites_encodeByte {b : Byte} {s t : State} (h : encodeByte b s = .ok t) : EncoderWrites s t :=
  (encoderWrites_set s (s.params.crcStep s.outCrc b) s.encActive s.resp).trans (encoderWrites_oPush h)

theorem encoderWrites_closeFrame {s t : State} (h : closeFrame s = .ok t) : EncoderWrites s t := by
  unfold closeFrame at h
  simp only at h
  split at h
  · cases h
  · rename_i u hu
    split at h
    · cases h
    · rename_i v hv
      split at h
      · cases h
      · rename_i w hw
        rw [← Except.ok.inj h]
        exact (((encoderWrites_encodeByte hu).trans (encoderWrites_encodeByte hv)).trans
          (encoderWrites_oPush hw)).trans (encoderWrites_set w w.outCrc false w.resp)

/-- The encoder operations write the encoder's fields only, and record errors only (R110 to R112). -/
theorem encoderWrites_exec {i : Instr} {s t : State}
    (hi : (∃ d, i = .encOpen d) ∨ (∃ b, i = .encByte b) ∨ ∃ d, i = .encClose d) (h : exec i s = .next t) :
    EncoderWrites s t := by
  have h0 : EncoderWrites s (respond .nothing s) := encoderWrites_set s s.outCrc s.encActive .nothing
  rcases hi with ⟨d, rfl⟩ | ⟨b, rfl⟩ | ⟨d, rfl⟩
  · have h := finish_next.1 h
    split at h
    · cases h
    · rename_i u hu
      rw [← Except.ok.inj h]
      exact (((h0.trans (encoderWrites_raiseIf _ _ _ _ _)).trans (encoderWrites_set _ s.params.crcInit _ _)).trans
        (encoderWrites_oPush hu)).trans (encoderWrites_set u u.outCrc true u.resp)
  · exact (h0.trans (encoderWrites_raiseIf _ _ _ _ _)).trans (encoderWrites_encodeByte (finish_next.1 h))
  · exact (h0.trans (encoderWrites_raiseIf _ _ _ _ _)).trans (encoderWrites_closeFrame (finish_next.1 h))

/-! ### The output channel -/

/-- All that FLUSH, INHIBIT_START, INHIBIT_STOP and TX_READY can do to the state `u` they start their shared body on:
an optional line update, then an optional byte, and `draining` left at some value (R143, R144). -/
def FlowWrites (u t : State) : Prop :=
  ∃ v : State, (v = u ∨ v = updateLine u) ∧
    ∃ d, t = { v with draining := d } ∨ (v.inhibited = false ∧ v.ow ≠ v.or ∧ v.or < v.params.nOut ∧
      t = { v.submittedNext with draining := d })

theorem flowWrites_flushBody {s t : State} (h : flushBody s = .ok t) : FlowWrites s t := by
  rcases flushBody_ok h with ⟨_, rfl⟩ | ⟨_, _, rfl⟩ | ⟨_, _, h1, h2, h3, rfl⟩
  · exact ⟨_, .inl rfl, _, .inl rfl⟩
  · exact ⟨_, .inr rfl, s.draining, .inl rfl⟩
  · exact ⟨s, .inl rfl, true, .inr ⟨h1, h2, h3, rfl⟩⟩

theorem lineUpdated_cases (s : State) : s.lineUpdated = s ∨ s.lineUpdated = updateLine s := by
  unfold State.lineUpdated
  split
  · exact .inr rfl
  · exact .inl rfl

theorem flowWrites_transmitComplete {s t : State} (h : transmitComplete s = .ok t) : FlowWrites s t := by
  rcases transmitComplete_ok h with ⟨_, rfl⟩ | ⟨_, _, rfl⟩ | ⟨hd, h1, h2, h3, rfl⟩
  · exact ⟨_, .inl rfl, _, .inl rfl⟩
  · exact ⟨_, lineUpdated_cases s, false, .inl rfl⟩
  · refine ⟨s.lineUpdated, lineUpdated_cases s, s.lineUpdated.draining, .inr ⟨?_, ?_, ?_, rfl⟩⟩ <;>
      rcases lineUpdated_cases s with e | e <;> rw [e] <;> simpa [updateLine]

/-! ### The input assembler -/

/-- What an accepted RX_BYTE writes: the assembler's fields, and events that are errors or a frame (R174). -/
theorem receive_frame {r : Byte} {s t : State} (h : receive r s = .ok t) :
    ∃ m f x e c hd evs, (OnlyErrors evs ∨ ∃ n l, evs = [.frame n l]) ∧
      t = ({ s with ibuf := m, fill := f, rxState := x, escaping := e, lastRx := r, inCrc := c, rxHeld := hd } :
        State).recorded evs := by
  rcases receive_ok h with ⟨_, _, rfl⟩ | ⟨_, _, _, rfl⟩ | ⟨_, _, _, rfl⟩ | ⟨_, _, _, rfl⟩ | ⟨_, _, u, hu, rfl⟩
  · exact ⟨_, _, _, _, _, _, [], .inl onlyErrors_nil, (recorded_nil _).symm⟩
  · obtain ⟨e, m, f, c, he⟩ := decByte_frame r (decOpen { s with rxState := .assembling })
    rw [he]
    exact ⟨_, _, _, _, _, _, [], .inl onlyErrors_nil, (recorded_nil _).symm⟩
  · obtain ⟨e, m, f, c, he⟩ := decByte_frame r s
    rw [he]
    exact ⟨_, _, _, _, _, _, [], .inl onlyErrors_nil, (recorded_nil _).symm⟩
  · obtain ⟨e, m, f, c, he⟩ := decByte_frame r s
    rw [he]
    exact ⟨_, _, _, _, _, _, _, .inl (onlyErrors_single _ _ _), rfl⟩
  · rcases receiveClosingFlag_ok hu with ⟨_, _, _, rfl⟩ | ⟨_, rfl⟩
    · exact ⟨_, _, _, _, _, _, _, .inr ⟨_, _, rfl⟩, rfl⟩
    · exact ⟨_, _, _, _, _, _, _, .inl (onlyErrors_single _ _ _), rfl⟩

/-- All that IN_READ can do (R177). -/
theorem inRead_next {n : Byte} {s t : State} (h : exec (.inRead n) s = .next t) :
    (s.avail < n.toNat ∧
      t = respond (.bytes []) (raise .rdTooLarge (countArg n.toNat) (countArg s.avail) s)) ∨
    (n.toNat ≤ s.avail ∧ (n.toNat = 0 ∨ 1 + n.toNat ≤ s.params.nIn) ∧
      t = respond (.bytes ((List.range' 1 n.toNat).map s.ibufByte)) s) := by
  simp only [exec, execInRead] at h
  split at h
  · rename_i ha; exact .inl ⟨ha, by injection h with h; exact h.symm⟩
  · rename_i ha
    split at h
    · cases h
    · rename_i l hl
      obtain ⟨hc, rfl⟩ := ibufReadRange_ok hl
      exact .inr ⟨Nat.le_of_not_lt ha, hc, by injection h with h; exact h.symm⟩

/-- All that IN_STATUS can do (R202). -/
theorem inStatus_next {d : Byte} {s t : State} (h : exec (.inStatus d) s = .next t) :
    (s.rxHeld = true ∧ 1 ≤ s.params.nIn ∧ t = respond (.word (s.inStatusWord (s.ibufByte 0))) s) ∨
    (s.rxHeld = false ∧ t = respond (.word (s.inStatusWord 0x00#8)) s) := by
  simp only [exec, execInStatus] at h
  split at h
  · rename_i hh
    split at h
    · cases h
    · rename_i l hl
      obtain ⟨hc, rfl⟩ := ibufReadRange_ok hl
      exact .inl ⟨hh, by omega, by injection h with h; exact h.symm⟩
  · rename_i hh
    exact .inr ⟨by simpa using hh, by injection h with h; exact h.symm⟩

/-- All that FRAME_RELEASE can do (R178). -/
theorem frameRelease_next {d : Byte} {s t : State} (h : exec (.frameRelease d) s = .next t) :
    (s.rxHeld = true ∧ t = { respond .nothing s with fill := 0, rxHeld := false }) ∨
    (s.rxHeld = false ∧ t = raise .seq (encode (.frameRelease d)) 0x0000#16 (respond .nothing s)) := by
  simp only [exec, execFrameRelease, wordArg] at h
  split at h
  · rename_i hh; exact .inl ⟨hh, by injection h with h; exact h.symm⟩
  · rename_i hh; exact .inr ⟨by simpa using hh, by injection h with h; exact h.symm⟩

/-- All that RX_BYTE can do (R174, R179). -/
theorem rxByte_next {r : Byte} {s t : State} (h : exec (.rxByte r) s = .next t) :
    (s.rxHeld = true ∧ t = { s with arrivals := .word .link (encode (.rxByte r)) :: s.arrivals }) ∨
    (s.rxHeld = false ∧ receive r (respond .nothing s) = .ok t) := by
  simp only [exec, execRxByte] at h
  split at h
  · rename_i hh; exact .inl ⟨hh, by injection h with h; exact h.symm⟩
  · rename_i hh; exact .inr ⟨by simpa using hh, finish_next.1 h⟩

/-! ### Reset -/

/-- What the reset leaves of the link: nothing in transmission, and the byte delivered or not (R251). -/
theorem cancelLink_cases (s : State) : ∃ l, cancelLink s = { s with linkByte := none, hostGot := l } ∧
    (l = s.hostGot ∨ ∃ b, s.linkByte = some b ∧ l = s.hostGot ++ [b]) := by
  unfold cancelLink
  split
  · rename_i b hb
    refine ⟨_, rfl, ?_⟩
    split
    · exact .inr ⟨b, hb, rfl⟩
    · exact .inl rfl
  · rename_i hb
    exact ⟨s.hostGot, by rw [← hb], .inl rfl⟩

/-! ### All operations -/

/-- `t` differs from `s` neither in the output channel's read side nor in the flow controller nor in the link, and the
events since are errors and frames only. -/
def QuietOn (s t : State) : Prop :=
  (t.params = s.params ∧ t.or = s.or ∧ t.draining = s.draining ∧ t.inhibited = s.inhibited ∧
    t.sigChanged = s.sigChanged ∧ t.fcOut = s.fcOut ∧ t.linkByte = s.linkByte ∧ t.hostGot = s.hostGot ∧
    t.draws = s.draws) ∧
    ∃ evs, (OnlyErrors evs ∨ ∃ n l, evs = [.frame n l]) ∧ t.history = s.history ++ evs ∧
      t.errRegs = recordErrors evs s.errRegs

theorem quietOn_recorded {s u : State} {evs : List Event} (he : OnlyErrors evs ∨ ∃ n l, evs = [.frame n l])
    (h : u.params = s.params ∧ u.or = s.or ∧ u.draining = s.draining ∧ u.inhibited = s.inhibited ∧
      u.sigChanged = s.sigChanged ∧ u.fcOut = s.fcOut ∧ u.linkByte = s.linkByte ∧ u.hostGot = s.hostGot ∧
      u.draws = s.draws) (hh : u.history = s.history) (hr : u.errRegs = s.errRegs) :
    QuietOn s (u.recorded evs) :=
  ⟨h, evs, he, by rw [← hh]; rfl, by rw [← hr]; rfl⟩

theorem EncoderWrites.quietOn {s t : State} (h : EncoderWrites s t) : QuietOn s t := by
  obtain ⟨m, w, c, a, r, evs, he, rfl⟩ := h
  exact quietOn_recorded (.inl he) ⟨rfl, rfl, rfl, rfl, rfl, rfl, rfl, rfl, rfl⟩ rfl rfl

/-- The state the flow operations start their shared body on. -/
def State.flowStart (s : State) : Instr → State
  | .flush _ => respond .nothing s
  | .inhibitStart _ => { respond .nothing s with inhibited := true, sigChanged := true }
  | .inhibitStop _ => { respond .nothing s with inhibited := false, sigChanged := true }
  | .txReady _ => linkDone (respond .nothing s)
  | .nop _ | .encOpen _ | .encByte _ | .encClose _ | .inRead _ | .frameRelease _ | .outStatus _ | .inStatus _
  | .errStatus _ | .errArgs _ | .crcStatus _ | .errClear _ | .init _ | .rxByte _ => s

/-- The operations of the flow controller (R143 to R146). -/
def isFlow : Instr → Bool
  | .flush _ | .inhibitStart _ | .inhibitStop _ | .txReady _ => true
  | .nop _ | .encOpen _ | .encByte _ | .encClose _ | .inRead _ | .frameRelease _ | .outStatus _ | .inStatus _
  | .errStatus _ | .errArgs _ | .crcStatus _ | .errClear _ | .init _ | .rxByte _ => false

/-- A flow operation runs its shared body on its start state. -/
theorem flow_next {i : Instr} {s t : State} (hi : isFlow i = true) (h : exec i s = .next t) :
    FlowWrites (s.flowStart i) t ∧
      (((∃ d, i = .txReady d) ∧ transmitComplete (s.flowStart i) = .ok t) ∨
        ((∀ d, i ≠ .txReady d) ∧ flushBody (s.flowStart i) = .ok t)) := by
  cases i <;> cases hi
  case flush d =>
    exact ⟨flowWrites_flushBody (finish_next.1 h), .inr ⟨fun _ => (fun e => nomatch e), finish_next.1 h⟩⟩
  case inhibitStart d =>
    exact ⟨flowWrites_flushBody (finish_next.1 h), .inr ⟨fun _ => (fun e => nomatch e), finish_next.1 h⟩⟩
  case inhibitStop d =>
    exact ⟨flowWrites_flushBody (finish_next.1 h), .inr ⟨fun _ => (fun e => nomatch e), finish_next.1 h⟩⟩
  case txReady d =>
    exact ⟨flowWrites_transmitComplete (finish_next.1 h), .inl ⟨⟨d, rfl⟩, finish_next.1 h⟩⟩

/-- Every operation is a reset, a flow operation, ERR_CLEAR, or quiet on the output side. -/
theorem quietOn_exec {i : Instr} {s t : State} (hf : isFlow i = false) (hn : ∀ d, i ≠ .init d)
    (hc : ∀ m, i ≠ .errClear m) (h : exec i s = .next t) : QuietOn s t := by
  cases i with
  | encOpen d => exact (encoderWrites_exec (.inl ⟨d, rfl⟩) h).quietOn
  | encByte b => exact (encoderWrites_exec (.inr (.inl ⟨b, rfl⟩)) h).quietOn
  | encClose d => exact (encoderWrites_exec (.inr (.inr ⟨d, rfl⟩)) h).quietOn
  | inRead n =>
    rcases inRead_next h with ⟨_, rfl⟩ | ⟨_, _, rfl⟩
    · exact ⟨⟨rfl, rfl, rfl, rfl, rfl, rfl, rfl, rfl, rfl⟩, _, .inl (onlyErrors_single _ _ _), rfl, rfl⟩
    · exact ⟨⟨rfl, rfl, rfl, rfl, rfl, rfl, rfl, rfl, rfl⟩, [], .inl onlyErrors_nil, (List.append_nil _).symm, rfl⟩
  | frameRelease d =>
    rcases frameRelease_next h with ⟨_, rfl⟩ | ⟨_, rfl⟩
    · exact ⟨⟨rfl, rfl, rfl, rfl, rfl, rfl, rfl, rfl, rfl⟩, [], .inl onlyErrors_nil, (List.append_nil _).symm, rfl⟩
    · exact ⟨⟨rfl, rfl, rfl, rfl, rfl, rfl, rfl, rfl, rfl⟩, _, .inl (onlyErrors_single _ _ _), rfl, rfl⟩
  | inStatus d =>
    rcases inStatus_next h with ⟨_, _, rfl⟩ | ⟨_, rfl⟩ <;>
      exact ⟨⟨rfl, rfl, rfl, rfl, rfl, rfl, rfl, rfl, rfl⟩, [], .inl onlyErrors_nil, (List.append_nil _).symm, rfl⟩
  | rxByte r =>
    rcases rxByte_next h with ⟨_, rfl⟩ | ⟨_, h⟩
    · exact ⟨⟨rfl, rfl, rfl, rfl, rfl, rfl, rfl, rfl, rfl⟩, [], .inl onlyErrors_nil, (List.append_nil _).symm, rfl⟩
    · obtain ⟨_, _, _, _, _, _, evs, he, rfl⟩ := receive_frame h
      exact quietOn_recorded he ⟨rfl, rfl, rfl, rfl, rfl, rfl, rfl, rfl, rfl⟩ rfl rfl
  | errClear m => exact absurd rfl (hc m)
  | init d => exact absurd rfl (hn d)
  | flush d => cases hf
  | inhibitStart d => cases hf
  | inhibitStop d => cases hf
  | txReady d => cases hf
  | nop d =>
    cases h
    exact ⟨⟨rfl, rfl, rfl, rfl, rfl, rfl, rfl, rfl, rfl⟩, [], .inl onlyErrors_nil, (List.append_nil _).symm, rfl⟩
  | outStatus d =>
    cases h
    exact ⟨⟨rfl, rfl, rfl, rfl, rfl, rfl, rfl, rfl, rfl⟩, [], .inl onlyErrors_nil, (List.append_nil _).symm, rfl⟩
  | errStatus d =>
    cases h
    exact ⟨⟨rfl, rfl, rfl, rfl, rfl, rfl, rfl, rfl, rfl⟩, [], .inl onlyErrors_nil, (List.append_nil _).symm, rfl⟩
  | errArgs d =>
    cases h
    exact ⟨⟨rfl, rfl, rfl, rfl, rfl, rfl, rfl, rfl, rfl⟩, [], .inl onlyErrors_nil, (List.append_nil _).symm, rfl⟩
  | crcStatus d =>
    cases h
    exact ⟨⟨rfl, rfl, rfl, rfl, rfl, rfl, rfl, rfl, rfl⟩, [], .inl onlyErrors_nil, (List.append_nil _).symm, rfl⟩

/-- All that ERR_CLEAR can do (R206). -/
theorem errClear_next {m : Byte} {s t : State} (h : exec (.errClear m) s = .next t) :
    t = acknowledge m (respond .nothing s) := by
  cases h; rfl

/-- All that INIT can do (R207, R250, R251). -/
theorem init_next {d : Byte} {s t : State} (h : exec (.init d) s = .next t) :
    ∃ l, t = { State.resetWith s.params with
        history := s.history ++ [.reset], hostGot := l, arrivals := s.arrivals, draws := s.draws + 1 } ∧
      (l = s.hostGot ∨ ∃ b, s.linkByte = some b ∧ l = s.hostGot ++ [b]) := by
  cases h
  obtain ⟨l, hl, h2⟩ := cancelLink_cases (respond .nothing s)
  refine ⟨l, ?_, h2⟩
  unfold resetBlock
  rw [hl]
  rfl

/-! ### Consequences -/

theorem quiet_txBytes {evs : List Event} (h : OnlyErrors evs ∨ ∃ n l, evs = [.frame n l]) : txBytes evs = [] := by
  rcases h with h | ⟨n, l, rfl⟩
  · exact h.txBytes
  · rfl

/-- Every operation is a reset, a flow operation, or leaves the flow controller and the link alone. -/
theorem exec_kinds {i : Instr} {s t : State} (h : exec i s = .next t) :
    (∃ d, i = .init d) ∨ isFlow i = true ∨ (isFlow i = false ∧ (∀ d, i ≠ .init d) ∧
      (t.params = s.params ∧ t.or = s.or ∧ t.draining = s.draining ∧ t.inhibited = s.inhibited ∧
        t.sigChanged = s.sigChanged ∧ t.fcOut = s.fcOut ∧ t.linkByte = s.linkByte ∧ t.hostGot = s.hostGot ∧
        t.draws = s.draws) ∧
      ∃ evs, (OnlyErrors evs ∨ ∃ n l, evs = [.frame n l]) ∧ t.history = s.history ++ evs) := by
  by_cases h1 : ∃ d, i = .init d
  · exact .inl h1
  by_cases h2 : isFlow i = true
  · exact .inr (.inl h2)
  have h1' : ∀ d, i ≠ .init d := fun d e => h1 ⟨d, e⟩
  refine .inr (.inr ⟨by simpa using h2, h1', ?_⟩)
  by_cases h3 : ∃ m, i = .errClear m
  · obtain ⟨m, rfl⟩ := h3
    rw [errClear_next h]
    exact ⟨⟨rfl, rfl, rfl, rfl, rfl, rfl, rfl, rfl, rfl⟩, [], .inl onlyErrors_nil, (List.append_nil _).symm⟩
  · obtain ⟨a, evs, b, c, _⟩ := quietOn_exec (by simpa using h2) h1' (fun m e => h3 ⟨m, e⟩) h
    exact ⟨a, evs, b, c⟩

theorem flowStart_history (i : Instr) (s : State) : (s.flowStart i).history = s.history := by
  cases i <;> try rfl
  rcases linkDone_cases (respond .nothing s) with ⟨_, e⟩ | ⟨b, hb, e⟩ <;> simp only [State.flowStart, e] <;> rfl

/-- What the start of a flow operation writes: the two flags, the link's side and the response. -/
theorem flowStart_eq {i : Instr} (s : State) (hi : isFlow i = true) : ∃ inh sg lb hg,
    s.flowStart i =
      { s with inhibited := inh, sigChanged := sg, linkByte := lb, hostGot := hg, resp := .nothing } ∧
    ((∀ d, i ≠ .txReady d) → lb = s.linkByte ∧ hg = s.hostGot) ∧
    ((∃ d, i = .txReady d) → inh = s.inhibited ∧ sg = s.sigChanged ∧ lb = none ∧
      hg = s.hostGot ++ s.linkByte.toList) := by
  cases i <;> cases hi
  case flush d =>
    exact ⟨s.inhibited, s.sigChanged, s.linkByte, s.hostGot, rfl, fun _ => ⟨rfl, rfl⟩, fun ⟨_, e⟩ => nomatch e⟩
  case inhibitStart d =>
    exact ⟨true, true, s.linkByte, s.hostGot, rfl, fun _ => ⟨rfl, rfl⟩, fun ⟨_, e⟩ => nomatch e⟩
  case inhibitStop d =>
    exact ⟨false, true, s.linkByte, s.hostGot, rfl, fun _ => ⟨rfl, rfl⟩, fun ⟨_, e⟩ => nomatch e⟩
  case txReady d =>
    refine ⟨s.inhibited, s.sigChanged, none, s.hostGot ++ s.linkByte.toList, ?_, fun h => absurd rfl (h d),
      fun _ => ⟨rfl, rfl, rfl, rfl⟩⟩
    rcases linkDone_cases (respond .nothing s) with ⟨h, e⟩ | ⟨b, h, e⟩
    · have h : s.linkByte = none := h
      simp only [State.flowStart, e, h, Option.toList_none, List.append_nil]
      rw [← h]
      rfl
    · have h : s.linkByte = some b := h
      simp only [State.flowStart, e, h]
      rfl

end Sys2Proof.Machine
end

