-- ==== Sys2Proof/Laws/Sequences.lean ====
section
/-! SUPPORT. Sequences of operations (20_memory.md R54), and the content of an encode (40_codec.md R113). -/

namespace Sys2Proof.Machine

theorem runOps_append (l l' : List Instr) (s : State) :
    runOps (l ++ l') s =
      (match runOps l s with
      | .next t => runOps l' t
      | .fault e => .fault e
      | .refused e => .refused e) := by
  induction l generalizing s with
  | nil => rfl
  | cons i l ih =>
    simp only [List.cons_append, runOps]
    cases exec i s with
    | next t => exact ih t
    | fault e => rfl
    | refused e => rfl

theorem runOps_append_next {l l' : List Instr} {s t u : State} (h : runOps l s = .next t)
    (h' : runOps l' t = .next u) : runOps (l ++ l') s = .next u := by
  rw [runOps_append, h]
  exact h'

theorem runOps_cons_next {i : Instr} {l : List Instr} {s u : State} (h : runOps (i :: l) s = .next u) :
    ∃ t, exec i s = .next t ∧ runOps l t = .next u := by
  simp only [runOps] at h
  cases hx : exec i s with
  | next t => rw [hx] at h; exact ⟨t, rfl, h⟩
  | fault e => rw [hx] at h; cases h
  | refused e => rw [hx] at h; cases h

theorem stuff_length (p : Params) (b : Byte) : 1 ≤ (p.stuff b).length ∧ (p.stuff b).length ≤ 2 := by
  unfold Params.stuff
  split <;> simp

theorem stuffAll_append (p : Params) (a b : List Byte) : p.stuffAll (a ++ b) = p.stuffAll a ++ p.stuffAll b := by
  induction a with
  | nil => rfl
  | cons x a ih => simp [Params.stuffAll, ih]

theorem crcFold_append (p : Params) (c : Word) (l l' : List Byte) :
    p.crcFold c (l ++ l') = p.crcFold (p.crcFold c l) l' := by
  induction l generalizing c with
  | nil => rfl
  | cons b l ih => exact ih _

theorem accepted_length_le (f : Nat) (ls : List (List Byte)) : (accepted .dropNewest f ls).length ≤ f := by
  induction ls generalizing f with
  | nil => simp [accepted]
  | cons l ls ih =>
    simp only [accepted]
    split
    · have := ih (f - l.length)
      simp only [List.length_append]
      omega
    · exact ih f

theorem accepted_lap (f : Nat) (ls : List (List Byte)) : accepted .lap f ls = ls.flatten := by
  induction ls with
  | nil => rfl
  | cons l ls ih => simp [accepted, ih]

theorem overflowErrors_lap (f : Nat) (ls : List (List Byte)) : overflowErrors .lap f ls = [] := by
  induction ls with
  | nil => rfl
  | cons l ls ih => simp [overflowErrors, ih]

/-- Lists that all fit are all taken, with no error, under either policy. -/
theorem accepted_fits {pol : OvfPolicy} {free : Nat} {ls : List (List Byte)} (h : ls.flatten.length ≤ free) :
    accepted pol free ls = ls.flatten ∧ overflowErrors pol free ls = [] := by
  cases pol with
  | lap => exact ⟨accepted_lap free ls, overflowErrors_lap free ls⟩
  | dropNewest =>
    induction ls generalizing free with
    | nil => exact ⟨rfl, rfl⟩
    | cons l ls ih =>
      simp only [List.flatten_cons, List.length_append] at h
      have := ih (free := free - l.length) (by omega)
      simp only [accepted, overflowErrors, if_pos (show l.length ≤ free by omega), this, List.flatten_cons, and_self]

/-- An encoder operation in order, with room: its bytes are appended and nothing is recorded. -/
theorem encoded_fits {s : State} {i : Instr} (h : (s.pushes i).flatten.length ≤ s.free) :
    s.encoded i false = { s.appendBytes (s.pushes i).flatten with resp := .nothing } := by
  have := accepted_fits (pol := s.params.policy) h
  simp only [State.encoded, State.appended, State.encoderErrors, this]
  simp only [Bool.false_eq_true, if_false, List.append_nil, recorded_nil]

/-- The content bytes of an open encode, with room: their stuffed form is appended and they are folded. -/
theorem runOps_encBytes (content : List Byte) (s : State) (hw : s.ow < s.params.nOut) (hr : s.or < s.params.nOut)
    (ha : s.encActive = true) (hf : (s.params.stuffAll content).length ≤ s.free)
    (hres : s.resp = .nothing) :
    runOps (content.map Instr.encByte) s =
      .next ((s.appendBytes (s.params.stuffAll content)).setCrc (s.params.crcFold s.outCrc content)) := by
  induction content generalizing s with
  | nil => simp only [List.map_nil, runOps, Params.stuffAll, appendBytes_nil hw, Params.crcFold, State.setCrc]
  | cons b bs ih =>
    simp only [Params.stuffAll, List.length_append] at hf
    have e1 : s.pushes (.encByte b) = [s.params.stuff b] := rfl
    simp only [List.map_cons, runOps, exec_encByte hw hr, ha]
    rw [show (!true) = false from rfl, encoded_fits (by simp [e1]; omega)]
    simp only [e1, List.flatten_cons, List.flatten_nil, List.append_nil]
    have hfl : (s.appendBytes (s.params.stuff b)).free = s.free - (s.params.stuff b).length :=
      free_appendBytes hw hr (by omega)
    refine (ih (s := ({ s.appendBytes (s.params.stuff b) with resp := .nothing } : State).setCrc
      (s.params.crcStep s.outCrc b)) ?_ hr ha ?_ rfl).trans ?_
    · exact appendBytes_ow_lt hw _
    · change (s.params.stuffAll bs).length ≤ (s.appendBytes (s.params.stuff b)).free
      omega
    · have := appendBytes_appendBytes hw (s.params.stuff b) (s.params.stuffAll bs)
      simp only [Params.stuffAll, ← this, Params.crcFold]
      congr 1
      simp only [State.setCrc, State.appendBytes, hres]

end Sys2Proof.Machine
end

