-- ==== Sys2Proof/Laws/Receive.lean ====
section
/-! SUPPORT. What a run of raw bytes inside a frame leaves (42_input.md R171, R174): the logical bytes it stands for are
counted, folded and stored; and that the stuffed form of a byte list stands for that list (30_encoding.md R78). -/

namespace Sys2Proof.Machine

/-- The logical bytes that a list of raw bytes stands for, with the escape flag `e` at its start (R171). -/
def unstuff (p : Params) : Bool → List Byte → List Byte
  | _, [] => []
  | e, r :: rs => if r = p.esc then unstuff p true rs else (if e then r ^^^ p.mask else r) :: unstuff p false rs

/-- The escape flag after a list of raw bytes. -/
def escapingAfter (p : Params) : Bool → List Byte → Bool
  | e, [] => e
  | _, r :: rs => escapingAfter p (r == p.esc) rs

theorem unstuff_append (p : Params) (e : Bool) (a b : List Byte) :
    unstuff p e (a ++ b) = unstuff p e a ++ unstuff p (escapingAfter p e a) b := by
  induction a generalizing e with
  | nil => rfl
  | cons r a ih =>
    by_cases h : r = p.esc
    · simp [unstuff, escapingAfter, h, ih]
    · have hb : (r == p.esc) = false := by simpa using h
      simp [unstuff, escapingAfter, h, hb, ih]

theorem unstuff_stuff {p : Params} (h : p.StuffingLaw) (b : Byte) :
    unstuff p false (p.stuff b) = [b] ∧ escapingAfter p false (p.stuff b) = false := by
  obtain ⟨h1, h2, h3, h4, h5⟩ := h
  unfold Params.stuff
  by_cases hb : b = p.flag ∨ b = p.esc
  · rw [if_pos hb]
    have hne : ¬ b ^^^ p.mask = p.esc := by
      rcases hb with rfl | rfl
      · exact h3
      · exact h5
    simp [unstuff, escapingAfter, hne]
  · rw [if_neg hb]
    have hne : ¬ b = p.esc := fun e => hb (.inr e)
    simp [unstuff, escapingAfter, hne]

/-- The stuffed form of a byte list stands for that list. -/
theorem unstuff_stuffAll {p : Params} (h : p.StuffingLaw) (l : List Byte) :
    unstuff p false (p.stuffAll l) = l ∧ escapingAfter p false (p.stuffAll l) = false := by
  have happ : ∀ (e : Bool) (a b : List Byte), escapingAfter p e (a ++ b) = escapingAfter p (escapingAfter p e a) b := by
    intro e a b
    induction a generalizing e with
    | nil => rfl
    | cons r a ih => exact ih _
  induction l with
  | nil => exact ⟨rfl, rfl⟩
  | cons b l ih =>
    simp only [Params.stuffAll, unstuff_append, happ, unstuff_stuff h, ih, List.singleton_append, and_self]

/-- No stuffed byte is a flag (R13). -/
theorem flag_not_mem_stuff {p : Params} (h : p.StuffingLaw) (b : Byte) : p.flag ∉ p.stuff b := by
  obtain ⟨h1, h2, h3, h4, h5⟩ := h
  unfold Params.stuff
  by_cases hb : b = p.flag ∨ b = p.esc
  · rw [if_pos hb]
    simp only [List.mem_cons, List.not_mem_nil, or_false, not_or]
    refine ⟨h1, fun e => ?_⟩
    rcases hb with rfl | rfl
    · exact h2 e.symm
    · exact h4 e.symm
  · rw [if_neg hb]
    simp only [List.mem_singleton]
    exact fun e => hb (.inl e.symm)

theorem unstuff_length_le (p : Params) (e : Bool) (raw : List Byte) : (unstuff p e raw).length ≤ raw.length := by
  induction raw generalizing e with
  | nil => simp [unstuff]
  | cons r raw ih =>
    simp only [unstuff]
    split
    · have := ih true; simp only [List.length_cons]; omega
    · have := ih false; simp only [List.length_cons]; omega

/-- DecByte with a slot left, of a byte that is not the escape byte. -/
theorem decByte_stored {r : Byte} {s : State} (h : r ≠ s.params.esc) (hf : s.fill < s.params.nIn) :
    decByte r s = { s with
      escaping := false
      ibuf := s.ibuf.write s.fill (s.unescape r)
      fill := s.fill + 1
      inCrc := s.params.crcStep s.inCrc (s.unescape r) } := by
  rw [decByte_other h]
  simp only [if_pos hf]

/-- DecByte with no slot left, of a byte that is not the escape byte. -/
theorem decByte_full {r : Byte} {s : State} (h : r ≠ s.params.esc) (hf : ¬ s.fill < s.params.nIn) :
    decByte r s = { s with
      escaping := false
      fill := s.fill + 1
      inCrc := s.params.crcStep s.inCrc (s.unescape r) } := by
  rw [decByte_other h]
  simp only [if_neg hf]

/-- `s` after the escape byte in the middle of a frame (R171). -/
def State.afterEsc (s : State) : State :=
  { s with escaping := true, lastRx := s.params.esc, resp := .nothing }

/-- `s` after any other byte in the middle of a frame with a slot left (R171). -/
def State.afterByte (s : State) (r : Byte) : State :=
  { s with
    escaping := false
    ibuf := s.ibuf.write s.fill (s.unescape r)
    fill := s.fill + 1
    inCrc := s.params.crcStep s.inCrc (s.unescape r)
    lastRx := r
    resp := .nothing }

theorem exec_esc {s : State} (hh : s.rxHeld = false) (hst : s.rxState = .assembling)
    (hr : s.params.esc ≠ s.params.flag) (hf : s.fill ≤ s.params.nIn) :
    exec (.rxByte s.params.esc) s = .next s.afterEsc := by
  have hd := decByte_esc (respond .nothing s)
  rw [respond_params] at hd
  rw [exec_rxByte hh, receive_inFrame (s := respond .nothing s) hst hr (by rw [hd]; exact hf), hd]
  rfl

theorem exec_stored {r : Byte} {s : State} (hh : s.rxHeld = false) (hst : s.rxState = .assembling)
    (hr : r ≠ s.params.flag) (he : r ≠ s.params.esc) (hf : s.fill < s.params.nIn) :
    exec (.rxByte r) s = .next (s.afterByte r) := by
  have hd := decByte_stored (r := r) (s := respond .nothing s) he hf
  rw [exec_rxByte hh, receive_inFrame (s := respond .nothing s) hst hr (by rw [hd]; exact hf), hd]
  rfl

/-- `t` is what `s`, in the middle of a frame, becomes after the logical bytes `l` have been received, with the escape
flag left at `e`. -/
structure Received (s t : State) (l : List Byte) (e : Bool) : Prop where
  params : t.params = s.params
  held : t.rxHeld = false
  state : t.rxState = .assembling
  escaping : t.escaping = e
  fill : t.fill = s.fill + l.length
  crc : t.inCrc = s.params.crcFold s.inCrc l
  stored : ∀ k b, l[k]? = some b → t.ibufByte (s.fill + k) = b
  before : ∀ a, a < s.fill → t.ibufByte a = s.ibufByte a
  history : t.history = s.history
  errRegs : t.errRegs = s.errRegs

/-- Raw bytes without a flag, in the middle of a frame, with room for what they stand for. -/
theorem runOps_rxRaw (raw : List Byte) (s : State) (hh : s.rxHeld = false) (hst : s.rxState = .assembling)
    (hfl : s.params.flag ∉ raw) (hf : s.fill + (unstuff s.params s.escaping raw).length ≤ s.params.nIn) :
    ∃ t, runOps (rxRaw raw) s = .next t ∧
      Received s t (unstuff s.params s.escaping raw) (escapingAfter s.params s.escaping raw) := by
  induction raw generalizing s with
  | nil =>
    exact ⟨s, rfl, rfl, hh, hst, rfl, rfl, rfl, fun k b h => by simp [unstuff] at h, fun _ _ => rfl, rfl, rfl⟩
  | cons r raw ih =>
    have hr : r ≠ s.params.flag := fun e => hfl (by simp [e])
    have hfl' : s.params.flag ∉ raw := fun e => hfl (List.mem_cons_of_mem _ e)
    by_cases he : r = s.params.esc
    · subst he
      simp only [unstuff, if_true] at hf
      obtain ⟨t, ht, R⟩ := ih s.afterEsc hh hst hfl' hf
      refine ⟨t, ?_, ?_⟩
      · simp only [rxRaw, List.map_cons, runOps, exec_esc hh hst hr (Nat.le_trans (Nat.le_add_right _ _) hf)]
        exact ht
      · simp only [unstuff, if_true, escapingAfter, beq_self_eq_true]
        exact ⟨R.params, R.held, R.state, R.escaping, R.fill, R.crc, R.stored,
          fun a ha => (R.before a ha).trans (ibufByte_congr rfl rfl a), R.history, R.errRegs⟩
    · have hu : unstuff s.params s.escaping (r :: raw) = s.unescape r :: unstuff s.params false raw := by
        simp only [unstuff, if_neg he]
        rfl
      have hb : (r == s.params.esc) = false := by simpa using he
      rw [hu, List.length_cons] at hf
      have hlt : s.fill < s.params.nIn := by omega
      obtain ⟨t, ht, R⟩ := ih (s.afterByte r) hh hst hfl'
        (by change s.fill + 1 + (unstuff s.params false raw).length ≤ s.params.nIn; omega)
      refine ⟨t, by simp only [rxRaw, List.map_cons, runOps, exec_stored hh hst hr he hlt]; exact ht, ?_⟩
      rw [hu, escapingAfter, hb]
      refine ⟨R.params, R.held, R.state, R.escaping, ?_, R.crc, ?_, ?_, R.history, R.errRegs⟩
      · have h1 : t.fill = s.fill + 1 + (unstuff s.params false raw).length := R.fill
        simp only [List.length_cons]
        omega
      · intro k b hk
        cases k with
        | zero =>
          have hk : s.unescape r = b := by simpa using hk
          rw [Nat.add_zero, R.before s.fill (Nat.lt_succ_self _), ← hk]
          exact ibufByte_write_same (s := s) rfl
        | succ k =>
          have h1 : t.ibufByte (s.fill + 1 + k) = b := R.stored k b (by rwa [List.getElem?_cons_succ] at hk)
          rw [← h1]
          congr 1
          omega
      · intro a ha
        rw [R.before a (Nat.lt_succ_of_lt ha)]
        exact ibufByte_write_other (s := s) rfl rfl (by omega)

/-- The first byte of a frame acts as a byte in the middle of an empty one. -/
theorem exec_start {r : Byte} {s : State} (hh : s.rxHeld = false) (hst : s.rxState = .wait)
    (h1 : s.lastRx = s.params.flag) (h2 : r ≠ s.params.flag) (hn : 1 ≤ s.params.nIn) :
    exec (.rxByte r) s = exec (.rxByte r) s.opened := by
  have hd : (decByte r (respond .nothing s).opened).fill ≤ s.params.nIn := by
    by_cases he : r = s.params.esc
    · have := decByte_esc (respond .nothing s).opened
      rw [show (respond .nothing s).opened.params.esc = r from he.symm] at this
      rw [this]
      exact Nat.zero_le _
    · rw [decByte_stored (s := (respond .nothing s).opened) he hn]
      exact hn
  rw [exec_rxByte hh, receive_start (s := respond .nothing s) hst h1 h2, exec_rxByte (s := s.opened) hh,
    receive_inFrame (s := respond .nothing s.opened) rfl h2 hd]
  rfl

/-- A flag while waiting is only recorded. -/
theorem exec_flag_waiting {s : State} (hh : s.rxHeld = false) (hst : s.rxState = .wait) :
    exec (.rxByte s.params.flag) s = .next { respond .nothing s with lastRx := s.params.flag } := by
  rw [exec_rxByte hh, receive_ignored (r := s.params.flag) (s := respond .nothing s) hst (fun h => h.2 rfl)]
  rfl

/-- A flag and then raw bytes, from WAIT: a frame of the logical bytes they stand for is in the middle. -/
theorem runOps_flag_rxRaw (raw : List Byte) (s : State) (hh : s.rxHeld = false) (hst : s.rxState = .wait)
    (hne : raw ≠ []) (hfl : s.params.flag ∉ raw) (hn : 1 ≤ s.params.nIn)
    (hf : (unstuff s.params false raw).length ≤ s.params.nIn) :
    ∃ t, runOps (rxRaw (s.params.flag :: raw)) s = .next t ∧
      Received s.opened t (unstuff s.params false raw) (escapingAfter s.params false raw) := by
  obtain ⟨r, raw, rfl⟩ := List.exists_cons_of_ne_nil hne
  have hr : r ≠ s.params.flag := fun e => hfl (by simp [e])
  obtain ⟨t, ht, R⟩ := runOps_rxRaw (r :: raw) ({ respond .nothing s with lastRx := s.params.flag } : State).opened hh rfl hfl
    (by simpa [State.opened] using hf)
  refine ⟨t, ?_, R.params, R.held, R.state, R.escaping, R.fill, R.crc, R.stored,
    fun a ha => absurd ha (Nat.not_lt_zero a), R.history, R.errRegs⟩
  simp only [rxRaw, List.map_cons, runOps, exec_flag_waiting hh hst]
  have hs := exec_start (r := r) (s := { respond .nothing s with lastRx := s.params.flag }) hh hst rfl hr hn
  rw [hs]
  exact ht

end Sys2Proof.Machine
end

