-- ==== Sys2Proof/Laws/Codec.lean ====
section
/-! SUPPORT. The default CRC (40_codec.md R100): it is linear over XOR, its step is injective in the CRC, and the last
two bytes of a frame bring any CRC to one value (00_scope.md R12). -/

namespace Sys2Proof

theorem fcsBit_xor (x y : Word) : fcsBit (x ^^^ y) = fcsBit x ^^^ fcsBit y := by
  unfold fcsBit
  rw [BitVec.getLsbD_xor, BitVec.ushiftRight_xor_distrib]
  cases x.getLsbD 0 <;> cases y.getLsbD 0 <;> simp
  · rw [BitVec.xor_assoc]
  · rw [BitVec.xor_assoc, BitVec.xor_assoc, BitVec.xor_comm (y >>> 1)]
  · rw [BitVec.xor_assoc, BitVec.xor_comm 33800#16, BitVec.xor_assoc, BitVec.xor_self, BitVec.xor_zero]

theorem fcsBits_xor (n : Nat) (x y : Word) : fcsBits n (x ^^^ y) = fcsBits n x ^^^ fcsBits n y := by
  induction n generalizing x y with
  | zero => rfl
  | succ n ih => simp only [fcsBits, fcsBit_xor, ih]

/-- The step is a function of the CRC with the byte folded into its low half. -/
theorem fcs16Step_eq (c : Word) (b : Byte) : fcs16Step c b = fcsBits 8 c ^^^ fcsBits 8 (b.setWidth 16) := by
  rw [fcs16Step, fcsBits_xor]

/-- One bit of the FCS loses nothing: the bit shifted out is bit 15 of the result. -/
theorem fcsBit_eq_zero {x : Word} (h : fcsBit x = 0#16) : x = 0#16 := by
  unfold fcsBit at h
  split at h
  · exfalso
    have := congrArg (fun v => BitVec.getLsbD v 15) h
    simp at this
  · rename_i h0
    have h0 : x.getLsbD 0 = false := by simpa using h0
    apply BitVec.eq_of_getLsbD_eq
    intro i hi
    cases i with
    | zero => rw [h0]; simp
    | succ i =>
      have := congrArg (fun v => BitVec.getLsbD v i) h
      simp only [BitVec.getLsbD_ushiftRight, BitVec.getLsbD_zero] at this
      rw [Nat.add_comm 1 i] at this
      rw [this]
      simp

theorem fcsBits_eq_zero {n : Nat} {x : Word} (h : fcsBits n x = 0#16) : x = 0#16 := by
  induction n generalizing x with
  | zero => exact h
  | succ n ih => exact fcsBit_eq_zero (ih h)

theorem fcsBits_injective {n : Nat} {x y : Word} (h : fcsBits n x = fcsBits n y) : x = y := by
  have h0 : fcsBits n (x ^^^ y) = 0#16 := by rw [fcsBits_xor, h, BitVec.xor_self]
  exact BitVec.xor_eq_zero_iff.1 (fcsBits_eq_zero h0)

/-- The step of one byte is injective in the CRC. -/
theorem fcs16Step_injective {c c' : Word} {b : Byte} (h : fcs16Step c b = fcs16Step c' b) : c = c' := by
  have := fcsBits_injective h
  calc c = (c ^^^ b.setWidth 16) ^^^ b.setWidth 16 := by rw [BitVec.xor_assoc, BitVec.xor_self, BitVec.xor_zero]
    _ = (c' ^^^ b.setWidth 16) ^^^ b.setWidth 16 := by rw [this]
    _ = c' := by rw [BitVec.xor_assoc, BitVec.xor_self, BitVec.xor_zero]

/-- A fold of the default CRC is injective in the CRC it starts from. -/
theorem crcFold_injective {p : Params} (hp : p.crcAlg = .fcs16) {c c' : Word} {l : List Byte}
    (h : p.crcFold c l = p.crcFold c' l) : c = c' := by
  induction l generalizing c c' with
  | nil => exact h
  | cons b l ih =>
    have := ih h
    simp only [Params.crcStep, hp] at this
    exact fcs16Step_injective this

theorem setWidth_injective {b b' : Byte} (h : b.setWidth 16 = b'.setWidth 16) : b = b' := by
  have := congrArg (BitVec.setWidth 8) h
  simpa using this

/-- Two streams that differ in one byte, at one place, leave different default CRCs. -/
theorem crcFold_ne {p : Params} (hp : p.crcAlg = .fcs16) (c : Word) (before after : List Byte) {b b' : Byte}
    (h : b ≠ b') : p.crcFold c (before ++ b :: after) ≠ p.crcFold c (before ++ b' :: after) := by
  intro e
  rw [Machine.crcFold_append, Machine.crcFold_append, Params.crcFold, Params.crcFold] at e
  have e := crcFold_injective hp e
  simp only [Params.crcStep, hp, fcs16Step] at e
  have e := fcsBits_injective e
  exact h (setWidth_injective ((BitVec.xor_right_inj _).1 e))

end Sys2Proof
end

