-- ==== Sys2Proof/Laws/Decode.lean ====
section
/-! SUPPORT. The fields of an operation word and of a concatenation (30_encoding.md R71), and the opcode map read in
both directions (R72). -/

namespace Sys2Proof

theorem opField_append (a b : Byte) : opField (a ++ b) = a := by
  unfold opField
  apply BitVec.eq_of_getLsbD_eq
  intro i hi
  simp only [BitVec.getLsbD_extractLsb', hi, BitVec.getLsbD_append]
  simp

theorem dataField_append (a b : Byte) : dataField (a ++ b) = b := by
  unfold dataField
  apply BitVec.eq_of_getLsbD_eq
  intro i hi
  simp only [BitVec.getLsbD_extractLsb', hi, BitVec.getLsbD_append]
  simp [hi]

/-- A word is its two fields. -/
theorem fields_append (w : Word) : opField w ++ dataField w = w := by
  unfold opField dataField
  apply BitVec.eq_of_getLsbD_eq
  intro i hi
  simp only [BitVec.getLsbD_extractLsb', BitVec.getLsbD_append]
  by_cases h : i < 8
  · simp [h]
  · have e : 8 + (i - 8) = i := by omega
    have h' : i - 8 < 8 := by omega
    simp [h, e, h']

theorem opField_encode (i : Instr) : opField (encode i) = i.opcode := opField_append _ _

theorem dataField_encode (i : Instr) : dataField (encode i) = i.data := dataField_append _ _

theorem decodeWord_encode (i : Instr) : decodeWord (encode i) = some i := by
  unfold decodeWord
  rw [opField_encode, dataField_encode]
  cases i <;> rfl

theorem encode_of_decodeWord {w : Word} {i : Instr} (h : decodeWord w = some i) : encode i = w := by
  have hw := fields_append w
  unfold decodeWord at h
  split at h
  case h_19 => cases h
  all_goals
    rename_i ho
    rw [← Option.some.inj h]
    refine Eq.trans ?_ hw
    simp only [encode, Instr.opcode, Instr.data]
    congr 1
    apply BitVec.eq_of_toNat_eq
    rw [ho]
    rfl

end Sys2Proof
end

