-- ==== Sys2Proof/Laws/PerInstr.lean ====
section
/-! SUPPORT. Statements made per operation, one lemma per constructor of Instr. -/

namespace Sys2Proof.Laws

/-- The fields of an operation's word (30_encoding.md R71): bits 15:8 are its opcode, bits 7:0 its data, and the opcode
map reads the operation back from it (R72). -/
def EncodeFields.Statement (i : Instr) : Prop :=
  opField (encode i) = i.opcode ∧ dataField (encode i) = i.data ∧ decodeWord (encode i) = some i

theorem EncodeFields.nop (d : Byte) : EncodeFields.Statement (.nop d) :=
  ⟨opField_encode _, dataField_encode _, decodeWord_encode _⟩

theorem EncodeFields.encOpen (d : Byte) : EncodeFields.Statement (.encOpen d) :=
  ⟨opField_encode _, dataField_encode _, decodeWord_encode _⟩

theorem EncodeFields.encByte (d : Byte) : EncodeFields.Statement (.encByte d) :=
  ⟨opField_encode _, dataField_encode _, decodeWord_encode _⟩

theorem EncodeFields.encClose (d : Byte) : EncodeFields.Statement (.encClose d) :=
  ⟨opField_encode _, dataField_encode _, decodeWord_encode _⟩

theorem EncodeFields.flush (d : Byte) : EncodeFields.Statement (.flush d) :=
  ⟨opField_encode _, dataField_encode _, decodeWord_encode _⟩

theorem EncodeFields.inhibitStart (d : Byte) : EncodeFields.Statement (.inhibitStart d) :=
  ⟨opField_encode _, dataField_encode _, decodeWord_encode _⟩

theorem EncodeFields.inhibitStop (d : Byte) : EncodeFields.Statement (.inhibitStop d) :=
  ⟨opField_encode _, dataField_encode _, decodeWord_encode _⟩

theorem EncodeFields.inRead (d : Byte) : EncodeFields.Statement (.inRead d) :=
  ⟨opField_encode _, dataField_encode _, decodeWord_encode _⟩

theorem EncodeFields.frameRelease (d : Byte) : EncodeFields.Statement (.frameRelease d) :=
  ⟨opField_encode _, dataField_encode _, decodeWord_encode _⟩

theorem EncodeFields.outStatus (d : Byte) : EncodeFields.Statement (.outStatus d) :=
  ⟨opField_encode _, dataField_encode _, decodeWord_encode _⟩

theorem EncodeFields.inStatus (d : Byte) : EncodeFields.Statement (.inStatus d) :=
  ⟨opField_encode _, dataField_encode _, decodeWord_encode _⟩

theorem EncodeFields.errStatus (d : Byte) : EncodeFields.Statement (.errStatus d) :=
  ⟨opField_encode _, dataField_encode _, decodeWord_encode _⟩

theorem EncodeFields.errArgs (d : Byte) : EncodeFields.Statement (.errArgs d) :=
  ⟨opField_encode _, dataField_encode _, decodeWord_encode _⟩

theorem EncodeFields.crcStatus (d : Byte) : EncodeFields.Statement (.crcStatus d) :=
  ⟨opField_encode _, dataField_encode _, decodeWord_encode _⟩

theorem EncodeFields.errClear (d : Byte) : EncodeFields.Statement (.errClear d) :=
  ⟨opField_encode _, dataField_encode _, decodeWord_encode _⟩

theorem EncodeFields.init (d : Byte) : EncodeFields.Statement (.init d) :=
  ⟨opField_encode _, dataField_encode _, decodeWord_encode _⟩

theorem EncodeFields.rxByte (d : Byte) : EncodeFields.Statement (.rxByte d) :=
  ⟨opField_encode _, dataField_encode _, decodeWord_encode _⟩

theorem EncodeFields.txReady (d : Byte) : EncodeFields.Statement (.txReady d) :=
  ⟨opField_encode _, dataField_encode _, decodeWord_encode _⟩

end Sys2Proof.Laws
end

