-- ==== Sys2Proof/Laws/Step.lean ====
section
/-! SUPPORT. Taking an arrival (60_exceptions.md R225, R233; 42_input.md R179) and a step (20_memory.md R52). -/

namespace Sys2Proof.Machine

/-- An enabled arrival at the head is the one taken. -/
theorem takeEnabled_head {held : Bool} {a : Arrival} {rest : List Arrival}
    (h : held = false ∨ a.isReceive = false) : takeEnabled held (a :: rest) = some (a, rest) := by
  rw [takeEnabled]
  rcases h with h | h <;> simp [h]

/-- With nothing held the head is taken. -/
theorem takeEnabled_false (as : List Arrival) :
    takeEnabled false as = (match as with | [] => none | a :: rest => some (a, rest)) := by
  cases as <;> rfl

theorem isReceive_ofInstr (i : Instr) : (Arrival.ofInstr i).isReceive = true ↔ ∃ r, i = .rxByte r := by
  cases i <;> simp [Arrival.ofInstr, Arrival.isReceive, Instr.port, opField_encode, Instr.opcode]

/-- Held raw bytes are stepped over, and stay where they are. -/
theorem takeEnabled_held (held : List Byte) (as : List Arrival) :
    takeEnabled true (held.map (fun r => Arrival.ofInstr (.rxByte r)) ++ as) =
      (takeEnabled true as).map fun x => (x.1, held.map (fun r => Arrival.ofInstr (.rxByte r)) ++ x.2) := by
  induction held with
  | nil => simp
  | cons r held ih =>
    have h : (Arrival.ofInstr (.rxByte r)).isReceive = true := (isReceive_ofInstr _).2 ⟨r, rfl⟩
    simp only [List.map_cons, List.cons_append, takeEnabled, h, ih]
    cases takeEnabled true as <;> rfl

/-- The four ways a step can go. -/
theorem step_cases (s : State) :
    (takeEnabled s.rxHeld s.arrivals = none ∧ step s = .next s) ∨
    (∃ rest, takeEnabled s.rxHeld s.arrivals = some (.systemReset, rest) ∧
      step s = .next (systemReset { s with arrivals := rest })) ∨
    (∃ p w rest, takeEnabled s.rxHeld s.arrivals = some (.word p w, rest) ∧ decode p w = none ∧
      step s = .next (illegalWord w { s with arrivals := rest })) ∨
    (∃ p w rest i, takeEnabled s.rxHeld s.arrivals = some (.word p w, rest) ∧ decode p w = some i ∧
      step s = exec i { s with arrivals := rest }) := by
  unfold step
  cases h : takeEnabled s.rxHeld s.arrivals with
  | none => exact .inl ⟨rfl, rfl⟩
  | some x =>
    obtain ⟨a, rest⟩ := x
    cases a with
    | systemReset => exact .inr (.inl ⟨rest, rfl, rfl⟩)
    | word p w =>
      cases hd : decode p w with
      | none => exact .inr (.inr (.inl ⟨p, w, rest, rfl, hd, by simp [arrive, hd]⟩))
      | some i => exact .inr (.inr (.inr ⟨p, w, rest, i, rfl, hd, by simp [arrive, hd]⟩))

end Sys2Proof.Machine
end

