-- ==== Sys2Proof/Tests/Slice0.lean ====
section
/-! SUPPORT. The model's own tests. Part 1: what the checks of WellFormed refuse. Part 2: words written out from the
opcode table of 30_encoding.md R72. Part 3: one step of each operation, with the values that the spec's examples and
vectors give. Part 4: for every obligation with hypotheses, states and operands that meet all of them. -/

open Sys2Proof Sys2Proof.Machine

/-! ### Part 1: ill-formed terms (00_scope.md R7, R13; 30_encoding.md R75) -/

/-- The defaults meet every constraint. -/
theorem test_wf_defaults : Params.default.WellFormed ∧ Params.default.StuffingLaw := by decide

/-- Constraint of R7: FLAG differs from ESC. -/
theorem test_wf_flag_is_esc : ¬ ({ Params.default with esc := 0x7E#8 } : Params).WellFormed := by decide

/-- Constraint of R7: MASK is not 0. -/
theorem test_wf_mask_zero : ¬ ({ Params.default with mask := 0x00#8 } : Params).WellFormed := by decide

/-- Constraint of R7: MASK is not FLAG XOR ESC, 0x03 for the defaults. -/
theorem test_wf_mask_swaps : ¬ ({ Params.default with mask := 0x03#8 } : Params).WellFormed := by decide

/-- Constraint of R7: N_OUT is 2 to 256. -/
theorem test_wf_nOut : ¬ ({ Params.default with nOut := 1 } : Params).WellFormed ∧
    ¬ ({ Params.default with nOut := 257 } : Params).WellFormed ∧
    ({ Params.default with nOut := 2 } : Params).WellFormed := by decide

/-- Constraint of R7: N_IN is 3 to 255. -/
theorem test_wf_nIn : ¬ ({ Params.default with nIn := 2 } : Params).WellFormed ∧
    ¬ ({ Params.default with nIn := 256 } : Params).WellFormed ∧
    ({ Params.default with nIn := 3 } : Params).WellFormed := by decide

/-- The stuffing law of R13 fails for a mask that maps FLAG to ESC. -/
theorem test_stuffing_law : ¬ ({ Params.default with mask := 0x03#8 } : Params).StuffingLaw := by decide

/-- An operation is ill formed at the other port (R75). -/
theorem test_wf_port : (Instr.rxByte 0x7E#8).wellFormedAt .sw = false ∧
    (Instr.flush 0x00#8).wellFormedAt .link = false ∧ (Instr.txReady 0x00#8).wellFormedAt .link = true := by decide

/-! ### Part 2: decoding, the words written out from R72 and R81 -/

/-- Bits 15:8 of ENC_BYTE 0x41 are 0000 0010 and bits 7:0 are 0100 0001 (R72, R81). -/
theorem test_decode_encByte : decode .sw 0b0000001001000001#16 = some (.encByte 0x41#8) ∧
    encode (.encByte 0x41#8) = 0x0241#16 := by decide

/-- RX_BYTE 0x7E at the LINK port (R72, R81). -/
theorem test_decode_rxByte : decode .link 0b0100000001111110#16 = some (.rxByte 0x7E#8) ∧
    decode .link 0x407E#16 = some (.rxByte 0x7E#8) := by decide

/-- The encoder family of R72. -/
theorem test_decode_encoder : decode .sw 0x0100#16 = some (.encOpen 0x00#8) ∧
    decode .sw 0x0300#16 = some (.encClose 0x00#8) ∧ decode .sw 0x01FF#16 = some (.encOpen 0xFF#8) := by decide

/-- The output flow family of R72. -/
theorem test_decode_flow : decode .sw 0x0400#16 = some (.flush 0x00#8) ∧
    decode .sw 0x0500#16 = some (.inhibitStart 0x00#8) ∧ decode .sw 0x0600#16 = some (.inhibitStop 0x00#8) ∧
    decode .link 0x4100#16 = some (.txReady 0x00#8) := by decide

/-- The input family of R72. -/
theorem test_decode_input : decode .sw 0x1002#16 = some (.inRead 0x02#8) ∧
    decode .sw 0x1100#16 = some (.frameRelease 0x00#8) := by decide

/-- The control family of R72. -/
theorem test_decode_control : decode .sw 0x0000#16 = some (.nop 0x00#8) ∧
    decode .sw 0x2000#16 = some (.outStatus 0x00#8) ∧ decode .sw 0x2100#16 = some (.inStatus 0x00#8) ∧
    decode .sw 0x2200#16 = some (.errStatus 0x00#8) ∧ decode .sw 0x2300#16 = some (.errArgs 0x00#8) ∧
    decode .sw 0x2400#16 = some (.crcStatus 0x00#8) ∧ decode .sw 0x2501#16 = some (.errClear 0x01#8) ∧
    decode .sw 0x2F00#16 = some (.init 0x00#8) := by decide

/-- Illegal words (R75; 43_control.md R208 and V-CTL-4): an opcode outside the table, and each port's words at the
other port. -/
theorem test_decode_illegal : decode .sw 0x0700#16 = none ∧ decode .sw 0x4041#16 = none ∧
    decode .sw 0x4100#16 = none ∧ decode .link 0x0000#16 = none ∧ decode .link 0x4200#16 = none ∧
    decode .sw 0xFF00#16 = none := by decide

/-- The assembler lines of R81. -/
theorem test_assemble : assemble none .encByte (some 0x41#8) = some (.sw, 0x0241#16) ∧
    assemble (some .link) .rxByte (some 0x7E#8) = some (.link, 0x407E#16) ∧
    assemble none .init none = some (.sw, 0x2F00#16) ∧ assemble none .encByte none = none ∧
    assemble none .flush (some 0x00#8) = none := by decide

/-- The opcode table's bit numbers. -/
theorem test_decodeTableWord : decodeTableWord 16 0x4041 = some (.rxByte 0x41#8) ∧
    decodeTableWord 16 0x2F00 = some (.init 0x00#8) ∧ decodeTableWord 16 0x0700 = none := by decide

/-- R71, "There is no other length": neither 8 nor 17 bits are an operation word, and nothing arrives. -/
theorem test_operationWord_length : decodeTableWord 8 0x41 = none ∧ decodeTableWord 17 0x10041 = none ∧
    State.reset.withFetchWord 8 0x41 = State.reset ∧ State.reset.withFetchWord 16 0x14041 = State.reset := by decide

/-! ### Part 3: one step of each operation -/

/-- The next state of an outcome, if there is one. -/
def tNext (o : Host.Outcome State Fault Refusal) : Option State :=
  match o with
  | .next t => some t
  | .fault _ => none
  | .refused _ => none

/-- Reset with small buffers. -/
def tSmall : State := State.resetWith { Params.default with nOut := 8, nIn := 8 }

/-- The pending bytes `7E 41 F5 A3 7E` of the example of R143. -/
def tPending : State :=
  { tSmall with obuf := [(0, 0x7E#8), (1, 0x41#8), (2, 0xF5#8), (3, 0xA3#8), (4, 0x7E#8)], ow := 5 }

/-- The same with the first byte in flight. -/
def tDraining : State := { tPending with or := 1, draining := true, linkByte := some 0x7E#8 }

/-- The frame `53 41 42` held in the dispatch window (V-RD-4). -/
def tHeld : State :=
  { tSmall with ibuf := [(0, 0x53#8), (1, 0x41#8), (2, 0x42#8)], fill := 3, rxHeld := true, lastRx := 0x7E#8 }

/-- `7E 41 F5 A3` received: the frame of V-RX-1 before its closing flag. -/
def tOpen : State :=
  { tSmall with
    ibuf := [(0, 0x41#8), (1, 0xF5#8), (2, 0xA3#8)], fill := 3, rxState := .assembling, lastRx := 0xA3#8,
    inCrc := 0xF0B8#16 }

/-- The spec's example of R200 and V-CTL-2. -/
theorem test_nop : tNext (exec (.nop 0x00#8) State.reset) = some State.reset := by decide

/-- V-ENC-9, first step; the word 0x0100 arriving at the SW port. -/
theorem test_encOpen :
    (tNext (step (State.reset.withFetchWord 16 0x0100))).map (fun t => (t.pending, t.ow, t.outCrc, t.encActive)) =
      some ([0x7E#8], 1, 0xFFFF#16, true) := by decide

/-- V-ENC-11: ENC_OPEN with an encode open. -/
theorem test_encOpen_again :
    (tNext (exec (.encOpen 0x00#8) { tSmall with encActive := true })).map (fun t => (t.history, t.errSticky)) =
      some ([.reset, .err .seq 0x0100#16 0x0000#16], 0x10#8) := by decide

/-- V-ENC-9, second step: the stuffed flag and the CRC of V-CRC-3. -/
theorem test_encByte :
    (tNext (exec (.encByte 0x7E#8) { tSmall with obuf := [(0, 0x7E#8)], ow := 1, encActive := true })).map
        (fun t => (t.pending, t.ow, t.outCrc)) =
      some ([0x7E#8, 0x7D#8, 0x5E#8], 3, 0x957E#16) := by decide +kernel

/-- V-ENC-10: ENC_BYTE 0x41 from reset. -/
theorem test_encByte_unopened :
    (tNext (exec (.encByte 0x41#8) State.reset)).map (fun t => (t.pending, t.outCrc, t.history, t.encActive)) =
      some ([0x41#8], 0x5C0A#16, [.reset, .err .seq 0x0241#16 0x0000#16], false) := by decide +kernel

/-- V-ENC-2, last step: ENC_CLOSE after content 0x41. -/
theorem test_encClose :
    (tNext (exec (.encClose 0x00#8)
        { tSmall with obuf := [(0, 0x7E#8), (1, 0x41#8)], ow := 2, encActive := true, outCrc := 0x5C0A#16 })).map
        (fun t => (t.pending, t.ow, t.outCrc, t.encActive)) =
      some ([0x7E#8, 0x41#8, 0xF5#8, 0xA3#8, 0x7E#8], 5, 0xF0B8#16, false) := by decide +kernel

/-- V-ENC-13, last step: ENC_CLOSE on a full buffer raises three overflow errors. -/
theorem test_encClose_full :
    (tNext (exec (.encClose 0x00#8)
        { tSmall with ow := 7, encActive := true, outCrc := ~~~0xA622#16 })).map (fun t => (t.ow, t.outCrc, t.history)) =
      some (7, 0xF0B8#16, [.reset, .err .outOverflow 0x0001#16 0x0000#16, .err .outOverflow 0x0001#16 0x0000#16,
        .err .outOverflow 0x0001#16 0x0000#16]) := by decide +kernel

/-- The example of R143. -/
theorem test_flush :
    (tNext (exec (.flush 0x00#8) tPending)).map (fun t => (t.history, t.or, t.draining, t.pending)) =
      some ([.reset, .tx 0x7E#8], 1, true, [0x41#8, 0xF5#8, 0xA3#8, 0x7E#8]) := by decide

/-- V-OUT-1 and V-OUT-3: FLUSH with nothing to send, and while draining. -/
theorem test_flush_idle : tNext (exec (.flush 0x00#8) tSmall) = some tSmall ∧
    tNext (exec (.flush 0x00#8) tDraining) = some tDraining := by decide

/-- The example of R145. -/
theorem test_inhibitStart :
    (tNext (exec (.inhibitStart 0x00#8) tSmall)).map (fun t => (t.inhibited, t.sigChanged, t.fcOut, t.history)) =
      some (true, false, false, [.reset, .fc false]) := by decide

/-- V-OUT-5, first step: INHIBIT_START with a byte in flight. -/
theorem test_inhibitStart_draining :
    (tNext (exec (.inhibitStart 0x00#8) tDraining)).map (fun t => (t.inhibited, t.sigChanged, t.fcOut, t.history)) =
      some (true, true, true, [.reset]) := by decide

/-- The example of R146; V-OUT-4: no byte is sent by the flush inside INHIBIT_STOP. -/
theorem test_inhibitStop :
    (tNext (exec (.inhibitStop 0x00#8) { tPending with inhibited := true, fcOut := false })).map
        (fun t => (t.inhibited, t.sigChanged, t.fcOut, t.draining, t.history)) =
      some (false, false, true, false, [.reset, .fc true]) := by decide

/-- V-RD-5: IN_READ 2 of the held frame. -/
theorem test_inRead : (tNext (exec (.inRead 0x02#8) tHeld)).map (fun t => (t.resp, t.history)) =
    some (.bytes [0x41#8, 0x42#8], [.reset]) := by decide

/-- V-RD-6: IN_READ 3 of the same frame. -/
theorem test_inRead_tooLarge :
    (tNext (exec (.inRead 0x03#8) tHeld)).map (fun t => (t.resp, t.history, t.errStatusWord, t.errArgsWord)) =
      some (.bytes [], [.reset, .err .rdTooLarge 0x0003#16 0x0002#16], 0x00000304#32, 0x00020003#32) := by decide

/-- V-RD-3: FRAME_RELEASE of a held frame. -/
theorem test_frameRelease : (tNext (exec (.frameRelease 0x00#8) tHeld)).map (fun t => (t.fill, t.rxHeld, t.history)) =
    some (0, false, [.reset]) := by decide

/-- V-RD-7: FRAME_RELEASE with nothing held. -/
theorem test_frameRelease_none :
    (tNext (exec (.frameRelease 0x00#8) State.reset)).map (fun t => (t.history, t.errSticky)) =
      some ([.reset, .err .seq 0x1100#16 0x0000#16], 0x10#8) := by decide

/-- V-CTL-1 and V-OUT-2: OUT_STATUS after reset and while draining. -/
theorem test_outStatus :
    (tNext (exec (.outStatus 0x00#8) State.reset)).map (·.resp) = some (.word 0x00000011#32) ∧
    (tNext (exec (.outStatus 0x00#8) tDraining)).map (·.resp) = some (.word 0x01050412#32) := by decide

/-- V-CTL-1 and V-RD-4: IN_STATUS after reset and in the dispatch window. -/
theorem test_inStatus :
    (tNext (exec (.inStatus 0x00#8) State.reset)).map (·.resp) = some (.word 0x007E0000#32) ∧
    (tNext (exec (.inStatus 0x00#8) tHeld)).map (·.resp) = some (.word 0x537E0304#32) := by decide

/-- V-CTL-1 and the example of R203. -/
theorem test_errStatus :
    (tNext (exec (.errStatus 0x00#8) State.reset)).map (·.resp) = some (.word 0x00000000#32) ∧
    (tNext (exec (.errStatus 0x00#8) (raise .inOverflow 0x0000#16 0x0000#16 State.reset))).map (·.resp) =
      some (.word 0x00000101#32) := by decide

/-- The example of R204. -/
theorem test_errArgs :
    (tNext (exec (.errArgs 0x00#8) (raise .rdTooLarge 0x0005#16 0x0002#16 State.reset))).map (·.resp) =
      some (.word 0x00020005#32) := by decide

/-- V-CTL-1 and V-RX-18: CRC_STATUS after reset and with a frame open. -/
theorem test_crcStatus :
    (tNext (exec (.crcStatus 0x00#8) State.reset)).map (·.resp) = some (.word 0xFFFFFFFF#32) ∧
    (tNext (exec (.crcStatus 0x00#8) { tSmall with inCrc := 0x5C0A#16 })).map (·.resp) =
      some (.word 0x5C0AFFFF#32) := by decide

/-- The example of R206; bits 7:6 of the mask have no effect. -/
theorem test_errClear :
    (tNext (exec (.errClear 0x01#8) { tSmall with errSticky := 0x05#8 })).map (·.errSticky) = some 0x04#8 ∧
    (tNext (exec (.errClear 0xC0#8) { tSmall with errSticky := 0x3F#8 })).map (·.errSticky) = some 0x3F#8 := by decide

/-- The example of R207: INIT, after any history, then OUT_STATUS. -/
theorem test_init :
    (tNext (exec (.init 0x00#8) { tPending with inhibited := true, errCode := 0x05#8 })).map
        (fun t => (t.outStatusWord, t.errCode, t.history, t.draws)) =
      some (0x00000011#32, 0x00#8, [.reset, .reset], 1) := by decide

/-- V-RX-1, last byte: the closing flag of a good frame. -/
theorem test_rxByte_dispatch :
    (tNext (step (tOpen.withFetchWord 16 0x407E))).map
        (fun t => (t.history, t.rxHeld, t.fill, t.rxState, t.lastRx)) =
      some ([.reset, .frame 1 [0x41#8]], true, 1, .wait, 0x7E#8) := by decide

/-- V-RX-5, the byte `09`: the ninth logical byte with `N_IN` = 8. -/
theorem test_rxByte_overflow :
    (tNext (exec (.rxByte 0x09#8) { tSmall with rxState := .assembling, fill := 8, lastRx := 0x08#8 })).map
        (fun t => (t.history, t.fill, t.rxState, t.lastRx, t.errSticky)) =
      some ([.reset, .err .inOverflow 0x0000#16 0x0000#16], 0, .wait, 0x09#8, 0x01#8) := by decide

/-- V-OUT-3: TX_READY submits the next byte, and the byte in flight reaches the HOST (60_exceptions.md R231). -/
theorem test_txReady :
    (tNext (exec (.txReady 0x00#8) tDraining)).map (fun t => (t.history, t.or, t.draining, t.linkByte, t.hostGot)) =
      some ([.reset, .tx 0x41#8], 2, true, some 0x41#8, [0x7E#8]) := by decide

/-- V-OUT-6, last step: the line is re-asserted before the next byte. -/
theorem test_txReady_line :
    (tNext (exec (.txReady 0x00#8) { tDraining with sigChanged := true })).map
        (fun t => (t.history, t.sigChanged, t.fcOut, t.or)) =
      some ([.reset, .fc true, .tx 0x41#8], false, true, 2) := by decide

/-- V-CTL-3: the word 0x0700 at the SW port. -/
theorem test_illegal :
    (tNext (step (State.reset.withFetchWord 16 0x0700))).map (fun t => (t.history, t.errStatusWord, t.errArgsWord)) =
      some ([.reset, .err .illegalOp 0x0700#16 0x0000#16], 0x00000620#32, 0x00000700#32) := by decide

/-- V-RX-17: an RX_BYTE in the dispatch window waits, and FRAME_RELEASE behind it takes its step. -/
theorem test_held_waits :
    (tNext (step { tHeld with arrivals := [.word .link 0x4041#16, .word .sw 0x1100#16] })).map
        (fun t => (t.rxHeld, t.arrivals)) = some (false, [.word .link 0x4041#16]) := by decide

/-- V-ENC-14: under LAP the fourth byte of `N_OUT` = 4 brings the channel back to empty, with no error. -/
theorem test_lap :
    (tNext (exec (.encByte 0xA3#8) { State.resetWith { Params.default with nOut := 4, policy := .lap } with
        ow := 3, encActive := true })).map (fun t => (t.ow, t.count, t.empty, t.history)) =
      some (0, 0, true, [.reset]) := by decide +kernel

/-! ### Part 4: witnesses for the hypotheses of the obligations -/

/-- The bytes of an opcode just outside each range of the table are illegal, and such a word is the next arrival of a
state. -/
theorem witness_IllegalWordRaisesAndChangesNothingElse :
    (∀ op ∈ [0x07#8, 0x0F#8, 0x12#8, 0x1F#8, 0x26#8, 0x2E#8, 0x30#8, 0x40#8, 0x41#8, 0xFF#8],
      decode .sw (op ++ 0x00#8) = none) ∧
    (∀ op ∈ [0x00#8, 0x3F#8, 0x42#8, 0xFF#8], decode .link (op ++ 0x00#8) = none) ∧
    ∃ s : State, s.arrivals = .word .sw 0x0700#16 :: [] ∧
      (0x0700#16).extractLsb' 8 8 ∉ [0x00#8, 0x01#8, 0x02#8, 0x03#8, 0x04#8, 0x05#8, 0x06#8, 0x10#8, 0x11#8,
        0x20#8, 0x21#8, 0x22#8, 0x23#8, 0x24#8, 0x25#8, 0x2F#8] :=
  ⟨by decide, by decide, { tSmall with arrivals := [.word .sw 0x0700#16] }, rfl, by decide⟩

/-- Both ways an operation is enabled: no frame held, and an operation that is no RX_BYTE. -/
theorem witness_StepRunsDecodedOperation :
    (∃ (s : State) (i : Instr), s.arrivals = .word .link 0x4041#16 :: [] ∧ decode .link 0x4041#16 = some i ∧
      s.rxHeld = false) ∧
    ∃ (s : State) (i : Instr), s.arrivals = .word .sw 0x1100#16 :: [] ∧ decode .sw 0x1100#16 = some i ∧
      s.rxHeld = true ∧ ∀ r, i ≠ .rxByte r :=
  ⟨⟨{ tSmall with arrivals := [.word .link 0x4041#16] }, .rxByte 0x41#8, rfl, by decide, rfl⟩,
    ⟨{ tHeld with arrivals := [.word .sw 0x1100#16] }, .frameRelease 0x00#8, rfl, by decide, rfl, fun _ h => nomatch h⟩⟩

/-- A held frame, with one held byte before another operation, and with held bytes only. -/
theorem witness_HeldReceiveWaitsWhileOthersRun :
    ∃ s u : State, s.rxHeld = true ∧ u.rxHeld = true ∧
      s.arrivals = [0x41#8].map (fun r => Arrival.ofInstr (.rxByte r)) ++ Arrival.ofInstr (.nop 0x00#8) :: [] ∧
      (Arrival.ofInstr (.nop 0x00#8)).isReceive = false ∧
      u.arrivals = [0x41#8].map (fun r => Arrival.ofInstr (.rxByte r)) :=
  ⟨{ tHeld with arrivals := [Arrival.ofInstr (.rxByte 0x41#8), Arrival.ofInstr (.nop 0x00#8)] },
    { tHeld with arrivals := [Arrival.ofInstr (.rxByte 0x41#8)] }, rfl, rfl, rfl, by decide, rfl⟩

theorem witness_SystemResetStepIsTheInitReset : ∃ s : State, s.arrivals = .systemReset :: [] :=
  ⟨{ tSmall with arrivals := [.systemReset] }, rfl⟩

theorem witness_RunOfArrivalsRunsTheOperations :
    ∃ t : State, runOps [.encOpen 0x00#8, .flush 0x00#8, .rxByte 0x41#8] { tSmall with arrivals := [] } = .next t ∧
      t.arrivals = [] := ⟨_, rfl, rfl⟩

theorem witness_StatusReadsHaveNoSideEffect :
    ∃ t : State, exec (.inStatus 0x00#8) tHeld = .next t ∧
      Instr.inStatus 0x00#8 ∈ [.outStatus 0x00#8, .inStatus 0x00#8, .errStatus 0x00#8, .errArgs 0x00#8,
        .crcStatus 0x00#8, .nop 0x00#8] := ⟨_, rfl, by decide⟩

/-- In the window with the smallest buffer, and outside it with none. -/
theorem witness_InStatusReturnsTheInputFields :
    (∃ s : State, s.rxHeld = true ∧ s.params.nIn = 1 ∧ (s.rxHeld = true → 1 ≤ s.params.nIn)) ∧
    (∃ s : State, s.rxHeld = false ∧ (s.rxHeld = true → 1 ≤ s.params.nIn)) ∧
    ∃ (s : State) (p : Params), s = State.resetWith p :=
  ⟨⟨{ State.resetWith { Params.default with nIn := 1 } with rxHeld := true }, rfl, rfl, fun _ => by decide⟩,
    ⟨tSmall, rfl, fun _ => by decide⟩, ⟨tSmall, _, rfl⟩⟩

/-- Indices at both ends of their range: for ENC_OPEN, ENC_BYTE and ENC_CLOSE. -/
theorem witness_encoder_indices :
    ∃ s u : State, (s.ow < s.params.nOut ∧ s.or < s.params.nOut ∧ s.ow = 0 ∧ s.or = 0) ∧
      (u.ow < u.params.nOut ∧ u.or < u.params.nOut ∧ u.ow = 7 ∧ u.or = 7) :=
  ⟨tSmall, { tSmall with ow := 7, or := 7 }, by decide, by decide⟩

/-- Under LAP, a buffer one byte short of the wrap (V-ENC-14), and the count that comes back to 0. -/
theorem witness_LapNeverRefusesAndLosesSilently :
    ∃ s t : State, s.params.policy = .lap ∧ s.ow < s.params.nOut ∧ s.or < s.params.nOut ∧
      exec (.encByte 0xA3#8) s = .next t ∧ t.count = 0 :=
  ⟨{ State.resetWith { Params.default with nOut := 4, policy := .lap } with ow := 3 }, _, rfl, by decide, by decide,
    rfl, by decide +kernel⟩

/-- The content 0x41 exactly fills the 5 free slots of a buffer of 6. -/
theorem witness_CompleteEncodeAppendsTheWireForm :
    ∃ s : State, s.ow < s.params.nOut ∧ s.or < s.params.nOut ∧ s.encActive = false ∧
      (s.params.wire [0x41#8]).length ≤ s.free ∧ s.free = 5 :=
  ⟨State.resetWith { Params.default with nOut := 6 }, by decide, by decide, rfl, by decide +kernel, by decide⟩

/-- Each of the five cases of FLUSH. -/
theorem witness_FlushUpdatesTheLineOrSubmitsOneByte :
    (tDraining.or < tDraining.params.nOut ∧ tDraining.draining = true) ∧
    (∃ s : State, s.or < s.params.nOut ∧ s.draining = false ∧ s.sigChanged = true) ∧
    (∃ s : State, s.or < s.params.nOut ∧ s.draining = false ∧ s.sigChanged = false ∧ s.inhibited = true) ∧
    (tPending.or < tPending.params.nOut ∧ tPending.draining = false ∧ tPending.sigChanged = false ∧
      tPending.inhibited = false ∧ tPending.ow ≠ tPending.or) ∧
    (tSmall.or < tSmall.params.nOut ∧ tSmall.draining = false ∧ tSmall.sigChanged = false ∧
      tSmall.inhibited = false ∧ tSmall.ow = tSmall.or) :=
  ⟨by decide, ⟨{ tPending with sigChanged := true, or := 7 }, by decide⟩,
    ⟨{ tPending with inhibited := true }, by decide⟩, by decide, by decide⟩

/-- A byte in flight, with and without another one to send. -/
theorem witness_TxReadyUpdatesTheLineThenSubmitsOrStops :
    (tDraining.or < tDraining.params.nOut ∧ tDraining.draining = true ∧ tDraining.linkByte = some 0x7E#8 ∧
      tDraining.inhibited = false ∧ tDraining.ow ≠ tDraining.or) ∧
    ∃ s : State, s.or < s.params.nOut ∧ s.draining = true ∧ s.linkByte = some 0x7E#8 ∧ s.ow = s.or :=
  ⟨by decide, { tDraining with or := 5 }, by decide⟩

theorem witness_SpuriousTxReadyDoesNothing : tSmall.draining = false ∧ tSmall.linkByte = none := by decide

theorem witness_InhibitSetsTheFlagAndDrivesAnIdleLine : tDraining.draining = true ∧ tPending.draining = false := by
  decide

/-- Pending bytes, with a byte in flight and with none. -/
theorem witness_InhibitIsIdempotentAndStopRestoresDraining :
    (tDraining.or < tDraining.params.nOut ∧ tDraining.ow ≠ tDraining.or ∧ tDraining.draining = true) ∧
    (tPending.or < tPending.params.nOut ∧ tPending.ow ≠ tPending.or ∧ tPending.draining = false) := by decide

theorem witness_NoByteIsSubmittedWhileInhibited :
    ∃ s t : State, s.inhibited = true ∧
      (∀ d : Byte, Instr.inhibitStop d ∉ [.flush 0x00#8, .txReady 0x00#8] ∧
        Instr.init d ∉ [.flush 0x00#8, .txReady 0x00#8]) ∧
      runOps [.flush 0x00#8, .txReady 0x00#8] s = .next t :=
  ⟨{ tDraining with inhibited := true }, _, rfl, fun d => by simp, rfl⟩

/-- V-OUT-4: INHIBIT_STOP and FLUSH from an inhibited state end in `FC(1), TX(7E)`. -/
theorem witness_LineIsReassertedBeforeTheNextByte :
    ∃ s t : State, s.inhibited = true ∧ (∀ d : Byte, Instr.init d ∉ [.inhibitStop 0x00#8, .flush 0x00#8]) ∧
      runOps [.inhibitStop 0x00#8, .flush 0x00#8] s = .next t ∧
      t.history = s.history ++ ([.fc true] ++ .tx 0x7E#8 :: []) :=
  ⟨{ tPending with inhibited := true, fcOut := false }, _, rfl, fun d => by simp, rfl, rfl⟩

/-- FLUSH submits a byte, with the link idle. -/
theorem witness_AtMostOneByteIsOutstanding :
    ∃ t : State, tPending.LinkInv ∧ exec (.flush 0x00#8) tPending = .next t ∧ (Instr.flush 0x00#8).port = .sw ∧
      txBytes t.history ≠ txBytes tPending.history := ⟨_, rfl, rfl, rfl, by decide⟩

theorem witness_DrainingDeliversEveryPendingByte :
    tDraining.ow < tDraining.params.nOut ∧ tDraining.or < tDraining.params.nOut ∧ tDraining.draining = true ∧
      tDraining.inhibited = false ∧ tDraining.linkByte = some 0x7E#8 := by decide

/-- The content 0x41 with the channel idle, with a line update pending, and with a byte in flight. -/
theorem witness_SendFrameReachesTheHost :
    ∃ s u v : State, (∀ x ∈ [s, u, v], x.ow < x.params.nOut ∧ x.or < x.params.nOut ∧ x.encActive = false ∧
        x.inhibited = false ∧ (x.draining = true → x.linkBusy = true) ∧ (x.params.wire [0x41#8]).length ≤ x.free) ∧
      (s.draining = false ∧ s.sigChanged = false) ∧ (u.draining = false ∧ u.sigChanged = true) ∧
      (v.draining = true ∧ v.linkByte = some 0x7E#8) :=
  ⟨tSmall, { tSmall with sigChanged := true }, { tSmall with draining := true, linkByte := some 0x7E#8 },
    by decide +kernel, by decide, by decide, by decide⟩

theorem witness_OutputChannelIsAFifo :
    ∃ t : State, tPending.ow < tPending.params.nOut ∧ tPending.or < tPending.params.nOut ∧
      tPending.params.policy = .dropNewest ∧ (∀ d, Instr.encByte 0x42#8 ≠ .init d) ∧
      exec (.encByte 0x42#8) tPending = .next t := ⟨_, by decide, by decide, rfl, (fun _ h => nomatch h), rfl⟩

theorem witness_LinkDeliversSubmittedBytesInOrder :
    ∃ t : State, tDraining.LinkInv ∧ (∀ d, Instr.txReady 0x00#8 ≠ .init d) ∧
      exec (.txReady 0x00#8) tDraining = .next t := ⟨_, rfl, (fun _ h => nomatch h), rfl⟩

theorem witness_FlowOperationsFrame :
    ∃ t : State, Instr.txReady 0x00#8 ∈ [.flush 0x00#8, .inhibitStart 0x00#8, .inhibitStop 0x00#8, .txReady 0x00#8] ∧
      exec (.txReady 0x00#8) tDraining = .next t := ⟨_, by decide, rfl⟩

/-- WAIT: an ignored byte, an ESC that starts a frame, and a plain byte that does, with the smallest buffer. -/
theorem witness_ReceiveInWaitStartsAFrameOrIgnores :
    ∃ s u : State, (s.rxHeld = false ∧ s.rxState = .wait ∧ s.params.nIn = 1 ∧ s.lastRx = s.params.flag ∧
        0x7D#8 ≠ s.params.flag ∧ 0x7D#8 = s.params.esc ∧ 0x41#8 ≠ s.params.flag ∧ 0x41#8 ≠ s.params.esc) ∧
      (u.rxHeld = false ∧ u.rxState = .wait ∧ 1 ≤ u.params.nIn ∧ ¬(u.lastRx = u.params.flag ∧ 0x41#8 ≠ u.params.flag)) :=
  ⟨State.resetWith { Params.default with nIn := 1 }, { tSmall with lastRx := 0x00#8 }, by decide, by decide⟩

/-- Inside a frame: ESC, a byte for the last slot, and a byte with no slot. -/
theorem witness_ReceiveInFrameDecodesOneByte :
    ∃ s u : State, (s.rxHeld = false ∧ s.rxState = .assembling ∧ s.fill ≤ s.params.nIn ∧ s.fill < s.params.nIn ∧
        s.fill + 1 = s.params.nIn ∧ s.escaping = true) ∧
      (u.rxHeld = false ∧ u.rxState = .assembling ∧ u.fill ≤ u.params.nIn ∧ u.fill = u.params.nIn) ∧
      0x7D#8 = s.params.esc ∧ 0x41#8 ≠ s.params.esc ∧ 0x41#8 ≠ s.params.flag ∧ 0x7D#8 ≠ s.params.flag :=
  ⟨{ tSmall with rxState := .assembling, fill := 7, escaping := true }, { tSmall with rxState := .assembling, fill := 8 },
    by decide, by decide, by decide⟩

/-- The end of a frame: three logical bytes that pass, two that pass the check and are too few, and three that fail. -/
theorem witness_ClosingFlagDispatchesOrRaises :
    (tOpen.rxHeld = false ∧ tOpen.rxState = .assembling ∧ tOpen.fill ≤ tOpen.params.nIn ∧
      tOpen.inCrc = tOpen.params.crcGood ∧ 3 ≤ tOpen.fill) ∧
    (∃ s : State, s.rxHeld = false ∧ s.rxState = .assembling ∧ s.fill ≤ s.params.nIn ∧
      s.inCrc = s.params.crcGood ∧ s.fill = 2 ∧ ¬(s.inCrc = s.params.crcGood ∧ 3 ≤ s.fill)) ∧
    (∃ s : State, s.rxHeld = false ∧ s.rxState = .assembling ∧ s.fill ≤ s.params.nIn ∧ s.fill = 3 ∧
      ¬(s.inCrc = s.params.crcGood ∧ 3 ≤ s.fill)) :=
  ⟨by decide, ⟨{ tOpen with fill := 2 }, by decide⟩, ⟨{ tOpen with inCrc := 0x8407#16 }, by decide⟩⟩

theorem witness_LastRawByteIsAlwaysRecorded :
    ∃ t u : State, tOpen.rxHeld = false ∧ exec (.rxByte 0x7E#8) tOpen = .next t ∧
      (∀ r, Instr.frameRelease 0x00#8 ≠ .rxByte r ∧ Instr.frameRelease 0x00#8 ≠ .init r) ∧
      exec (.frameRelease 0x00#8) tHeld = .next u :=
  ⟨_, _, rfl, rfl, fun _ => ⟨(fun h => nomatch h), (fun h => nomatch h)⟩, rfl⟩

/-- RX_BYTE answers a next state in the window, at a flag, at an ESC, when ignored, with no slot, and when it stores. -/
theorem witness_ReceiveFrame :
    (∃ t, exec (.rxByte 0x41#8) tHeld = .next t) ∧ (∃ t, exec (.rxByte 0x7E#8) tOpen = .next t) ∧
    (∃ t, exec (.rxByte 0x7D#8) tOpen = .next t) ∧
    (∃ t, exec (.rxByte 0x41#8) { tSmall with lastRx := 0x00#8 } = .next t) ∧
    (∃ t, exec (.rxByte 0x41#8) { tSmall with rxState := .assembling, fill := 8 } = .next t) ∧
    (∃ t, exec (.rxByte 0x41#8) tOpen = .next t) :=
  ⟨⟨_, rfl⟩, ⟨_, rfl⟩, ⟨_, rfl⟩, ⟨_, rfl⟩, ⟨_, rfl⟩, ⟨_, rfl⟩⟩

/-- IN_READ of the whole payload, of one byte more, and outside the window. -/
theorem witness_InReadReturnsPayloadOrRaises :
    (tHeld.fill ≤ tHeld.params.nIn ∧ 1 ≤ tHeld.fill ∧ 2 = (if tHeld.rxHeld then tHeld.fill - 1 else 0) ∧ (0x02#8).toNat ≤ 2 ∧
      2 < (0x03#8).toNat) ∧
    (tSmall.fill ≤ tSmall.params.nIn ∧ 0 = (if tSmall.rxHeld then tSmall.fill - 1 else 0) ∧ (0x00#8).toNat ≤ 0 ∧
      0 < (0x01#8).toNat) := by decide

theorem witness_FrameReleaseEndsTheWindowOrRaises : tHeld.rxHeld = true ∧ tSmall.rxHeld = false := by decide

theorem witness_ConsumerOperationsFrame :
    (∃ t, exec (.inRead 0x02#8) tHeld = .next t) ∧ (∃ t, exec (.frameRelease 0x00#8) tHeld = .next t) ∧
      Instr.inRead 0x02#8 ∈ [.inRead 0x02#8, .frameRelease 0x02#8] := ⟨⟨_, rfl⟩, ⟨_, rfl⟩, by decide⟩

/-- The content 0x7E in the smallest buffer that holds it; `last_rx` and `escaping` are arbitrary. -/
theorem witness_ReceivingAWireFormYieldsItsContent :
    ∃ s : State, 1 ≤ [0x7E#8].length ∧ [0x7E#8].length + 2 ≤ s.params.nIn ∧ s.params.nIn = 3 ∧
      s.params.StuffingLaw ∧ FrameCheckHolds s.params [0x7E#8] ∧ s.rxState = .wait ∧ s.rxHeld = false ∧
      s.escaping = true :=
  ⟨{ State.resetWith { Params.default with nIn := 3 } with lastRx := 0x00#8, escaping := true }, by decide, by decide,
    rfl, by decide, by decide +kernel, rfl, rfl, rfl⟩

theorem witness_EmptyFrameIsReportedAsBad :
    ∃ s : State, 2 ≤ s.params.nIn ∧ s.params.StuffingLaw ∧ FrameCheckHolds s.params [] ∧ s.rxState = .wait ∧
      s.rxHeld = false := ⟨tSmall, by decide, by decide, by decide +kernel, rfl, rfl⟩

/-- V-RX-5: nine plain bytes and N_IN = 8; a tenth, an ESC, is only ignored. -/
theorem witness_OverflowIsRaisedOnceAndReceptionResumes :
    ∃ raw : List Byte, 1 ≤ tSmall.params.nIn ∧ tSmall.params.nIn < raw.length ∧
      (∀ b ∈ raw, b ≠ tSmall.params.flag) ∧ (∀ b ∈ raw.take (tSmall.params.nIn + 1), b ≠ tSmall.params.esc) ∧
      0x41#8 ≠ tSmall.params.flag ∧ tSmall.rxState = .wait ∧ tSmall.rxHeld = false :=
  ⟨[0x01#8, 0x02#8, 0x03#8, 0x04#8, 0x05#8, 0x06#8, 0x07#8, 0x08#8, 0x09#8, 0x7D#8], by decide⟩

/-- The content 0x41, wire form `7E 41 F5 A3 7E`, with bit 7 of the first inner byte inverted. -/
theorem witness_SingleBitFlipIsRejected :
    tSmall.params.crcAlg = .fcs16 ∧ tSmall.params.crcInit = 0xFFFF#16 ∧ tSmall.params.crcGood = 0xF0B8#16 ∧
      tSmall.params.StuffingLaw ∧ [0x41#8].length + 2 ≤ tSmall.params.nIn ∧
      tSmall.params.stuffAll (tSmall.params.frameBytes [0x41#8]) = [] ++ 0x41#8 :: [0xF5#8, 0xA3#8] ∧ 7 < 8 ∧
      0x41#8 ≠ tSmall.params.esc ∧ 0x41#8 ^^^ (1#8 <<< 7) ≠ tSmall.params.flag ∧
      0x41#8 ^^^ (1#8 <<< 7) ≠ tSmall.params.esc ∧ tSmall.rxState = .wait ∧ tSmall.rxHeld = false := by
  decide +kernel

theorem witness_StuffedContentHidesFlagAndPairsEsc :
    Params.default.WellFormed ∧ Params.default.StuffingLaw ∧
      Params.default.stuffAll [0x7E#8] = [] ++ Params.default.esc :: [0x5E#8] := by decide

theorem witness_FrameSpaceIsBounded :
    ∃ s : State, s.params = Params.default ∧ Params.default.nOut = 256 ∧ Params.default.policy = .dropNewest ∧
      s.ow = s.or ∧ s.or < 256 ∧ (List.replicate 124 0x7E#8).length ≤ 124 :=
  ⟨State.reset, rfl, rfl, rfl, rfl, by decide, by simp⟩

theorem witness_ErrorRegistersRecordTheErrorEvents :
    ∃ t : State, (∀ d, Instr.frameRelease 0x00#8 ≠ .errClear d ∧ Instr.frameRelease 0x00#8 ≠ .init d) ∧
      exec (.frameRelease 0x00#8) tSmall = .next t :=
  ⟨_, fun _ => ⟨(fun h => nomatch h), (fun h => nomatch h)⟩, rfl⟩

theorem witness_HistoryIsAppendOnly : ∃ t, step (State.reset.withFetchWord 16 0x2F00) = .next t := ⟨_, rfl⟩

theorem witness_InterruptOutputsFollowTheirCauses :
    (∃ t, exec (.frameRelease 0x00#8) tHeld = .next t) ∧ (∃ t, exec (.errClear 0x3F#8) tHeld = .next t) ∧
      tHeld.StickyInv := ⟨⟨_, rfl⟩, ⟨_, rfl⟩, by decide⟩

theorem witness_ParametersNeverChange : ∃ t, step (State.reset.withFetchWord 16 0x2F00) = .next t := ⟨_, rfl⟩

/-- With no frame held, and in the dispatch window. -/
theorem witness_TxReadyAndReceiveCommute :
    (tDraining.or < tDraining.params.nOut ∧ tDraining.fill ≤ tDraining.params.nIn ∧ tDraining.rxHeld = false) ∧
    (tHeld.or < tHeld.params.nOut ∧ tHeld.fill ≤ tHeld.params.nIn ∧ tHeld.rxHeld = true) := by decide

/-- A state of the invariant that takes a step: bytes pending, one in flight, a frame held. -/
theorem witness_EveryStepKeepsTheInvariant :
    ∃ s t : State, s.Inv ∧ step s = .next t ∧ s.draining = true ∧ s.rxHeld = true :=
  ⟨{ tDraining with
      ibuf := tHeld.ibuf, fill := 3, rxHeld := true, arrivals := [Arrival.ofInstr (.txReady 0x00#8)] }, _,
    by decide, rfl, rfl, rfl⟩

theorem witness_ResetMeetsTheInvariant : Params.default.WellFormed := by decide

theorem witness_InvariantStatesNeverStop : tDraining.Inv := by decide

theorem witness_UnspecifiedContentsAreNeverObserved :
    ∃ t : State, tDraining.Inv ∧ (∀ d, Instr.txReady 0x00#8 ≠ .init d) ∧
      exec (.txReady 0x00#8) tDraining = .next t := ⟨_, by decide, (fun _ h => nomatch h), rfl⟩
end

section
/-! PROOFS. Byte stuffing (00_scope.md R13, 30_encoding.md R78): the constraints of R7 give the stuffing law, and under
the law stuffed bytes hold no `FLAG` and pair every `ESC`. -/

namespace Sys2Proof.Machine

theorem mask_eq_of_xor_eq {a m c : Byte} (e : a ^^^ m = c) : m = a ^^^ c := by
  rw [← e, ← BitVec.xor_assoc, BitVec.xor_self, BitVec.zero_xor]

/-- The mask of an escape that gives back the byte itself is 0, and of one that swaps the two is `FLAG XOR ESC`. -/
theorem stuffingLaw_of_wellFormed {p : Params} (h : p.WellFormed) : p.StuffingLaw := by
  obtain ⟨hne, hmask, hswap, _, _⟩ := h
  refine ⟨hne, fun e => hmask ?_, fun e => hswap ?_, fun e => hswap ?_, fun e => hmask ?_⟩
  · exact (mask_eq_of_xor_eq e).trans BitVec.xor_self
  · exact mask_eq_of_xor_eq e
  · exact (mask_eq_of_xor_eq e).trans (BitVec.xor_comm _ _)
  · exact (mask_eq_of_xor_eq e).trans BitVec.xor_self

theorem flag_not_mem_stuffAll {p : Params} (h : p.StuffingLaw) (content : List Byte) :
    p.flag ∉ p.stuffAll content := by
  induction content with
  | nil => exact List.not_mem_nil
  | cons b bs ih =>
    rw [Params.stuffAll, List.mem_append, not_or]
    exact ⟨flag_not_mem_stuff h b, ih⟩

/-- Every `ESC` of `raw` is followed, in `raw`, by a byte that is neither `FLAG` nor `ESC` (R13). -/
def EscPaired (p : Params) (raw : List Byte) : Prop :=
  ∀ before after : List Byte, raw = before ++ p.esc :: after → ∃ x rest, after = x :: rest ∧ x ≠ p.flag ∧ x ≠ p.esc

/-- An `ESC` of the first list has its partner there, and one of the second list has it there. -/
theorem EscPaired.append {p : Params} {l l' : List Byte} (h : EscPaired p l) (h' : EscPaired p l') :
    EscPaired p (l ++ l') := by
  intro before after e
  rcases List.append_eq_append_iff.1 e with ⟨mid, _, hr⟩ | ⟨mid, hl, hr⟩
  · exact h' mid after hr
  · cases mid with
    | nil => exact h' [] after hr.symm
    | cons y mid =>
      obtain ⟨rfl, rfl⟩ := List.cons.inj hr
      obtain ⟨x, rest, rfl, hx⟩ := h before mid hl
      exact ⟨x, rest ++ l', rfl, hx⟩

/-- An escaped byte is one pair whose second byte the law keeps apart from `FLAG` and `ESC`; any other byte is not
`ESC`. -/
theorem escPaired_stuff {p : Params} (h : p.StuffingLaw) (b : Byte) : EscPaired p (p.stuff b) := by
  obtain ⟨_, hff, hfe, hef, hee⟩ := h
  intro before after e
  unfold Params.stuff at e
  split at e
  · rename_i hb
    have hx : b ^^^ p.mask ≠ p.flag ∧ b ^^^ p.mask ≠ p.esc := by
      rcases hb with rfl | rfl
      · exact ⟨hff, hfe⟩
      · exact ⟨hef, hee⟩
    rcases List.cons_eq_append_iff.1 e with ⟨_, hl⟩ | ⟨mid, _, hr⟩
    · exact ⟨_, [], (List.cons.inj hl).2, hx⟩
    · have hmem : p.esc ∈ [b ^^^ p.mask] := by rw [hr]; exact List.mem_append_cons_self
      exact absurd (List.mem_singleton.1 hmem).symm hx.2
  · rename_i hb
    have hmem : p.esc ∈ [b] := by rw [e]; exact List.mem_append_cons_self
    exact absurd (.inr (List.mem_singleton.1 hmem).symm) hb

theorem escPaired_stuffAll {p : Params} (h : p.StuffingLaw) (content : List Byte) :
    EscPaired p (p.stuffAll content) := by
  induction content with
  | nil => exact fun before after e => absurd e.symm (List.append_ne_nil_of_right_ne_nil before (List.cons_ne_nil _ _))
  | cons b bs ih => exact (escPaired_stuff h b).append ih

/-- Settles O50: the law from the constraints of R7, then induction on the content for both properties. -/
theorem stuffedContentHidesFlagAndPairsEsc : Obligations.StuffedContentHidesFlagAndPairsEsc :=
  ⟨fun _ => stuffingLaw_of_wellFormed,
    fun _ content h => ⟨flag_not_mem_stuffAll h content, escPaired_stuffAll h content⟩,
    by decide, by decide, by decide⟩

end Sys2Proof.Machine
end

section
/-! PROOFS. The parameters (00_scope.md R7, 10_state.md R43): no operation and no step changes them. -/

namespace Sys2Proof.Machine

theorem FlowWrites.params {u t : State} (h : FlowWrites u t) : t.params = u.params := by
  obtain ⟨v, hv, d, ht⟩ := h
  have hvu : v.params = u.params := by
    rcases hv with rfl | rfl
    · rfl
    · exact updateLine_params u
  rcases ht with rfl | ⟨_, _, _, rfl⟩ <;> exact hvu

theorem flowStart_params {i : Instr} (s : State) (hi : isFlow i = true) : (s.flowStart i).params = s.params := by
  obtain ⟨_, _, _, _, e, _, _⟩ := flowStart_eq s hi
  rw [e]

/-- No operation changes the parameters: INIT resets to the state after reset of the same parameters, a flow operation
writes the output channel only, and the others leave them by their frame. -/
theorem exec_params {i : Instr} {s t : State} (h : exec i s = .next t) : t.params = s.params := by
  rcases exec_kinds h with ⟨d, rfl⟩ | hi | ⟨_, _, ⟨hp, _⟩, _⟩
  · obtain ⟨_, rfl, _⟩ := init_next h
    rfl
  · exact (flow_next hi h).1.params.trans (flowStart_params s hi)
  · exact hp

/-- The platform's reset is INIT's (R252), so it keeps the parameters too. -/
theorem systemReset_params (s : State) : (systemReset s).params = s.params :=
  exec_params (i := .init 0x00#8) rfl

theorem illegalWord_params (w : Word) (s : State) : (illegalWord w s).params = s.params := rfl

/-- Settles O55: each of the four ways a step can go keeps the parameters. -/
theorem parametersNeverChange : Obligations.ParametersNeverChange := by
  intro s t h
  rcases step_cases s with ⟨_, e⟩ | ⟨rest, _, e⟩ | ⟨_, w, rest, _, _, e⟩ | ⟨_, _, rest, i, _, _, e⟩ <;> rw [e] at h
  · cases h
    rfl
  · cases h
    exact systemReset_params _
  · cases h
    exact illegalWord_params w _
  · have hp := exec_params h
    exact hp

end Sys2Proof.Machine
end

section
/-! PROOFS. The cases of the flow controller's bodies and of the consumer operations, one equation each: what their
inversion lemmas (`flushBody_ok`, `transmitComplete_ok`, `inRead_next`, `frameRelease_next`) say, read forwards
(41_output_flow.md R143, R144; 42_input.md R177 to R179; 43_control.md R202). -/

namespace Sys2Proof.Machine

theorem flushBody_skip {s : State}
    (h : s.draining = true ∨ (s.sigChanged = false ∧ (s.inhibited = true ∨ s.ow = s.or))) : flushBody s = .ok s := by
  unfold flushBody
  rcases h with hd | ⟨hs, hi | he⟩
  · rw [if_pos hd]
  · simp [hs, hi]
  · simp [hs, (State.empty_iff s).2 he]

theorem flushBody_update {s : State} (hd : s.draining = false) (hs : s.sigChanged = true) :
    flushBody s = .ok (updateLine s) := by
  simp [flushBody, hd, hs]

theorem flushBody_submit {s : State} (hd : s.draining = false) (hs : s.sigChanged = false) (hi : s.inhibited = false)
    (hne : s.ow ≠ s.or) (hr : s.or < s.params.nOut) : flushBody s = .ok { s.submittedNext with draining := true } := by
  have he : s.empty = false := by simp [State.empty, hne]
  simp [flushBody, hd, hs, hi, he, submitNext_eq hr]

theorem transmitComplete_spurious {s : State} (hd : s.draining = false) : transmitComplete s = .ok s := by
  simp [transmitComplete, hd]

@[simp] theorem lineUpdated_inhibited (s : State) : s.lineUpdated.inhibited = s.inhibited := by
  unfold State.lineUpdated; split <;> rfl

@[simp] theorem lineUpdated_ow (s : State) : s.lineUpdated.ow = s.ow := by
  unfold State.lineUpdated; split <;> rfl

@[simp] theorem lineUpdated_or (s : State) : s.lineUpdated.or = s.or := by
  unfold State.lineUpdated; split <;> rfl

@[simp] theorem lineUpdated_params (s : State) : s.lineUpdated.params = s.params := by
  unfold State.lineUpdated; split <;> rfl

@[simp] theorem lineUpdated_draining (s : State) : s.lineUpdated.draining = s.draining := by
  unfold State.lineUpdated; split <;> rfl

@[simp] theorem lineUpdated_linkByte (s : State) : s.lineUpdated.linkByte = s.linkByte := by
  unfold State.lineUpdated; split <;> rfl

theorem transmitComplete_stop {s : State} (hd : s.draining = true) (h : s.inhibited = true ∨ s.ow = s.or) :
    transmitComplete s = .ok { s.lineUpdated with draining := false } := by
  refine (if_pos hd).trans ?_
  change (if s.lineUpdated.inhibited = true then _ else if s.lineUpdated.empty = true then _ else _) = _
  by_cases hi : s.inhibited = true
  · exact if_pos (by rw [lineUpdated_inhibited, hi])
  · refine (if_neg (by rwa [lineUpdated_inhibited])).trans (if_pos ?_)
    rw [State.empty_iff, lineUpdated_ow, lineUpdated_or]
    exact h.resolve_left hi

theorem transmitComplete_submit {s : State} (hd : s.draining = true) (hi : s.inhibited = false) (hne : s.ow ≠ s.or)
    (hr : s.or < s.params.nOut) : transmitComplete s = .ok s.lineUpdated.submittedNext := by
  refine (if_pos hd).trans ?_
  change (if s.lineUpdated.inhibited = true then _ else if s.lineUpdated.empty = true then _ else _) = _
  refine (if_neg ?_).trans ((if_neg ?_).trans (submitNext_eq (s := s.lineUpdated) ?_))
  · rw [lineUpdated_inhibited, hi]
    exact Bool.false_ne_true
  · rwa [State.empty_iff, lineUpdated_ow, lineUpdated_or]
  · rwa [lineUpdated_or, lineUpdated_params]

theorem exec_inRead_tooLarge {n : Byte} {s : State} (h : s.avail < n.toNat) :
    exec (.inRead n) s = .next (respond (.bytes []) (raise .rdTooLarge (countArg n.toNat) (countArg s.avail) s)) :=
  if_pos h

theorem exec_inRead_payload {n : Byte} {s : State} (h : n.toNat ≤ s.avail)
    (hr : n.toNat = 0 ∨ 1 + n.toNat ≤ s.params.nIn) :
    exec (.inRead n) s = .next (respond (.bytes ((List.range' 1 n.toNat).map s.ibufByte)) s) := by
  simp only [exec, execInRead, countOperand, if_neg (Nat.not_lt.2 h), ibufReadRange_eq hr]

theorem exec_inStatus_held {d : Byte} {s : State} (hh : s.rxHeld = true) (hn : 1 ≤ s.params.nIn) :
    exec (.inStatus d) s = .next (respond (.word (s.inStatusWord (s.ibufByte 0))) s) := by
  simp only [exec, execInStatus, if_pos hh, ibufReadRange_eq (i := 0) (n := 1) (.inr hn)]
  rfl

theorem exec_inStatus_open {d : Byte} {s : State} (hh : s.rxHeld = false) :
    exec (.inStatus d) s = .next (respond (.word (s.inStatusWord 0x00#8)) s) := by
  simp [exec, execInStatus, hh]

theorem exec_frameRelease_held {d : Byte} {s : State} (hh : s.rxHeld = true) :
    exec (.frameRelease d) s = .next { respond .nothing s with fill := 0, rxHeld := false } :=
  if_pos hh

theorem exec_frameRelease_open {d : Byte} {s : State} (hh : s.rxHeld = false) :
    exec (.frameRelease d) s = .next (raise .seq (encode (.frameRelease d)) 0x0000#16 (respond .nothing s)) := by
  simp [exec, execFrameRelease, wordArg, hh]

/-- In the dispatch window the byte goes back, first in the LINK agent's order (R179; log 6). -/
theorem exec_rxByte_held {r : Byte} {s : State} (hh : s.rxHeld = true) :
    exec (.rxByte r) s = .next { s with arrivals := Arrival.ofInstr (.rxByte r) :: s.arrivals } :=
  if_pos hh

end Sys2Proof.Machine
end

section
/-! PROOFS. What the flow operations write and what every operation appends to the history (41_output_flow.md R143 to
R146; 10_state.md R24, R30, R40, R43). -/

namespace Sys2Proof.Machine

/-- The shared body of a flow operation writes `or`, the flow controller's fields, the link and the history. -/
theorem FlowWrites.frame {u t : State} (h : FlowWrites u t) : ∃ o d sg fc evs lb,
    t = { u with
      or := o, draining := d, sigChanged := sg, fcOut := fc, history := u.history ++ evs, linkByte := lb } := by
  obtain ⟨v, hv, d, ht⟩ := h
  obtain ⟨sg, fc, evs, rfl⟩ : ∃ sg fc evs,
      v = { u with sigChanged := sg, fcOut := fc, history := u.history ++ evs } := by
    rcases hv with rfl | rfl
    · exact ⟨v.sigChanged, v.fcOut, [], by rw [List.append_nil]⟩
    · exact ⟨_, _, _, rfl⟩
  rcases ht with rfl | ⟨_, _, _, rfl⟩
  · exact ⟨_, _, _, _, evs, _, rfl⟩
  · exact ⟨_, _, _, _, evs ++ [.tx _], _, by rw [← List.append_assoc]; rfl⟩

/-- All that a flow operation writes; only TX_READY delivers a byte. -/
theorem flow_frame {i : Instr} {s t : State} (hi : isFlow i = true) (h : exec i s = .next t) :
    ∃ o d inh sg fc evs lb hg,
      t = { s with
        or := o, draining := d, inhibited := inh, sigChanged := sg, fcOut := fc, history := s.history ++ evs,
        linkByte := lb, hostGot := hg, resp := .nothing } ∧
      ((∀ d, i ≠ .txReady d) → hg = s.hostGot) := by
  obtain ⟨hw, _⟩ := flow_next hi h
  obtain ⟨inh, _, _, hg, hu, hother, _⟩ := flowStart_eq s hi
  rw [hu] at hw
  obtain ⟨o, d, sg, fc, evs, lb, rfl⟩ := hw.frame
  exact ⟨o, d, inh, sg, fc, evs, lb, hg, rfl, fun hne => (hother hne).2⟩

/-- Settles O35, by the frame of the four operations. -/
theorem flowOperationsFrame : Obligations.FlowOperationsFrame := by
  intro d i s t hi h
  have hflow : isFlow i = true ∧ (i ≠ .txReady d → ∀ d', i ≠ .txReady d') := by
    simp only [List.mem_cons, List.not_mem_nil, or_false] at hi
    rcases hi with rfl | rfl | rfl | rfl
    case inr.inr.inr => exact ⟨rfl, fun hne => absurd rfl hne⟩
    all_goals exact ⟨rfl, fun _ _ e => nomatch e⟩
  obtain ⟨hf, hne⟩ := hflow
  obtain ⟨_, _, _, _, _, _, _, _, rfl, hgot⟩ := flow_frame hf h
  exact ⟨rfl, fun e => hgot (hne e), rfl, fun _ => ⟨rfl, rfl⟩⟩

/-- Every operation appends to the history, INIT included (R40). -/
theorem exec_extends_history {i : Instr} {s t : State} (h : exec i s = .next t) : s.history <+: t.history := by
  rcases exec_kinds h with ⟨d, rfl⟩ | hi | ⟨_, _, _, evs, _, hevs⟩
  · obtain ⟨_, rfl, _⟩ := init_next h
    exact ⟨_, rfl⟩
  · obtain ⟨_, _, _, _, _, _, _, _, rfl, _⟩ := flow_frame hi h
    exact ⟨_, rfl⟩
  · rw [hevs]
    exact ⟨_, rfl⟩

/-- Settles O53: each of the four ways a step can go appends to the history. -/
theorem historyIsAppendOnly : Obligations.HistoryIsAppendOnly := by
  intro s t h
  rcases step_cases s with ⟨_, e⟩ | ⟨rest, _, e⟩ | ⟨_, w, rest, _, _, e⟩ | ⟨_, _, rest, i, _, _, e⟩ <;> rw [e] at h
  · cases h
    exact ⟨[], List.append_nil _⟩
  · exact exec_extends_history (i := .init 0x00#8) (s := { s with arrivals := rest }) h
  · cases h
    exact ⟨_, rfl⟩
  · exact exec_extends_history (s := { s with arrivals := rest }) h

end Sys2Proof.Machine
end

section
/-! PROOFS. The invariant by its parts (10_state.md R42): each operation is checked against the parts that it writes,
and keeps the others because they do not mention what it writes. First the reset and the error registers. -/

namespace Sys2Proof.Machine

/-- The output buffer's part of the invariant: the indices in range, the canonical form, the pending slots written
(R42 item 1, R23). -/
def State.OutputInv (s : State) : Prop :=
  s.ow < s.params.nOut ∧ s.or < s.params.nOut ∧ s.obuf.wf ∧ (∀ c ∈ s.obuf, c.1 < s.params.nOut) ∧
    ∀ k < s.count, (s.obuf.read? ((s.or + k) % s.params.nOut)).isSome = true

/-- The input assembler's part of the invariant: the fill level in range, the window, the canonical form, the filled
slots written (R42 items 2 to 4, R31). -/
def State.InputInv (s : State) : Prop :=
  s.fill ≤ s.params.nIn ∧ s.WindowInv ∧ s.ibuf.wf ∧ (∀ c ∈ s.ibuf, c.1 < s.params.nIn) ∧
    ∀ i < s.fill, (s.ibuf.read? i).isSome = true

theorem inv_iff (s : State) :
    s.Inv ↔ s.params.WellFormed ∧ s.OutputInv ∧ s.InputInv ∧ s.LineInv ∧ s.LinkInv ∧ s.StickyInv := by
  constructor
  · rintro ⟨hp, ⟨hw, hr, hf⟩, hwin, hline, hlink, hst, ⟨⟨ho, hi⟩, hos, his⟩, hpend, hfill⟩
    exact ⟨hp, ⟨hw, hr, ho, hos, hpend⟩, ⟨hf, hwin, hi, his, hfill⟩, hline, hlink, hst⟩
  · rintro ⟨hp, ⟨hw, hr, ho, hos, hpend⟩, ⟨hf, hwin, hi, his, hfill⟩, hline, hlink, hst⟩
    exact ⟨hp, ⟨hw, hr, hf⟩, hwin, hline, hlink, hst, ⟨⟨ho, hi⟩, hos, his⟩, hpend, hfill⟩

/-! ### After reset (R250) -/

theorem resetWith_outputInv {p : Params} (h : 0 < p.nOut) : (State.resetWith p).OutputInv := by
  have hc : (State.resetWith p).count = 0 := (State.count_eq_zero h h).2 rfl
  refine ⟨h, h, Memory.wf_nil, fun c hc => (List.not_mem_nil hc).elim, fun k hk => ?_⟩
  omega

theorem resetWith_inputInv (p : Params) : (State.resetWith p).InputInv :=
  ⟨Nat.zero_le _, ⟨fun h => Bool.noConfusion h, fun _ _ => rfl⟩, Memory.wf_nil,
    fun _ hc => (List.not_mem_nil hc).elim, fun _ hi => (Nat.not_lt_zero _ hi).elim⟩

theorem resetWith_inv {p : Params} (h : p.WellFormed) : (State.resetWith p).Inv := by
  have ⟨_, _, _, ⟨hn, _⟩, _⟩ := h
  exact (inv_iff _).2 ⟨h, resetWith_outputInv (by omega), resetWith_inputInv p, fun _ => rfl, rfl, BitVec.zero_and⟩

/-- Settles O58: every part holds of the empty buffers, and the default parameters are within R7. -/
theorem resetMeetsTheInvariant : Obligations.ResetMeetsTheInvariant :=
  ⟨fun _ => resetWith_inv, resetWith_inv (by decide)⟩

/-! ### Recording errors (R221) -/

theorem stickyBit_high (k : ErrKind) : k.stickyBit &&& 0xC0#8 = 0x00#8 := by
  cases k <;> decide

/-- No error has one of the two high bits (R38). -/
theorem recordErrors_sticky_high (evs : List Event) {r : ErrRegs} (h : r.sticky &&& 0xC0#8 = 0x00#8) :
    (recordErrors evs r).sticky &&& 0xC0#8 = 0x00#8 := by
  induction evs generalizing r with
  | nil => exact h
  | cons e evs ih =>
    cases e with
    | err k a1 a2 => exact ih (by rw [BitVec.and_or_distrib_right, h, stickyBit_high, BitVec.or_self])
    | _ => exact ih h

theorem stickyInv_recorded {s : State} (h : s.StickyInv) (evs : List Event) : (s.recorded evs).StickyInv :=
  recordErrors_sticky_high evs (r := s.errRegs) h

theorem inv_recorded {s : State} (h : s.Inv) (evs : List Event) : (s.recorded evs).Inv := by
  obtain ⟨hp, hout, hin, hline, hlink, hst⟩ := (inv_iff s).1 h
  exact (inv_iff _).2 ⟨hp, hout, hin, hline, hlink, stickyInv_recorded hst evs⟩

theorem inv_respond {s : State} (h : s.Inv) (v : Resp) : (respond v s).Inv := h

theorem inv_raise {s : State} (h : s.Inv) (k : ErrKind) (a1 a2 : Word) : (raise k a1 a2 s).Inv :=
  inv_recorded h [.err k a1 a2]

theorem inv_acknowledge {s : State} (h : s.Inv) (m : Byte) : (acknowledge m s).Inv := by
  obtain ⟨hp, hout, hin, hline, hlink, hst⟩ := (inv_iff s).1 h
  refine (inv_iff _).2 ⟨hp, hout, hin, hline, hlink, ?_⟩
  change s.errSticky &&& ~~~(maskOperand m) &&& 0xC0#8 = 0x00#8
  rw [BitVec.and_assoc, BitVec.and_comm _ 0xC0#8, ← BitVec.and_assoc, show s.errSticky &&& 0xC0#8 = 0x00#8 from hst,
    BitVec.zero_and]

end Sys2Proof.Machine
end

section
/-! PROOFS. The invariant under the encoder operations (40_codec.md R104, R105): every slot that becomes pending is
written. -/

namespace Sys2Proof.Machine

theorem isSome_read?_write {m : Memory} {i a : Nat} {b : Byte} (h : a = i ∨ (m.read? a).isSome = true) :
    ((m.write i b).read? a).isSome = true := by
  rw [Memory.read?_write]
  split
  · rfl
  · rename_i hne
    exact h.resolve_left hne

/-- A slot is written after a list of bytes if it was before or is one of the list's. -/
theorem isSome_read?_writeFrom {n : Nat} {m : Memory} {i a : Nat} {l : List Byte} (hi : i < n)
    (h : (m.read? a).isSome = true ∨ ∃ k < l.length, a = (i + k) % n) :
    ((writeFrom n m i l).read? a).isSome = true := by
  induction l generalizing m i with
  | nil =>
    rcases h with h | ⟨k, hk, _⟩
    · exact h
    · exact (Nat.not_lt_zero k hk).elim
  | cons b bs ih =>
    refine ih (Nat.mod_lt _ (by omega)) ?_
    rcases h with h | ⟨k, hk, ha⟩
    · exact .inl (isSome_read?_write (.inr h))
    · cases k with
      | zero => exact .inl (isSome_read?_write (.inl (by rw [ha, Nat.add_zero, Nat.mod_eq_of_lt hi])))
      | succ k =>
        refine .inr ⟨k, by simpa using hk, ?_⟩
        rw [ha, Nat.mod_add_mod, Nat.add_assoc, Nat.add_comm 1 k]

/-- Pending slots were pending before or are among the slots just written, also when LAP wraps past `or`. -/
theorem outputInv_appendBytes {s : State} (h : s.OutputInv) (l : List Byte) : (s.appendBytes l).OutputInv := by
  obtain ⟨hw, hr, hwf, hslots, hpend⟩ := h
  refine ⟨appendBytes_ow_lt hw l, hr, writeFrom_wf hwf _ l, writeFrom_mem hw hslots l, fun k hk => ?_⟩
  have hle : (s.appendBytes l).count ≤ s.count + l.length := by
    rw [count_appendBytes hr]
    exact Nat.mod_le _ _
  refine isSome_read?_writeFrom hw ?_
  by_cases hold : k < s.count
  · exact .inl (hpend k hold)
  · obtain ⟨j, rfl⟩ : ∃ j, k = s.count + j := ⟨k - s.count, by omega⟩
    refine .inr ⟨j, by omega, ?_⟩
    calc (s.or + (s.count + j)) % s.params.nOut
        = ((s.or + s.count) % s.params.nOut + j) % s.params.nOut := by rw [Nat.mod_add_mod, Nat.add_assoc]
      _ = (s.ow + j) % s.params.nOut := by rw [State.or_add_count hw hr]

theorem inv_encoded {s : State} (h : s.Inv) (i : Instr) (o : Bool) (c : Word) (a : Bool) :
    ({ (s.encoded i o).setCrc c with encActive := a } : State).Inv := by
  obtain ⟨hp, hout, hin, hline, hlink, hst⟩ := (inv_iff s).1 h
  exact (inv_iff _).2 ⟨hp, outputInv_appendBytes hout _, hin, hline, hlink,
    stickyInv_recorded (s := s.appendBytes (s.appended i)) hst (s.encoderErrors i o)⟩

end Sys2Proof.Machine
end

section
/-! PROOFS. The invariant under the flow operations (41_output_flow.md R143 to R146). -/

namespace Sys2Proof.Machine

/-- The byte at `or` leaves a buffer that is not empty; the slots still pending were pending before. -/
theorem outputInv_next {s : State} (h : s.OutputInv) (hne : s.ow ≠ s.or) :
    ({ s with or := s.nextSlot s.or } : State).OutputInv := by
  obtain ⟨hw, hr, hwf, hslots, hpend⟩ := h
  refine ⟨hw, Nat.mod_lt _ (by omega), hwf, hslots, fun k hk => ?_⟩
  have hcount := count_next hw hr hne
  have hslot := hpend (k + 1) (by omega)
  simpa only [State.nextSlot, Nat.mod_add_mod, Nat.add_assoc, Nat.add_comm 1 k] using hslot

theorem FlowWrites.outputInv {u t : State} (h : FlowWrites u t) (hu : u.OutputInv) : t.OutputInv := by
  obtain ⟨v, hv, d, ht⟩ := h
  have hvi : v.OutputInv := by rcases hv with rfl | rfl <;> exact hu
  rcases ht with rfl | ⟨_, hne, _, rfl⟩
  · exact hvi
  · exact outputInv_next hvi hne

theorem outputInv_flow {i : Instr} {s t : State} (hi : isFlow i = true) (hs : s.OutputInv) (h : exec i s = .next t) :
    t.OutputInv := by
  obtain ⟨hw, _⟩ := flow_next hi h
  obtain ⟨_, _, _, _, hu, _⟩ := flowStart_eq s hi
  exact hw.outputInv (by rw [hu]; exact hs)

theorem lineInv_updateLine (s : State) : (updateLine s).LineInv := fun _ => rfl

theorem lineInv_lineUpdated {s : State} (h : s.LineInv) : s.lineUpdated.LineInv := by
  rcases lineUpdated_cases s with e | e <;> rw [e]
  · exact h
  · exact lineInv_updateLine s

/-- The flush body starts draining exactly when it submits a byte. -/
theorem flushBody_line_link {u t : State} (h : flushBody u = .ok t) (hline : u.LineInv) (hlink : u.LinkInv) :
    t.LineInv ∧ t.LinkInv := by
  rcases flushBody_ok h with ⟨_, rfl⟩ | ⟨_, _, rfl⟩ | ⟨_, _, _, _, _, rfl⟩
  · exact ⟨hline, hlink⟩
  · exact ⟨lineInv_updateLine u, hlink⟩
  · exact ⟨hline, rfl⟩

/-- TX_READY finds the link idle after the LINK agent's side, and goes on draining exactly when it submits a byte. -/
theorem transmitComplete_line_link {u t : State} (h : transmitComplete u = .ok t) (hline : u.LineInv)
    (hidle : u.linkByte = none) : t.LineInv ∧ t.LinkInv := by
  have hlu : u.lineUpdated.LineInv := lineInv_lineUpdated hline
  rcases transmitComplete_ok h with ⟨hd, rfl⟩ | ⟨_, _, rfl⟩ | ⟨hd, _, _, _, rfl⟩
  · exact ⟨hline, by simp [State.LinkInv, State.linkBusy, hd, hidle]⟩
  · exact ⟨hlu, by simp [State.LinkInv, State.linkBusy, hidle]⟩
  · exact ⟨hlu, (lineUpdated_draining u).trans hd⟩

/-- A flow operation starts its shared body with the line in order: INHIBIT_START and INHIBIT_STOP mark an update. -/
theorem lineInv_flowStart {i : Instr} {s : State} (hi : isFlow i = true) (h : s.LineInv) : (s.flowStart i).LineInv := by
  cases i <;> cases hi
  case flush d => exact h
  case inhibitStart d => exact fun e => Bool.noConfusion e
  case inhibitStop d => exact fun e => Bool.noConfusion e
  case txReady d =>
    rcases linkDone_cases (respond .nothing s) with ⟨_, e⟩ | ⟨_, _, e⟩ <;> simp only [State.flowStart, e] <;> exact h

theorem flow_line_link {i : Instr} {s t : State} (hi : isFlow i = true) (hline : s.LineInv) (hlink : s.LinkInv)
    (h : exec i s = .next t) : t.LineInv ∧ t.LinkInv := by
  obtain ⟨_, hbody⟩ := flow_next hi h
  have hstart := lineInv_flowStart hi hline
  obtain ⟨_, _, lb, _, hu, hother, htx⟩ := flowStart_eq s hi
  rcases hbody with ⟨hi', hb⟩ | ⟨hi', hb⟩
  · obtain ⟨_, _, hidle, _⟩ := htx hi'
    exact transmitComplete_line_link hb hstart (by rw [hu]; exact hidle)
  · obtain ⟨hlb, _⟩ := hother hi'
    refine flushBody_line_link hb hstart ?_
    rw [hu, hlb]
    exact hlink

theorem inv_flow {i : Instr} {s t : State} (hi : isFlow i = true) (hs : s.Inv) (h : exec i s = .next t) : t.Inv := by
  obtain ⟨hp, hout, hin, hline, hlink, hst⟩ := (inv_iff s).1 hs
  obtain ⟨hline', hlink'⟩ := flow_line_link hi hline hlink h
  have hout' := outputInv_flow hi hout h
  obtain ⟨_, _, _, _, _, _, _, _, rfl, _⟩ := flow_frame hi h
  exact (inv_iff _).2 ⟨hp, hout', hin, hline', hlink', hst⟩

end Sys2Proof.Machine
end

section
/-! PROOFS. The invariant under the input operations (42_input.md R170 to R178). -/

namespace Sys2Proof.Machine

theorem not_held_of_assembling {s : State} (h : s.InputInv) (hst : s.rxState = .assembling) : s.rxHeld = false := by
  obtain ⟨_, ⟨hwin, _⟩, _⟩ := h
  cases hh : s.rxHeld with
  | false => rfl
  | true =>
    obtain ⟨hw, _⟩ := hwin hh
    exact RxState.noConfusion (hst.symm.trans hw)

/-- With no frame held, an assembler that is emptied needs no slot written. -/
theorem inputInv_emptied {s t : State} (h : s.InputInv) (hp : t.params = s.params) (hi : t.ibuf = s.ibuf)
    (hf : t.fill = 0) (hh : t.rxHeld = false) : t.InputInv := by
  obtain ⟨_, _, hwf, hslots, _⟩ := h
  refine ⟨by omega, ⟨fun e => ?_, fun _ _ => hf⟩, by rw [hi]; exact hwf, by rw [hi, hp]; exact hslots, fun i h => ?_⟩
  · exact Bool.noConfusion (hh.symm.trans e)
  · omega

theorem decByte_fill_le (r : Byte) (s : State) : (decByte r s).fill ≤ s.fill + 1 := by
  by_cases hr : r = s.params.esc
  · subst hr
    rw [decByte_esc]
    exact Nat.le_succ _
  · rw [decByte_other hr]

/-- `ESC`, and a logical byte that finds no slot, are not stored (R171). -/
theorem decByte_ibuf_unstored {r : Byte} {s : State} (h : r = s.params.esc ∨ s.params.nIn ≤ s.fill) :
    (decByte r s).ibuf = s.ibuf := by
  by_cases hr : r = s.params.esc
  · subst hr
    rw [decByte_esc]
  · rw [decByte_other hr]
    exact if_neg (Nat.not_lt.2 (h.resolve_left hr))

theorem decByte_params (r : Byte) (s : State) : (decByte r s).params = s.params := by
  obtain ⟨_, _, _, _, e⟩ := decByte_frame r s
  rw [e]

theorem decByte_rxHeld (r : Byte) (s : State) : (decByte r s).rxHeld = s.rxHeld := by
  obtain ⟨_, _, _, _, e⟩ := decByte_frame r s
  rw [e]

theorem decByte_draws (r : Byte) (s : State) : (decByte r s).draws = s.draws := by
  obtain ⟨_, _, _, _, e⟩ := decByte_frame r s
  rw [e]

/-- DecByte inside a frame, when the byte finds a slot: the slot at `fill` is written, and `fill` steps past it. -/
theorem inputInv_decByte {s : State} {r : Byte} (h : s.InputInv) (hst : s.rxState = .assembling)
    (hf : (decByte r s).fill ≤ s.params.nIn) : (decByte r s).InputInv := by
  by_cases hr : r = s.params.esc
  · subst hr
    rw [decByte_esc]
    exact h
  · have hh := not_held_of_assembling h hst
    obtain ⟨_, _, hwf, hslots, hfill⟩ := h
    rw [decByte_other hr] at hf ⊢
    have hlt : s.fill < s.params.nIn := hf
    rw [if_pos hlt]
    refine ⟨hf, ⟨fun e => ?_, fun e => ?_⟩, Memory.wf_write hwf _ _, fun c hc => ?_, fun i hi => ?_⟩
    · exact Bool.noConfusion (hh.symm.trans e)
    · exact RxState.noConfusion (hst.symm.trans e)
    · rcases Memory.mem_write hc with hc | hc
      · exact hc ▸ hlt
      · exact hslots c hc
    · refine isSome_read?_write ?_
      rcases Nat.lt_succ_iff_lt_or_eq.1 hi with hi | hi
      · exact .inr (hfill i hi)
      · exact .inl hi

theorem inputInv_receiveClosingFlag {s t : State} (h : s.InputInv) (hst : s.rxState = .assembling)
    (ht : receiveClosingFlag s = .ok t) : t.InputInv := by
  have hh := not_held_of_assembling h hst
  rcases receiveClosingFlag_ok ht with ⟨_, h3, _, rfl⟩ | ⟨_, rfl⟩
  · obtain ⟨hf, _, hwf, hslots, hfill⟩ := h
    have h2 : s.fill - 2 < s.fill := by omega
    have h1 : 1 ≤ s.fill - 2 := by omega
    have hcap : s.fill - 2 + 2 ≤ s.params.nIn := by omega
    exact ⟨by simp only [emit_fill, emit_params]; omega, ⟨fun _ => ⟨rfl, h1, hcap⟩, fun _ e => Bool.noConfusion e⟩,
      hwf, hslots, fun i hi => hfill i (Nat.lt_trans hi h2)⟩
  · exact inputInv_emptied h rfl rfl rfl hh

theorem inputInv_receive {r : Byte} {s t : State} (h : s.InputInv) (hn : 1 ≤ s.params.nIn) (hh : s.rxHeld = false)
    (ht : receive r s = .ok t) : t.InputInv := by
  rcases receive_ok ht with ⟨_, _, rfl⟩ | ⟨_, _, _, rfl⟩ | ⟨hst, _, hf, rfl⟩ | ⟨_, _, hf, rfl⟩ | ⟨hst, _, u, hu, rfl⟩
  · exact h
  · have ho : s.opened.InputInv := inputInv_emptied h rfl rfl rfl hh
    exact inputInv_decByte (r := r) ho rfl (Nat.le_trans (decByte_fill_le r s.opened) hn)
  · exact inputInv_decByte h hst hf
  · have hfull : s.params.nIn ≤ s.fill := Nat.le_of_lt_succ (Nat.lt_of_lt_of_le hf (decByte_fill_le r s))
    have hopen : (decByte r s).rxHeld = false := (decByte_rxHeld r s).trans hh
    exact inputInv_emptied h (decByte_params r s) (decByte_ibuf_unstored (.inr hfull)) rfl hopen
  · exact inputInv_receiveClosingFlag (t := u) h hst hu

theorem inv_receive {r : Byte} {s t : State} (h : s.Inv) (hh : s.rxHeld = false) (ht : receive r s = .ok t) :
    t.Inv := by
  obtain ⟨hp, hout, hin, hline, hlink, hst⟩ := (inv_iff s).1 h
  have ⟨_, _, _, _, hn, _⟩ := hp
  have hin' := inputInv_receive hin (by omega) hh ht
  obtain ⟨_, _, _, _, _, _, evs, _, rfl⟩ := receive_frame ht
  exact (inv_iff _).2 ⟨hp, hout, hin', hline, hlink, recordErrors_sticky_high evs (r := s.errRegs) hst⟩

theorem inv_released {s : State} (h : s.Inv) : ({ s with fill := 0, rxHeld := false } : State).Inv := by
  obtain ⟨hp, hout, hin, hline, hlink, hst⟩ := (inv_iff s).1 h
  exact (inv_iff _).2 ⟨hp, hout, inputInv_emptied hin rfl rfl rfl rfl, hline, hlink, hst⟩

end Sys2Proof.Machine
end

section
/-! PROOFS. The invariant under every operation and every step (10_state.md R42). -/

namespace Sys2Proof.Machine

theorem inv_init {d : Byte} {s t : State} (h : s.params.WellFormed) (ht : exec (.init d) s = .next t) : t.Inv := by
  obtain ⟨_, rfl, _⟩ := init_next ht
  exact resetWith_inv h

/-- Every operation keeps the invariant. -/
theorem inv_exec {i : Instr} {s t : State} (h : s.Inv) (ht : exec i s = .next t) : t.Inv := by
  have ⟨hp, ⟨hw, hr, _⟩, _⟩ := h
  cases i with
  | nop d | outStatus d | errStatus d | errArgs d | crcStatus d =>
    cases ht
    exact inv_respond h _
  | inStatus d =>
    rcases inStatus_next ht with ⟨_, _, rfl⟩ | ⟨_, rfl⟩
    · exact inv_respond h _
    · exact inv_respond h _
  | errClear m =>
    rw [errClear_next ht]
    exact inv_acknowledge (inv_respond h _) m
  | init d => exact inv_init hp ht
  | encOpen d =>
    rw [exec_encOpen hw hr] at ht
    cases ht
    exact inv_encoded h _ _ _ _
  | encByte b =>
    rw [exec_encByte hw hr] at ht
    cases ht
    exact inv_encoded h _ _ _ s.encActive
  | encClose d =>
    rw [exec_encClose hw hr] at ht
    cases ht
    exact inv_encoded h _ _ _ _
  | flush d | inhibitStart d | inhibitStop d | txReady d => exact inv_flow rfl h ht
  | rxByte r =>
    rcases rxByte_next ht with ⟨_, rfl⟩ | ⟨hh, ht⟩
    · exact h
    · exact inv_receive (inv_respond h .nothing) hh ht
  | inRead n =>
    rcases inRead_next ht with ⟨_, rfl⟩ | ⟨_, _, rfl⟩
    · exact inv_respond (inv_raise h _ _ _) _
    · exact inv_respond h _
  | frameRelease d =>
    rcases frameRelease_next ht with ⟨_, rfl⟩ | ⟨_, rfl⟩
    · exact inv_released (inv_respond h .nothing)
    · exact inv_raise (inv_respond h .nothing) _ _ _

/-- Settles O57: a step does nothing, resets, raises E_ILLEGAL_OP, or runs an operation; what is still to arrive is no
part of the invariant. -/
theorem everyStepKeepsTheInvariant : Obligations.EveryStepKeepsTheInvariant := by
  intro s t h ht
  rcases step_cases s with ⟨_, e⟩ | ⟨rest, _, e⟩ | ⟨_, w, rest, _, _, e⟩ | ⟨_, _, rest, i, _, _, e⟩ <;> rw [e] at ht
  · cases ht
    exact h
  · obtain ⟨hp, _⟩ := h
    exact inv_init (d := 0x00#8) (s := { s with arrivals := rest }) hp ht
  · cases ht
    exact inv_raise (s := respond .nothing { s with arrivals := rest }) h _ _ _
  · exact inv_exec (s := { s with arrivals := rest }) h ht

end Sys2Proof.Machine
end

section
/-! PROOFS. The unspecified contents of the buffers (10_state.md R23, R31, R44): a slot that a rule reads has been
written, so another draw of the free bytes gives the same byte there. -/

namespace Sys2Proof.Machine

/-- `s` with another draw of its free bytes. -/
def State.redrawn (s : State) (n : Nat) : State :=
  { s with draws := n }

theorem obufByte_redrawn {s : State} {a : Nat} (h : (s.obuf.read? a).isSome = true) (n : Nat) :
    (s.redrawn n).obufByte a = s.obufByte a := by
  obtain ⟨b, hb⟩ := Option.isSome_iff_exists.1 h
  simp [State.obufByte, State.redrawn, hb]

theorem ibufByte_redrawn {s : State} {a : Nat} (h : (s.ibuf.read? a).isSome = true) (n : Nat) :
    (s.redrawn n).ibufByte a = s.ibufByte a := by
  obtain ⟨b, hb⟩ := Option.isSome_iff_exists.1 h
  simp [State.ibufByte, State.redrawn, hb]

theorem map_ibufByte_redrawn {s : State} {l : List Nat} (h : ∀ a ∈ l, (s.ibuf.read? a).isSome = true) (n : Nat) :
    l.map (s.redrawn n).ibufByte = l.map s.ibufByte :=
  List.map_congr_left fun a ha => ibufByte_redrawn (h a ha) n

/-! ### The output channel -/

/-- The byte that a non-empty buffer gives next has been written. -/
theorem head_written {s : State} (h : s.OutputInv) (hne : s.ow ≠ s.or) : (s.obuf.read? s.or).isSome = true := by
  obtain ⟨hw, hr, _, _, hpend⟩ := h
  have hpos : 0 < s.count := Nat.pos_of_ne_zero fun e => hne ((State.count_eq_zero hw hr).1 e)
  have hslot := hpend 0 hpos
  rwa [Nat.add_zero, Nat.mod_eq_of_lt hr] at hslot

theorem submittedNext_redrawn {s : State} (h : s.OutputInv) (hne : s.ow ≠ s.or) (n : Nat) :
    (s.redrawn n).submittedNext = s.submittedNext.redrawn n := by
  have hb : (s.redrawn n).obufByte s.or = s.obufByte s.or := obufByte_redrawn (head_written h hne) n
  change ({ submit ((s.redrawn n).obufByte s.or) (s.redrawn n) with or := s.nextSlot s.or } : State) = _
  rw [hb]
  rfl

theorem flushBody_redrawn {s t : State} (hs : s.OutputInv) (h : flushBody s = .ok t) (n : Nat) :
    flushBody (s.redrawn n) = .ok (t.redrawn n) := by
  rcases flushBody_ok h with ⟨hc, rfl⟩ | ⟨hd, hsig, rfl⟩ | ⟨hd, hsig, hi, hne, hr, rfl⟩
  · exact flushBody_skip hc
  · exact flushBody_update (s := s.redrawn n) hd hsig
  · have hsub := flushBody_submit (s := s.redrawn n) hd hsig hi hne hr
    rwa [submittedNext_redrawn hs hne] at hsub

theorem lineUpdated_redrawn (s : State) (n : Nat) : (s.redrawn n).lineUpdated = s.lineUpdated.redrawn n := by
  change (if s.sigChanged = true then _ else _) = (if s.sigChanged = true then _ else _ : State).redrawn n
  split <;> rfl

theorem outputInv_lineUpdated {s : State} (h : s.OutputInv) : s.lineUpdated.OutputInv := by
  rcases lineUpdated_cases s with e | e <;> rw [e] <;> exact h

theorem transmitComplete_redrawn {s t : State} (hs : s.OutputInv) (h : transmitComplete s = .ok t) (n : Nat) :
    transmitComplete (s.redrawn n) = .ok (t.redrawn n) := by
  rcases transmitComplete_ok h with ⟨hd, rfl⟩ | ⟨hd, hc, rfl⟩ | ⟨hd, hi, hne, hr, rfl⟩
  · exact transmitComplete_spurious hd
  · have hstop := transmitComplete_stop (s := s.redrawn n) hd hc
    rwa [lineUpdated_redrawn] at hstop
  · have hsub := transmitComplete_submit (s := s.redrawn n) hd hi hne hr
    rwa [lineUpdated_redrawn, submittedNext_redrawn (outputInv_lineUpdated hs) (by simpa using hne)] at hsub

theorem linkDone_redrawn (s : State) (n : Nat) : linkDone (s.redrawn n) = (linkDone s).redrawn n := by
  cases h : s.linkByte <;> simp [linkDone, State.redrawn, h]

theorem outputInv_linkDone {s : State} (h : s.OutputInv) : (linkDone s).OutputInv := by
  rcases linkDone_cases s with ⟨_, e⟩ | ⟨_, _, e⟩ <;> rw [e] <;> exact h

/-! ### The input assembler -/

theorem decByte_redrawn (r : Byte) (s : State) (n : Nat) : decByte r (s.redrawn n) = (decByte r s).redrawn n := by
  by_cases hr : r = s.params.esc
  · subst hr
    rw [decByte_esc]
    exact decByte_esc (s.redrawn n)
  · rw [decByte_other hr]
    exact decByte_other (s := s.redrawn n) hr

theorem receive_redrawn {r : Byte} {s t : State} (hs : s.InputInv) (h : receive r s = .ok t) (n : Nat) :
    receive r (s.redrawn n) = .ok (t.redrawn n) := by
  rcases receive_ok h with ⟨hst, hc, rfl⟩ | ⟨hst, hl, hr, rfl⟩ | ⟨hst, hr, hf, rfl⟩ | ⟨hst, hr, hf, rfl⟩ |
    ⟨hst, rfl, u, hu, rfl⟩
  · exact receive_ignored (s := s.redrawn n) hst hc
  · have ho := receive_start (s := s.redrawn n) hst hl hr
    rw [show (s.redrawn n).opened = s.opened.redrawn n from rfl, decByte_redrawn] at ho
    exact ho
  · have ho := receive_inFrame (s := s.redrawn n) hst hr (by rw [decByte_redrawn]; exact hf)
    rw [decByte_redrawn] at ho
    exact ho
  · have ho := receive_overflow (s := s.redrawn n) hst hr (by rw [decByte_redrawn]; exact hf)
    rw [decByte_redrawn] at ho
    exact ho
  · obtain ⟨hf, _, _, _, hfill⟩ := hs
    rcases receiveClosingFlag_ok hu with ⟨hc, h3, hf2, rfl⟩ | ⟨hc, rfl⟩
    · have ho := receive_dispatch (s := s.redrawn n) hst hf2 hc h3
      have hslots : ∀ a ∈ List.range (s.fill - 2), (s.ibuf.read? a).isSome = true := fun a ha =>
        hfill a (Nat.lt_of_lt_of_le (List.mem_range.1 ha) (Nat.sub_le _ 2))
      rw [show (s.redrawn n).fill = s.fill from rfl, map_ibufByte_redrawn hslots] at ho
      exact ho
    · exact receive_bad (s := s.redrawn n) hst (Nat.le_trans hf (Nat.le_add_right _ 2)) hc

/-! ### The operations -/

/-- IN_READ reads slots `1` to `n` with `n ≤ fill - 1`, which the filled slots cover (R177). -/
theorem inRead_redrawn {d : Byte} {s t : State} (hs : s.InputInv) (h : exec (.inRead d) s = .next t) (n : Nat) :
    exec (.inRead d) (s.redrawn n) = .next (t.redrawn n) := by
  rcases inRead_next h with ⟨ha, rfl⟩ | ⟨ha, hr, rfl⟩
  · exact exec_inRead_tooLarge (s := s.redrawn n) ha
  · obtain ⟨_, _, _, _, hfill⟩ := hs
    have hav : s.avail ≤ s.fill - 1 := by unfold State.avail; split <;> omega
    have hslots : ∀ a ∈ List.range' 1 d.toNat, (s.ibuf.read? a).isSome = true := fun a hm => by
      obtain ⟨h1, h2⟩ := List.mem_range'_1.1 hm
      exact hfill a (by omega)
    have ho := exec_inRead_payload (s := s.redrawn n) ha hr
    rwa [map_ibufByte_redrawn hslots] at ho

/-- IN_STATUS reads slot 0 in the dispatch window only, where a held frame has filled it (R202). -/
theorem inStatus_redrawn {d : Byte} {s t : State} (hs : s.InputInv) (h : exec (.inStatus d) s = .next t) (n : Nat) :
    exec (.inStatus d) (s.redrawn n) = .next (t.redrawn n) := by
  rcases inStatus_next h with ⟨hh, hn, rfl⟩ | ⟨hh, rfl⟩
  · obtain ⟨_, ⟨hwin, _⟩, _, _, hfill⟩ := hs
    obtain ⟨_, hpos, _⟩ := hwin hh
    have ho := exec_inStatus_held (d := d) (s := s.redrawn n) hh hn
    rwa [ibufByte_redrawn (hfill 0 hpos)] at ho
  · exact exec_inStatus_open (s := s.redrawn n) hh

theorem frameRelease_redrawn {d : Byte} {s t : State} (h : exec (.frameRelease d) s = .next t) (n : Nat) :
    exec (.frameRelease d) (s.redrawn n) = .next (t.redrawn n) := by
  rcases frameRelease_next h with ⟨hh, rfl⟩ | ⟨hh, rfl⟩
  · exact exec_frameRelease_held (s := s.redrawn n) hh
  · exact exec_frameRelease_open (s := s.redrawn n) hh

theorem rxByte_redrawn {r : Byte} {s t : State} (hs : s.InputInv) (h : exec (.rxByte r) s = .next t) (n : Nat) :
    exec (.rxByte r) (s.redrawn n) = .next (t.redrawn n) := by
  rcases rxByte_next h with ⟨hh, rfl⟩ | ⟨hh, h⟩
  · exact exec_rxByte_held (s := s.redrawn n) hh
  · rw [exec_rxByte (s := s.redrawn n) hh]
    exact finish_next.2 (receive_redrawn (s := respond .nothing s) hs h n)

/-- Settles O60: the encoder and the status reads of stored fields read no slot; the flow operations read the slot at
`or` of a buffer that is not empty, and the input operations filled slots only. -/
theorem unspecifiedContentsAreNeverObserved : Obligations.UnspecifiedContentsAreNeverObserved := by
  intro i s t n hs hinit h
  obtain ⟨_, hout, hin, _⟩ := (inv_iff s).1 hs
  have ⟨hw, hr, _⟩ := hout
  cases i with
  | init d => exact absurd rfl (hinit d)
  | nop d | outStatus d | errStatus d | errArgs d | crcStatus d | errClear m =>
    cases h
    rfl
  | encOpen d =>
    rw [exec_encOpen hw hr] at h
    cases h
    exact exec_encOpen (s := s.redrawn n) hw hr d
  | encByte b =>
    rw [exec_encByte hw hr] at h
    cases h
    exact exec_encByte (s := s.redrawn n) hw hr b
  | encClose d =>
    rw [exec_encClose hw hr] at h
    cases h
    exact exec_encClose (s := s.redrawn n) hw hr d
  | flush d => exact finish_next.2 (flushBody_redrawn (s := respond .nothing s) hout (finish_next.1 h) n)
  | inhibitStart d =>
    exact finish_next.2 (flushBody_redrawn (s := s.flowStart (.inhibitStart d)) hout (finish_next.1 h) n)
  | inhibitStop d =>
    exact finish_next.2 (flushBody_redrawn (s := s.flowStart (.inhibitStop d)) hout (finish_next.1 h) n)
  | txReady d =>
    have hbody := transmitComplete_redrawn (outputInv_linkDone (s := respond .nothing s) hout) (finish_next.1 h) n
    rw [← linkDone_redrawn] at hbody
    exact finish_next.2 hbody
  | inRead d => exact inRead_redrawn hin h n
  | inStatus d => exact inStatus_redrawn hin h n
  | frameRelease d => exact frameRelease_redrawn h n
  | rxByte r => exact rxByte_redrawn hin h n

end Sys2Proof.Machine
end

section
/-! PROOFS. The dispatch window (42_input.md R179; 60_exceptions.md R225): raw bytes wait, and every other arrival takes
its step past them. -/

namespace Sys2Proof.Machine

/-- Settles O5: held raw bytes are stepped over, and the operations in the window have one equation each. -/
theorem heldReceiveWaitsWhileOthersRun : Obligations.HeldReceiveWaitsWhileOthersRun := by
  intro s hh
  refine ⟨fun held a rest ha harr => ?_, fun held harr => ?_, fun r => exec_rxByte_held hh,
    fun d => ⟨_, exec_frameRelease_held hh, rfl, rfl⟩⟩
  · have htake := takeEnabled_held held (a :: rest)
    rw [takeEnabled_head (.inr ha)] at htake
    unfold step
    rw [hh, harr, htake]
    rfl
  · have htake := takeEnabled_held held []
    rw [List.append_nil] at htake
    unfold step
    rw [hh, harr, htake]
    rfl

end Sys2Proof.Machine
end

section
/-! PROOFS. The frames of RX_BYTE and of the consumer operations, and the last raw byte (42_input.md R174 to R178;
10_state.md R22, R31, R35). -/

namespace Sys2Proof.Machine

/-- DecByte writes at most the slot at `fill` (R171). -/
theorem decByte_ibufByte_other {r : Byte} {s : State} {a : Nat} (ha : a ≠ s.fill) :
    (decByte r s).ibufByte a = s.ibufByte a := by
  by_cases hr : r = s.params.esc ∨ s.params.nIn ≤ s.fill
  · exact ibufByte_congr (decByte_ibuf_unstored hr) (decByte_draws r s) a
  · rw [not_or, Nat.not_le] at hr
    obtain ⟨hesc, hlt⟩ := hr
    rw [decByte_other hesc, if_pos hlt]
    exact ibufByte_write_other rfl rfl ha

/-- In WAIT an RX_BYTE writes slot 0 at most, and only when it starts a frame with a byte other than `ESC`. -/
theorem receive_ibufByte_wait {r : Byte} {s t : State} {a : Nat} (h : receive r s = .ok t) (hst : s.rxState = .wait)
    (hc : a ≠ 0 ∨ r = s.params.flag ∨ r = s.params.esc ∨ s.lastRx ≠ s.params.flag) :
    t.ibufByte a = s.ibufByte a := by
  by_cases hstart : s.lastRx = s.params.flag ∧ r ≠ s.params.flag
  · obtain ⟨hl, hr⟩ := hstart
    rw [receive_start hst hl hr] at h
    cases h
    change (decByte r s.opened).ibufByte a = s.opened.ibufByte a
    rcases hc with ha | hf | rfl | hl'
    · exact decByte_ibufByte_other ha
    · exact absurd hf hr
    · exact congrArg (fun u => u.ibufByte a) (decByte_esc s.opened)
    · exact absurd hl hl'
  · rw [receive_ignored hst hstart] at h
    cases h
    rfl

/-- Inside a frame an RX_BYTE writes the slot at `fill` at most, and only when it is a byte that is stored. -/
theorem receive_ibufByte_assembling {r : Byte} {s t : State} {a : Nat} (h : receive r s = .ok t)
    (hst : s.rxState = .assembling)
    (hc : a ≠ s.fill ∨ r = s.params.flag ∨ r = s.params.esc ∨ s.params.nIn ≤ s.fill) :
    t.ibufByte a = s.ibufByte a := by
  have hdec (hr : r ≠ s.params.flag) : (decByte r s).ibufByte a = s.ibufByte a := by
    rcases hc with ha | hf | hs
    · exact decByte_ibufByte_other ha
    · exact absurd hf hr
    · exact ibufByte_congr (decByte_ibuf_unstored hs) (decByte_draws r s) a
  rcases receive_ok h with ⟨hw, _⟩ | ⟨hw, _⟩ | ⟨_, hr, _, rfl⟩ | ⟨_, hr, _, rfl⟩ | ⟨_, _, u, hu, rfl⟩
  · exact RxState.noConfusion (hst.symm.trans hw)
  · exact RxState.noConfusion (hst.symm.trans hw)
  · exact hdec hr
  · exact hdec hr
  · rcases receiveClosingFlag_ok hu with ⟨_, _, _, rfl⟩ | ⟨_, rfl⟩ <;> rfl

/-- Settles O40: a held byte is put back; an accepted one writes by its frame, and a slot by the state it is in. -/
theorem receiveFrame : Obligations.ReceiveFrame := by
  intro r s t h
  rcases rxByte_next h with ⟨hh, rfl⟩ | ⟨hh, h⟩
  · exact ⟨rfl, fun _ => rfl, fun _ _ => rfl, fun _ _ => rfl, fun e => Bool.noConfusion (hh.symm.trans e)⟩
  · have hwait (hst : s.rxState = .wait) (a : Nat) := receive_ibufByte_wait (s := respond .nothing s) (a := a) h hst
    have hasm (hst : s.rxState = .assembling) (a : Nat) :=
      receive_ibufByte_assembling (s := respond .nothing s) (a := a) h hst
    obtain ⟨_, _, _, _, _, _, _, _, rfl⟩ := receive_frame h
    refine ⟨rfl, fun _ => rfl, fun a ha => ?_, fun hc a => ?_, fun _ => rfl⟩
    · cases hst : s.rxState with
      | wait =>
        rw [hst] at ha
        exact hwait hst a (.inl ha)
      | assembling =>
        rw [hst] at ha
        exact hasm hst a (.inl ha)
    · rcases hc with hheld | hf | he | ⟨hst, hl⟩ | ⟨hst, hfull⟩
      · exact Bool.noConfusion (hh.symm.trans hheld)
      · cases hst : s.rxState with
        | wait => exact hwait hst a (.inr (.inl hf))
        | assembling => exact hasm hst a (.inr (.inl hf))
      · cases hst : s.rxState with
        | wait => exact hwait hst a (.inr (.inr (.inl he)))
        | assembling => exact hasm hst a (.inr (.inr (.inl he)))
      · exact hwait hst a (.inr (.inr (.inr hl)))
      · exact hasm hst a (.inr (.inr (.inr hfull)))

/-- No operation but RX_BYTE and INIT writes `last_rx` (R35). -/
theorem exec_lastRx {i : Instr} {s t : State} (hr : ∀ r, i ≠ .rxByte r) (hn : ∀ d, i ≠ .init d)
    (h : exec i s = .next t) : t.lastRx = s.lastRx := by
  cases i with
  | rxByte r => exact absurd rfl (hr r)
  | init d => exact absurd rfl (hn d)
  | encOpen d =>
    obtain ⟨_, _, _, _, _, _, _, rfl⟩ := encoderWrites_exec (.inl ⟨d, rfl⟩) h
    rfl
  | encByte b =>
    obtain ⟨_, _, _, _, _, _, _, rfl⟩ := encoderWrites_exec (.inr (.inl ⟨b, rfl⟩)) h
    rfl
  | encClose d =>
    obtain ⟨_, _, _, _, _, _, _, rfl⟩ := encoderWrites_exec (.inr (.inr ⟨d, rfl⟩)) h
    rfl
  | flush d | inhibitStart d | inhibitStop d | txReady d =>
    obtain ⟨_, _, _, _, _, _, _, _, rfl, _⟩ := flow_frame rfl h
    rfl
  | inRead n => rcases inRead_next h with ⟨_, rfl⟩ | ⟨_, _, rfl⟩ <;> rfl
  | inStatus d => rcases inStatus_next h with ⟨_, _, rfl⟩ | ⟨_, rfl⟩ <;> rfl
  | frameRelease d => rcases frameRelease_next h with ⟨_, rfl⟩ | ⟨_, rfl⟩ <;> rfl
  | nop d | outStatus d | errStatus d | errArgs d | crcStatus d | errClear m =>
    cases h
    rfl

/-- Settles O39: an accepted RX_BYTE records its byte in each of its cases, by its frame; the others by theirs. -/
theorem lastRawByteIsAlwaysRecorded : Obligations.LastRawByteIsAlwaysRecorded := by
  intro s t
  refine ⟨fun r hh h => ?_, fun i hi h => exec_lastRx (fun r => (hi r).1) (fun d => (hi d).2) h⟩
  rw [exec_rxByte hh] at h
  obtain ⟨_, _, _, _, _, _, _, _, rfl⟩ := receive_frame (finish_next.1 h)
  rfl

/-- Settles O43, by the two cases of each operation. -/
theorem consumerOperationsFrame : Obligations.ConsumerOperationsFrame := by
  intro d i s t hi h
  rcases List.mem_cons.1 hi with rfl | hi
  · rcases inRead_next h with ⟨_, rfl⟩ | ⟨_, _, rfl⟩ <;> exact ⟨rfl, fun _ => ⟨rfl, rfl⟩, fun _ => ⟨rfl, rfl⟩⟩
  · rcases List.mem_singleton.1 hi with rfl
    rcases frameRelease_next h with ⟨_, rfl⟩ | ⟨_, rfl⟩ <;>
      exact ⟨rfl, (fun e => nomatch e), fun _ => ⟨rfl, rfl⟩⟩

end Sys2Proof.Machine
end

section
/-! PROOFS. The output channel as a FIFO (20_memory.md R58; 10_state.md R23, R24): the bytes submitted and then the
bytes pending are one sequence, which the encoder operations extend at its end and no other operation but INIT
changes. -/

namespace Sys2Proof.Machine

/-- The bytes that have passed into the output channel, oldest first: those submitted in the history, then those
pending. -/
def State.channel (s : State) : List Byte :=
  txBytes s.history ++ s.pending

/-- A byte that is submitted leaves the front of the buffer, so the channel stays as it is. -/
theorem channel_submittedNext {s : State} (hw : s.ow < s.params.nOut) (hr : s.or < s.params.nOut) (hne : s.ow ≠ s.or) :
    s.submittedNext.channel = s.channel := by
  have hpend : s.pending = s.obufByte s.or :: s.submittedNext.pending := pending_cons hw hr hne
  have htx : txBytes s.submittedNext.history = txBytes s.history ++ [s.obufByte s.or] := txBytes_append _ _
  rw [State.channel, State.channel, htx, hpend, List.append_assoc, List.singleton_append]

/-- A line update is no submission. -/
theorem channel_updateLine (s : State) : (updateLine s).channel = s.channel := by
  have htx : txBytes (updateLine s).history = txBytes s.history :=
    (txBytes_append _ [.fc _]).trans (List.append_nil _)
  rw [State.channel, htx]
  rfl

theorem FlowWrites.channel {u t : State} (h : FlowWrites u t) (hw : u.ow < u.params.nOut) : t.channel = u.channel := by
  obtain ⟨v, hv, d, ht⟩ := h
  obtain ⟨hvw, hvu⟩ : v.ow < v.params.nOut ∧ v.channel = u.channel := by
    rcases hv with rfl | rfl
    · exact ⟨hw, rfl⟩
    · exact ⟨hw, channel_updateLine u⟩
  rcases ht with rfl | ⟨_, hne, hr, rfl⟩
  · exact hvu
  · exact (channel_submittedNext hvw hr hne).trans hvu

theorem channel_flow {i : Instr} {s t : State} (hi : isFlow i = true) (hw : s.ow < s.params.nOut)
    (h : exec i s = .next t) : t.channel = s.channel := by
  obtain ⟨hwrites, _⟩ := flow_next hi h
  obtain ⟨_, _, _, _, hu, _⟩ := flowStart_eq s hi
  rw [hu] at hwrites
  exact hwrites.channel hw

theorem onlyErrors_overflowErrors (pol : OvfPolicy) (free : Nat) (ls : List (List Byte)) :
    OnlyErrors (overflowErrors pol free ls) := by
  induction ls generalizing free with
  | nil => exact onlyErrors_nil
  | cons l ls ih =>
    cases pol with
    | lap => exact ih free
    | dropNewest =>
      rw [overflowErrors]
      split
      · exact ih _
      · exact (onlyErrors_single _ _ _).append (ih free)

theorem onlyErrors_encoderErrors (s : State) (i : Instr) (o : Bool) : OnlyErrors (s.encoderErrors i o) := by
  refine OnlyErrors.append ?_ (onlyErrors_overflowErrors _ _ _)
  split
  · exact onlyErrors_single _ _ _
  · exact onlyErrors_nil

/-- Under DROP_NEWEST the bytes that the buffer takes fit its free slots, so they all stand behind the pending ones. -/
theorem channel_encoded {s : State} (hw : s.ow < s.params.nOut) (hr : s.or < s.params.nOut)
    (hpol : s.params.policy = .dropNewest) (i : Instr) (o : Bool) (c : Word) (a : Bool) :
    ({ (s.encoded i o).setCrc c with encActive := a } : State).channel = s.channel ++ s.appended i := by
  have hfit : (s.appended i).length ≤ s.free := by
    rw [State.appended, hpol]
    exact accepted_length_le _ _
  have htx : txBytes (s.encoded i o).history = txBytes s.history := by
    change txBytes (s.history ++ s.encoderErrors i o) = _
    rw [txBytes_append, (onlyErrors_encoderErrors s i o).txBytes, List.append_nil]
  change txBytes (s.encoded i o).history ++ (s.appendBytes (s.appended i)).pending = _
  rw [htx, pending_appendBytes hw hr hfit, ← List.append_assoc]
  rfl

/-- Only the encoder operations and INIT write `obuf` and `ow`. -/
theorem exec_obuf_ow {i : Instr} {s t : State} (hpush : s.pushes i = []) (hinit : ∀ d, i ≠ .init d)
    (h : exec i s = .next t) : t.obuf = s.obuf ∧ t.ow = s.ow := by
  cases i with
  | init d => exact absurd rfl (hinit d)
  | encOpen d | encByte b | encClose d => cases hpush
  | flush d | inhibitStart d | inhibitStop d | txReady d =>
    obtain ⟨_, _, _, _, _, _, _, _, rfl, _⟩ := flow_frame rfl h
    exact ⟨rfl, rfl⟩
  | rxByte r =>
    rcases rxByte_next h with ⟨_, rfl⟩ | ⟨_, h⟩
    · exact ⟨rfl, rfl⟩
    · obtain ⟨_, _, _, _, _, _, _, _, rfl⟩ := receive_frame h
      exact ⟨rfl, rfl⟩
  | inRead n => rcases inRead_next h with ⟨_, rfl⟩ | ⟨_, _, rfl⟩ <;> exact ⟨rfl, rfl⟩
  | inStatus d => rcases inStatus_next h with ⟨_, _, rfl⟩ | ⟨_, rfl⟩ <;> exact ⟨rfl, rfl⟩
  | frameRelease d => rcases frameRelease_next h with ⟨_, rfl⟩ | ⟨_, rfl⟩ <;> exact ⟨rfl, rfl⟩
  | nop d | outStatus d | errStatus d | errArgs d | crcStatus d | errClear m =>
    cases h
    exact ⟨rfl, rfl⟩

/-- An operation that hands nothing to the output buffer keeps the channel: a flow operation moves at most one byte
from the buffer to the link, and any other writes neither side of it. -/
theorem channel_exec {i : Instr} {s t : State} (hpush : s.pushes i = []) (hinit : ∀ d, i ≠ .init d)
    (hw : s.ow < s.params.nOut) (h : exec i s = .next t) : t.channel = s.channel := by
  rcases exec_kinds h with ⟨d, rfl⟩ | hi | ⟨_, _, ⟨hp, hor, _, _, _, _, _, _, hd⟩, evs, hevs, hhist⟩
  · exact absurd rfl (hinit d)
  · exact channel_flow hi hw h
  · obtain ⟨hobuf, how⟩ := exec_obuf_ow hpush hinit h
    rw [State.channel, State.channel, hhist, txBytes_append, quiet_txBytes hevs, List.append_nil,
      pending_congr hp how hor hobuf hd]

/-- Settles O33: an encoder operation appends its bytes at the end of the channel, by its equation; every other
operation hands nothing to the buffer and keeps the channel. -/
theorem outputChannelIsAFifo : Obligations.OutputChannelIsAFifo := by
  intro i s t hw hr hpol hinit h
  change t.channel = s.channel ++ s.appended i
  have hother (hpush : s.pushes i = []) : t.channel = s.channel ++ s.appended i := by
    rw [State.appended, hpush, channel_exec hpush hinit hw h]
    exact (List.append_nil _).symm
  cases i with
  | encOpen d =>
    rw [exec_encOpen hw hr] at h
    cases h
    exact channel_encoded hw hr hpol _ _ _ _
  | encByte b =>
    rw [exec_encByte hw hr] at h
    cases h
    exact channel_encoded hw hr hpol _ _ _ s.encActive
  | encClose d =>
    rw [exec_encClose hw hr] at h
    cases h
    exact channel_encoded hw hr hpol _ _ _ _
  | _ => exact hother rfl

end Sys2Proof.Machine
end

section
/-! PROOFS. The status reads and NOP (20_memory.md R55). -/

namespace Sys2Proof.Machine

/-- Settles O9: each answers a response alone, computed from fields that the response is not among. -/
theorem statusReadsHaveNoSideEffect : Obligations.StatusReadsHaveNoSideEffect := by
  intro d i s t hi h
  simp only [List.mem_cons, List.not_mem_nil, or_false] at hi
  rcases hi with rfl | rfl | rfl | rfl | rfl | rfl
  case inr.inl =>
    rcases inStatus_next h with ⟨hh, hn, rfl⟩ | ⟨hh, rfl⟩
    · exact ⟨rfl, exec_inStatus_held (s := respond (.word (s.inStatusWord (s.ibufByte 0))) s) hh hn⟩
    · exact ⟨rfl, exec_inStatus_open (s := respond (.word (s.inStatusWord 0x00#8)) s) hh⟩
  all_goals
    cases h
    exact ⟨rfl, rfl⟩

end Sys2Proof.Machine
end

section
/-! PROOFS. A step on an operation word (20_memory.md R52; 30_encoding.md R70 to R75; 60_exceptions.md R230). -/

namespace Sys2Proof.Machine

/-- What a port reads from a word is the operation of that port that the word encodes. -/
theorem decode_eq_some_iff {p : Port} {w : Word} {i : Instr} : decode p w = some i ↔ i.port = p ∧ encode i = w := by
  unfold decode
  constructor
  · intro h
    split at h
    · cases h
    · rename_i j hj
      split at h
      · rename_i hp
        cases h
        exact ⟨eq_of_beq hp, encode_of_decodeWord hj⟩
      · cases h
  · rintro ⟨rfl, rfl⟩
    simp only [decodeWord_encode, Instr.wellFormedAt, beq_self_eq_true, if_true]

theorem arrive_ofInstr (i : Instr) (s : State) : arrive (Arrival.ofInstr i) s = exec i s := by
  have hdec : decode i.port (encode i) = some i := decode_eq_some_iff.2 ⟨rfl, rfl⟩
  simp only [Arrival.ofInstr, arrive, hdec]

/-- The enabling condition of an operation: RX_BYTE waits while a frame is held, and no other operation has one
(R179, R225). -/
def Enabled (i : Instr) (s : State) : Prop :=
  s.rxHeld = false ∨ ∀ r, i ≠ .rxByte r

/-- An enabled operation that arrives next at its own port is what the step runs. -/
theorem step_ofInstr {s : State} {i : Instr} {rest : List Arrival} (harr : s.arrivals = Arrival.ofInstr i :: rest)
    (hen : Enabled i s) : step s = exec i { s with arrivals := rest } := by
  have henabled : s.rxHeld = false ∨ (Arrival.ofInstr i).isReceive = false := by
    refine hen.imp_right fun hne => Bool.eq_false_iff.2 fun e => ?_
    obtain ⟨r, hr⟩ := (isReceive_ofInstr i).1 e
    exact hne r hr
  unfold step
  rw [harr, takeEnabled_head henabled]
  exact arrive_ofInstr i _

/-- Settles O4: the word is the encoding of the operation, at the operation's port. -/
theorem stepRunsDecodedOperation : Obligations.StepRunsDecodedOperation := by
  intro s p w rest i harr hdec hen
  obtain ⟨rfl, rfl⟩ := decode_eq_some_iff.1 hdec
  exact step_ofInstr harr hen

end Sys2Proof.Machine
end

section
/-! PROOFS. What is still to arrive (10_state.md R43; log 4): no operation depends on it, and the only one that changes
it is an RX_BYTE in the dispatch window, which puts its byte back (42_input.md R179; log 6). -/

namespace Sys2Proof.Machine

/-- `s` with other arrivals still to come. -/
def State.arriving (s : State) (as : List Arrival) : State :=
  { s with arrivals := as }

/-! ### Encoder operations -/

theorem raiseIf_arriving (c : Bool) (k : ErrKind) (a1 a2 : Word) (s : State) (as : List Arrival) :
    raiseIf c k a1 a2 (s.arriving as) = (raiseIf c k a1 a2 s).arriving as := by
  cases c <;> rfl

theorem oPush_arriving {l : List Byte} {s t : State} (h : oPush l s = .ok t) (as : List Arrival) :
    oPush l (s.arriving as) = .ok (t.arriving as) := by
  rcases oPush_ok h with ⟨hacc, ⟨rfl, rfl⟩ | ⟨hw, rfl⟩⟩ | ⟨hacc, rfl⟩
  · exact if_pos hacc
  · exact (if_pos hacc).trans (pushAll_eq (s := s.arriving as) hw l)
  · exact if_neg (Bool.eq_false_iff.1 hacc)

theorem encodeByte_arriving {b : Byte} {s t : State} (h : encodeByte b s = .ok t) (as : List Arrival) :
    encodeByte b (s.arriving as) = .ok (t.arriving as) :=
  oPush_arriving (s := { s with outCrc := s.params.crcStep s.outCrc b }) h as

/-- All that ENC_CLOSE does after its order check (R112). -/
theorem closeFrame_ok {s t : State} (h : closeFrame s = .ok t) : ∃ u v w, encodeByte (lowByte (~~~s.outCrc)) s = .ok u ∧
    encodeByte (highByte (~~~s.outCrc)) u = .ok v ∧ oPush [s.params.flag] v = .ok w ∧
    t = { w with encActive := false } := by
  unfold closeFrame at h
  simp only at h
  split at h
  · cases h
  · rename_i u hu
    split at h
    · cases h
    · rename_i v hv
      split at h
      · cases h
      · rename_i w hw
        exact ⟨u, v, w, hu, hv, hw, (Except.ok.inj h).symm⟩

theorem closeFrame_arriving {s t : State} (h : closeFrame s = .ok t) (as : List Arrival) :
    closeFrame (s.arriving as) = .ok (t.arriving as) := by
  obtain ⟨u, v, w, hu, hv, hw, rfl⟩ := closeFrame_ok h
  have hu' := encodeByte_arriving hu as
  have hv' := encodeByte_arriving hv as
  have hw' := oPush_arriving hw as
  simp only [State.arriving] at hu' hv' hw' ⊢
  simp only [closeFrame, hu', hv', hw']

/-- All that ENC_OPEN does (R110). -/
theorem exec_encOpen_next_iff {d : Byte} {s t : State} : exec (.encOpen d) s = .next t ↔ ∃ u,
    oPush [s.params.flag] ((raiseIf s.encActive .seq (encode (.encOpen d)) 0x0000#16 (respond .nothing s)).setCrc
      s.params.crcInit) = .ok u ∧ { u with encActive := true } = t := by
  constructor
  · intro h
    have h := finish_next.1 h
    split at h
    · cases h
    · rename_i u hu
      exact ⟨u, hu, Except.ok.inj h⟩
  · rintro ⟨u, hu, rfl⟩
    simp only [State.setCrc] at hu
    simp only [exec, execEncOpen, wordArg, hu, finish]

theorem exec_encOpen_arriving {d : Byte} {s t : State} (h : exec (.encOpen d) s = .next t) (as : List Arrival) :
    exec (.encOpen d) (s.arriving as) = .next (t.arriving as) := by
  obtain ⟨u, hu, rfl⟩ := exec_encOpen_next_iff.1 h
  refine exec_encOpen_next_iff.2 ⟨u.arriving as, ?_, rfl⟩
  have hraise := raiseIf_arriving s.encActive .seq (encode (.encOpen d)) 0x0000#16 (respond .nothing s) as
  exact (congrArg (fun v => oPush [s.params.flag] (v.setCrc s.params.crcInit)) hraise).trans (oPush_arriving hu as)

theorem exec_encByte_arriving {b : Byte} {s t : State} (h : exec (.encByte b) s = .next t) (as : List Arrival) :
    exec (.encByte b) (s.arriving as) = .next (t.arriving as) := by
  have hraise := raiseIf_arriving (!s.encActive) .seq (encode (.encByte b)) 0x0000#16 (respond .nothing s) as
  exact finish_next.2 ((congrArg (encodeByte b) hraise).trans (encodeByte_arriving (finish_next.1 h) as))

theorem exec_encClose_arriving {d : Byte} {s t : State} (h : exec (.encClose d) s = .next t) (as : List Arrival) :
    exec (.encClose d) (s.arriving as) = .next (t.arriving as) := by
  have hraise := raiseIf_arriving (!s.encActive) .seq (encode (.encClose d)) 0x0000#16 (respond .nothing s) as
  exact finish_next.2 ((congrArg closeFrame hraise).trans (closeFrame_arriving (finish_next.1 h) as))

/-! ### The output channel -/

theorem flushBody_arriving {s t : State} (h : flushBody s = .ok t) (as : List Arrival) :
    flushBody (s.arriving as) = .ok (t.arriving as) := by
  rcases flushBody_ok h with ⟨hc, rfl⟩ | ⟨hd, hsig, rfl⟩ | ⟨hd, hsig, hi, hne, hr, rfl⟩
  · exact flushBody_skip hc
  · exact flushBody_update (s := s.arriving as) hd hsig
  · exact flushBody_submit (s := s.arriving as) hd hsig hi hne hr

theorem lineUpdated_arriving (s : State) (as : List Arrival) :
    (s.arriving as).lineUpdated = s.lineUpdated.arriving as := by
  change (if s.sigChanged = true then _ else _) = (if s.sigChanged = true then _ else _ : State).arriving as
  split <;> rfl

theorem transmitComplete_arriving {s t : State} (h : transmitComplete s = .ok t) (as : List Arrival) :
    transmitComplete (s.arriving as) = .ok (t.arriving as) := by
  rcases transmitComplete_ok h with ⟨hd, rfl⟩ | ⟨hd, hc, rfl⟩ | ⟨hd, hi, hne, hr, rfl⟩
  · exact transmitComplete_spurious hd
  · have hstop := transmitComplete_stop (s := s.arriving as) hd hc
    rwa [lineUpdated_arriving] at hstop
  · have hsub := transmitComplete_submit (s := s.arriving as) hd hi hne hr
    rwa [lineUpdated_arriving] at hsub

theorem linkDone_arriving (s : State) (as : List Arrival) : linkDone (s.arriving as) = (linkDone s).arriving as := by
  cases h : s.linkByte <;> simp [linkDone, State.arriving, h]

theorem resetBlock_arriving (s : State) (as : List Arrival) :
    resetBlock (s.arriving as) = (resetBlock s).arriving as := by
  cases h : s.linkByte <;> simp [resetBlock, cancelLink, State.arriving, h]

/-! ### The input assembler -/

theorem decByte_arriving (r : Byte) (s : State) (as : List Arrival) :
    decByte r (s.arriving as) = (decByte r s).arriving as := by
  by_cases hr : r = s.params.esc
  · subst hr
    rw [decByte_esc]
    exact decByte_esc (s.arriving as)
  · rw [decByte_other hr]
    exact decByte_other (s := s.arriving as) hr

/-- A bad frame is reported at any fill level: past the end of the buffer no slot is read. -/
theorem receive_bad_any {s : State} (hst : s.rxState = .assembling)
    (hc : ¬(s.inCrc = s.params.crcGood ∧ 3 ≤ s.fill)) :
    receive s.params.flag s = .ok { raise .inBadFrame (countArg s.fill) 0x0000#16 s with
      fill := 0, rxState := .wait, lastRx := s.params.flag } := by
  by_cases hf : s.fill ≤ s.params.nIn + 2
  · exact receive_bad hst hf hc
  · have hcrc : s.inCrc ≠ s.params.crcGood := fun e => hc ⟨e, by omega⟩
    simp [receive, hst, receiveClosingFlag, decClose, hcrc, raise]

theorem receive_arriving {r : Byte} {s t : State} (h : receive r s = .ok t) (as : List Arrival) :
    receive r (s.arriving as) = .ok (t.arriving as) := by
  rcases receive_ok h with ⟨hst, hc, rfl⟩ | ⟨hst, hl, hr, rfl⟩ | ⟨hst, hr, hf, rfl⟩ | ⟨hst, hr, hf, rfl⟩ |
    ⟨hst, rfl, u, hu, rfl⟩
  · exact receive_ignored (s := s.arriving as) hst hc
  · have ho := receive_start (s := s.arriving as) hst hl hr
    rw [show (s.arriving as).opened = s.opened.arriving as from rfl, decByte_arriving] at ho
    exact ho
  · have ho := receive_inFrame (s := s.arriving as) hst hr (by rw [decByte_arriving]; exact hf)
    rw [decByte_arriving] at ho
    exact ho
  · have ho := receive_overflow (s := s.arriving as) hst hr (by rw [decByte_arriving]; exact hf)
    rw [decByte_arriving] at ho
    exact ho
  · rcases receiveClosingFlag_ok hu with ⟨hc, h3, hf, rfl⟩ | ⟨hc, rfl⟩
    · exact receive_dispatch (s := s.arriving as) hst hf hc h3
    · exact receive_bad_any (s := s.arriving as) hst hc

/-! ### The operations -/

/-- No operation that is enabled depends on what is still to arrive, or changes it. -/
theorem exec_arriving {i : Instr} {s t : State} (hen : Enabled i s) (h : exec i s = .next t) (as : List Arrival) :
    exec i (s.arriving as) = .next (t.arriving as) := by
  cases i with
  | encOpen d => exact exec_encOpen_arriving h as
  | encByte b => exact exec_encByte_arriving h as
  | encClose d => exact exec_encClose_arriving h as
  | flush d => exact finish_next.2 (flushBody_arriving (s := respond .nothing s) (finish_next.1 h) as)
  | inhibitStart d =>
    exact finish_next.2 (flushBody_arriving (s := s.flowStart (.inhibitStart d)) (finish_next.1 h) as)
  | inhibitStop d =>
    exact finish_next.2 (flushBody_arriving (s := s.flowStart (.inhibitStop d)) (finish_next.1 h) as)
  | txReady d =>
    have hbody := transmitComplete_arriving (finish_next.1 h) as
    rw [← linkDone_arriving] at hbody
    exact finish_next.2 hbody
  | inRead n =>
    rcases inRead_next h with ⟨ha, rfl⟩ | ⟨ha, hr, rfl⟩
    · exact exec_inRead_tooLarge (s := s.arriving as) ha
    · exact exec_inRead_payload (s := s.arriving as) ha hr
  | inStatus d =>
    rcases inStatus_next h with ⟨hh, hn, rfl⟩ | ⟨hh, rfl⟩
    · exact exec_inStatus_held (s := s.arriving as) hh hn
    · exact exec_inStatus_open (s := s.arriving as) hh
  | frameRelease d =>
    rcases frameRelease_next h with ⟨hh, rfl⟩ | ⟨hh, rfl⟩
    · exact exec_frameRelease_held (s := s.arriving as) hh
    · exact exec_frameRelease_open (s := s.arriving as) hh
  | rxByte r =>
    have hh : s.rxHeld = false := hen.resolve_right fun hne => hne r rfl
    rw [exec_rxByte hh] at h
    rw [exec_rxByte (s := s.arriving as) hh]
    exact finish_next.2 (receive_arriving (s := respond .nothing s) (finish_next.1 h) as)
  | init d =>
    cases h
    exact congrArg Host.Outcome.next (resetBlock_arriving (respond .nothing s) as)
  | nop d | outStatus d | errStatus d | errArgs d | crcStatus d | errClear m =>
    cases h
    rfl

theorem exec_arrivals {i : Instr} {s t : State} (hen : Enabled i s) (h : exec i s = .next t) :
    t.arrivals = s.arrivals := by
  have hsame : exec i s = .next (t.arriving s.arrivals) := exec_arriving hen h s.arrivals
  have heq : t = t.arriving s.arrivals := Host.Outcome.next.inj (h.symm.trans hsame)
  rw [heq]
  rfl

/-- An operation that leaves nothing to arrive was enabled: a held RX_BYTE puts its byte back. -/
theorem enabled_of_arrivals_nil {i : Instr} {s t : State} (h : exec i s = .next t) (ht : t.arrivals = []) :
    Enabled i s := by
  cases hh : s.rxHeld with
  | false => exact .inl hh
  | true =>
    refine .inr fun r hi => ?_
    rw [hi, exec_rxByte_held hh] at h
    cases h
    cases ht

end Sys2Proof.Machine
end

section
/-! PROOFS. Runs of the machine over operations that arrive in order (20_memory.md R52, R54; 60_exceptions.md R230). -/

namespace Sys2Proof.Machine

/-- A sequence of operations that leaves nothing to arrive began with nothing to arrive. -/
theorem runOps_arrivals_nil {is : List Instr} {s t : State} (h : runOps is s = .next t) (ht : t.arrivals = []) :
    s.arrivals = [] := by
  induction is generalizing s with
  | nil =>
    cases h
    exact ht
  | cons i is ih =>
    obtain ⟨u, hu, hrest⟩ := runOps_cons_next h
    have hu0 : u.arrivals = [] := ih hrest
    exact (exec_arrivals (enabled_of_arrivals_nil hu hu0) hu).symm.trans hu0

theorem core_run_succ {s t : State} {n : Nat} (h : step s = .next t) :
    Host.Core.run Sys2Proof.core (n + 1) s = Host.Core.run Sys2Proof.core n t := by
  have hstep : Sys2Proof.core.step s = .next t := h
  simp only [Host.Core.run, hstep]

/-- As many steps, with the words of the operations arriving in their order, run these operations. -/
theorem run_arriving_of_runOps {is : List Instr} {s t : State} (h : runOps is s = .next t) (ht : t.arrivals = []) :
    Host.Core.run Sys2Proof.core is.length (s.arriving (is.map Arrival.ofInstr)) = .next t := by
  induction is generalizing s with
  | nil =>
    cases h
    change Host.Outcome.next (t.arriving []) = .next t
    rw [← ht]
    rfl
  | cons i is ih =>
    obtain ⟨u, hu, hrest⟩ := runOps_cons_next h
    have hen : Enabled i s := enabled_of_arrivals_nil hu (runOps_arrivals_nil hrest ht)
    have hstep : step (s.arriving ((i :: is).map Arrival.ofInstr)) = .next (u.arriving (is.map Arrival.ofInstr)) :=
      (step_ofInstr (s := s.arriving ((i :: is).map Arrival.ofInstr)) rfl hen).trans (exec_arriving hen hu _)
    exact (core_run_succ hstep).trans (ih hrest)

/-- Settles O6, by induction on the operations: each is what its step runs, whatever arrives after it. -/
theorem runOfArrivalsRunsTheOperations : Obligations.RunOfArrivalsRunsTheOperations :=
  fun _ s _ h ht => run_arriving_of_runOps (s := s.arriving []) h ht

end Sys2Proof.Machine
end

section
/-! PROOFS. The opcode map at each port (30_encoding.md R71, R72, R75): the operations of a port, by the two fields of a
word, and the words that are none of them. -/

namespace Sys2Proof.Machine

/-- Settles O1: both directions of the opcode map, with the port that the decoder checks. -/
theorem decodeReadsExactlyTheEncodedOperation : Obligations.DecodeReadsExactlyTheEncodedOperation :=
  fun _ _ _ => decode_eq_some_iff

theorem decode_encode (i : Instr) : decode i.port (encode i) = some i :=
  decode_eq_some_iff.2 ⟨rfl, rfl⟩

/-- Settles O2: each word of the table is the encoding of its row's operation. -/
theorem opcodeMapDecodesRowByRow : Obligations.OpcodeMapDecodesRowByRow :=
  fun d =>
    ⟨decode_encode (.nop d), decode_encode (.encOpen d), decode_encode (.encByte d), decode_encode (.encClose d),
      decode_encode (.flush d), decode_encode (.inhibitStart d), decode_encode (.inhibitStop d),
      decode_encode (.inRead d), decode_encode (.frameRelease d), decode_encode (.outStatus d),
      decode_encode (.inStatus d), decode_encode (.errStatus d), decode_encode (.errArgs d),
      decode_encode (.crcStatus d), decode_encode (.errClear d), decode_encode (.init d), decode_encode (.rxByte d),
      decode_encode (.txReady d)⟩

theorem encode_eq_iff {i : Instr} {w : Word} : encode i = w ↔ i.opcode = opField w ∧ i.data = dataField w := by
  constructor
  · rintro rfl
    exact ⟨(opField_encode i).symm, (dataField_encode i).symm⟩
  · rintro ⟨hop, hdata⟩
    rw [encode, hop, hdata, fields_append]

/-- The operations of a port with data field `d`, in the order of R72. -/
def portRows (p : Port) (d : Byte) : List Instr :=
  match p with
  | .sw => [.nop d, .encOpen d, .encByte d, .encClose d, .flush d, .inhibitStart d, .inhibitStop d, .inRead d,
      .frameRelease d, .outStatus d, .inStatus d, .errStatus d, .errArgs d, .crcStatus d, .errClear d, .init d]
  | .link => [.rxByte d, .txReady d]

theorem mem_portRows {i : Instr} {p : Port} {d : Byte} : i ∈ portRows p d ↔ i.port = p ∧ i.data = d := by
  constructor
  · have hrows : ∀ j ∈ portRows p d, j.port = p ∧ j.data = d := by
      cases p <;> simp [portRows, Instr.port, Instr.data]
    exact hrows i
  · rintro ⟨rfl, rfl⟩
    cases i <;> simp [portRows, Instr.port, Instr.data]

/-- A word is illegal at a port exactly when its opcode is that of no operation of the port; the data field cannot make
it illegal (R72, R75). -/
theorem decode_eq_none_iff {p : Port} {w : Word} :
    decode p w = none ↔ opField w ∉ (portRows p (dataField w)).map Instr.opcode := by
  have hlegal : (∃ i, decode p w = some i) ↔ opField w ∈ (portRows p (dataField w)).map Instr.opcode := by
    simp only [decode_eq_some_iff, encode_eq_iff, List.mem_map, mem_portRows, and_assoc, and_comm, and_left_comm]
  rw [← hlegal, ← Option.isSome_iff_exists, Option.not_isSome_iff_eq_none]

end Sys2Proof.Machine
end

section
/-! PROOFS. A step on an illegal word (30_encoding.md R75; 43_control.md R208): no illegal word is held back, and
what it does is to raise E_ILLEGAL_OP. -/

namespace Sys2Proof.Machine

theorem decode_of_isReceive {p : Port} {w : Word} (h : (Arrival.word p w).isReceive = true) :
    decode p w = some (.rxByte (dataField w)) := by
  cases p with
  | sw => cases h
  | link => exact decode_eq_some_iff.2 ⟨rfl, encode_eq_iff.2 ⟨(eq_of_beq h).symm, rfl⟩⟩

/-- An illegal word that arrives next is taken, in the dispatch window too: it is no RX_BYTE. -/
theorem step_illegal {s : State} {p : Port} {w : Word} {rest : List Arrival} (harr : s.arrivals = .word p w :: rest)
    (hdec : decode p w = none) : step s = .next (illegalWord w { s with arrivals := rest }) := by
  have hreceive : (Arrival.word p w).isReceive = false := by
    refine Bool.eq_false_iff.2 fun h => ?_
    rw [decode_of_isReceive h] at hdec
    cases hdec
  unfold step
  rw [harr, takeEnabled_head (.inr hreceive)]
  simp only [arrive, hdec]

/-- Settles O3: the legal opcodes are those of the port's operations, and a word with another one is `illegalWord`'s. -/
theorem illegalWordRaisesAndChangesNothingElse : Obligations.IllegalWordRaisesAndChangesNothingElse := by
  intro p w legal hlegal
  have hrows : legal = (portRows p (dataField w)).map Instr.opcode := by
    rw [hlegal]
    cases p <;> rfl
  rw [hrows]
  exact ⟨decode_eq_none_iff, fun _ _ harr hillegal => step_illegal harr (decode_eq_none_iff.2 hillegal)⟩

end Sys2Proof.Machine
end

section
/-! PROOFS. The encoder operations one by one (40_codec.md R103 to R105, R110 to R112): each is read off its equation in
the laws of the encoder, and under LAP every byte is written and no overflow is raised. -/

namespace Sys2Proof.Machine

/-- Settles O18: the equation of ENC_OPEN holds its CRC and `enc_active`, and `EncoderEffect` the rest. -/
theorem encOpenRestartsTheCrcAndAppendsFlag : Obligations.EncOpenRestartsTheCrcAndAppendsFlag :=
  fun d _ hw hr =>
    ⟨decode_encode (.encOpen d), _, exec_encOpen hw hr d, rfl, rfl, encoderEffect_encoded hw _ _ _ _⟩

/-- Settles O19: the equation of ENC_BYTE folds the byte whether or not its stuffed form fits. -/
theorem encByteFoldsAlwaysAndAppendsStuffed : Obligations.EncByteFoldsAlwaysAndAppendsStuffed :=
  fun b s hw hr =>
    ⟨decode_encode (.encByte b), _, exec_encByte hw hr b, rfl, rfl, encoderEffect_encoded hw _ _ _ s.encActive⟩

/-- Settles O20: ENC_CLOSE folds the two bytes of the frame check; from the fold of a content this is the fold of the
content with its frame check, which is what the frame-check law speaks of. -/
theorem encCloseAppendsFrameCheckAndFlag : Obligations.EncCloseAppendsFrameCheckAndFlag := by
  intro d s hw hr
  refine ⟨decode_encode (.encClose d), _, exec_encClose hw hr d, rfl, rfl, fun content hcrc hlaw => ?_,
    encoderEffect_encoded hw _ _ _ _⟩
  rw [FrameCheckHolds, Params.frameBytes, crcFold_append, ← hcrc] at hlaw
  exact hlaw

/-- What the three encoder operations have in common: `State.encoded`, with some CRC and `enc_active`. -/
theorem exec_encoder {i : Instr} {d : Byte} {s t : State} (hw : s.ow < s.params.nOut) (hr : s.or < s.params.nOut)
    (hi : i ∈ [.encOpen d, .encByte d, .encClose d]) (h : exec i s = .next t) :
    ∃ o c a, t = { (s.encoded i o).setCrc c with encActive := a } := by
  simp only [List.mem_cons, List.not_mem_nil, or_false] at hi
  rcases hi with rfl | rfl | rfl
  · rw [exec_encOpen hw hr] at h
    cases h
    exact ⟨_, _, _, rfl⟩
  · rw [exec_encByte hw hr] at h
    cases h
    exact ⟨!s.encActive, s.params.crcStep s.outCrc d, s.encActive, rfl⟩
  · rw [exec_encClose hw hr] at h
    cases h
    exact ⟨_, _, _, rfl⟩

theorem appended_lap {s : State} (hpol : s.params.policy = .lap) (i : Instr) : s.appended i = (s.pushes i).flatten := by
  rw [State.appended, hpol, accepted_lap]

theorem outOverflow_notMem_encoderErrors_lap {s : State} (hpol : s.params.policy = .lap) (i : Instr) (o : Bool)
    (a1 a2 : Word) : Event.err .outOverflow a1 a2 ∉ s.encoderErrors i o := by
  rw [State.encoderErrors, hpol, overflowErrors_lap]
  cases o <;> simp

/-- Settles O21: under LAP an encoder operation appends all that it is given, and the count follows `ow` around the
buffer; where it comes back to 0 the indices are equal, which is all that an empty buffer is. -/
theorem lapNeverRefusesAndLosesSilently : Obligations.LapNeverRefusesAndLosesSilently := by
  intro i d s t hpol hw hr hi h
  obtain ⟨o, c, a, rfl⟩ := exec_encoder hw hr hi h
  rw [← appended_lap hpol]
  refine ⟨count_appendBytes hr _, fun a1 a2 hmem => ?_, fun hcount => ?_, appendsBytes_appendBytes hw _⟩
  · have hnew : (s.history ++ s.encoderErrors i o).drop s.history.length = s.encoderErrors i o := List.drop_left
    exact outOverflow_notMem_encoderErrors_lap hpol i o a1 a2 (hnew ▸ hmem)
  · have hw' : (s.appendBytes (s.appended i)).ow < s.params.nOut := appendBytes_ow_lt hw _
    have heq := (State.count_eq_zero hw' hr).1 hcount
    exact ⟨(State.empty_iff _).2 heq, pending_nil hw' hr heq⟩

end Sys2Proof.Machine
end

section
/-! PROOFS. A complete encode with room for its frame (40_codec.md R113): no operation of it raises anything, and each
appends its part of the wire form. -/

namespace Sys2Proof.Machine

/-- `s` as an encoder operation leaves the encoder's own fields: the CRC, `enc_active`, and nothing returned. -/
def State.setEncoder (s : State) (c : Word) (a : Bool) : State :=
  { s with outCrc := c, encActive := a, resp := .nothing }

theorem exec_encOpen_fits {s : State} (hw : s.ow < s.params.nOut) (hr : s.or < s.params.nOut)
    (ha : s.encActive = false) (hfit : 1 ≤ s.free) (d : Byte) :
    exec (.encOpen d) s = .next ((s.appendBytes [s.params.flag]).setEncoder s.params.crcInit true) := by
  rw [exec_encOpen hw hr, ha, encoded_fits (i := .encOpen d) hfit]
  rfl

/-- What ENC_CLOSE hands to the output buffer is the stuffed frame check and the closing flag. -/
theorem flatten_pushes_encClose (s : State) (d : Byte) : (s.pushes (.encClose d)).flatten =
    s.params.stuffAll (frameCheckBytes (~~~s.outCrc)) ++ [s.params.flag] := by
  simp [State.pushes, frameCheckBytes, Params.stuffAll]

theorem exec_encClose_fits {s : State} (hw : s.ow < s.params.nOut) (hr : s.or < s.params.nOut)
    (ha : s.encActive = true)
    (hfit : (s.params.stuffAll (frameCheckBytes (~~~s.outCrc)) ++ [s.params.flag]).length ≤ s.free) (d : Byte) :
    exec (.encClose d) s =
      .next ((s.appendBytes (s.params.stuffAll (frameCheckBytes (~~~s.outCrc)) ++ [s.params.flag])).setEncoder
        (s.params.crcFold s.outCrc (frameCheckBytes (~~~s.outCrc))) false) := by
  rw [← flatten_pushes_encClose s d] at hfit ⊢
  rw [exec_encClose hw hr, ha, Bool.not_true, encoded_fits hfit]
  rfl

/-- The room that is left after the first part of a list that fits. -/
theorem length_le_free_appendBytes {s : State} (hw : s.ow < s.params.nOut) (hr : s.or < s.params.nOut)
    {l l' : List Byte} (hfit : (l ++ l').length ≤ s.free) : l'.length ≤ (s.appendBytes l).free := by
  rw [List.length_append] at hfit
  rw [free_appendBytes hw hr (by omega)]
  omega

/-- An encode up to its last content byte. -/
theorem runOps_encOpen_encBytes {s : State} {content : List Byte} (hw : s.ow < s.params.nOut)
    (hr : s.or < s.params.nOut) (ha : s.encActive = false)
    (hfit : ([s.params.flag] ++ s.params.stuffAll content).length ≤ s.free) (d : Byte) :
    runOps (.encOpen d :: content.map .encByte) s =
      .next ((s.appendBytes ([s.params.flag] ++ s.params.stuffAll content)).setEncoder
        (s.params.crcFold s.params.crcInit content) true) := by
  have hflag : 1 ≤ s.free := by
    rw [List.length_append, List.length_singleton] at hfit
    omega
  rw [runOps, exec_encOpen_fits hw hr ha hflag, ← appendBytes_appendBytes hw]
  exact runOps_encBytes content ((s.appendBytes [s.params.flag]).setEncoder s.params.crcInit true)
    (appendBytes_ow_lt hw _) hr rfl (length_le_free_appendBytes hw hr hfit) rfl

/-- The wire form in the order in which the operations of an encode append it. -/
theorem wire_eq (p : Params) (content : List Byte) : p.wire content =
    ([p.flag] ++ p.stuffAll content) ++
      (p.stuffAll (frameCheckBytes (~~~(p.crcFold p.crcInit content))) ++ [p.flag]) := by
  simp [Params.wire, Params.frameBytes, stuffAll_append]

/-- The pseudo-operation ENC_FRAME with room for its frame (R82, R113). -/
theorem runOps_encFrame {s : State} {content : List Byte} (hw : s.ow < s.params.nOut) (hr : s.or < s.params.nOut)
    (ha : s.encActive = false) (hfit : (s.params.wire content).length ≤ s.free) :
    runOps (encFrame content) s = .next ((s.appendBytes (s.params.wire content)).setEncoder
      (s.params.crcFold s.params.crcInit (s.params.frameBytes content)) false) := by
  rw [wire_eq] at hfit ⊢
  have hbegin : ([s.params.flag] ++ s.params.stuffAll content).length ≤ s.free := by
    rw [List.length_append] at hfit
    omega
  refine runOps_append_next (runOps_encOpen_encBytes hw hr ha hbegin 0x00#8) ?_
  have hclose := exec_encClose_fits (s := (s.appendBytes _).setEncoder (s.params.crcFold s.params.crcInit content) true)
    (appendBytes_ow_lt hw _) hr rfl (length_le_free_appendBytes hw hr hfit) 0x00#8
  rw [runOps, hclose, ← appendBytes_appendBytes hw (_ ++ _), Params.frameBytes, crcFold_append]
  rfl

/-- Settles O22: the run ends in the state before it with the wire form appended. -/
theorem completeEncodeAppendsTheWireForm : Obligations.CompleteEncodeAppendsTheWireForm := by
  intro content s hw hr ha hfit
  refine ⟨_, runOps_encFrame hw hr ha hfit, pending_appendBytes hw hr hfit, rfl, rfl, rfl, rfl, rfl, ?_⟩
  rw [State.setEncoder, State.appendBytes, ← ha]

end Sys2Proof.Machine
end

section
/-! PROOFS. The default CRC step in its table form (40_codec.md R100, R101): the step is linear, and the CRC's high byte
only shifts down. -/

namespace Sys2Proof

/-- Bits of the FCS-16 that shift out zeros only shift. -/
theorem fcsBits_eq_ushiftRight {n : Nat} {x : Word} (h : ∀ i < n, x.getLsbD i = false) : fcsBits n x = x >>> n := by
  induction n generalizing x with
  | zero => exact (BitVec.ushiftRight_zero x).symm
  | succ n ih =>
    have hbit : fcsBit x = x >>> 1 := by
      rw [fcsBit, h 0 (Nat.succ_pos n)]
      rfl
    have hlow : ∀ i < n, (x >>> 1).getLsbD i = false := fun i hi => by
      rw [BitVec.getLsbD_ushiftRight]
      exact h (1 + i) (by omega)
    rw [fcsBits, hbit, ih hlow, ← BitVec.shiftRight_add, Nat.add_comm]

/-- A word is its high byte in place and its low byte. -/
theorem shifted_xor_lowByte (x : Word) : (x >>> 8 <<< 8) ^^^ (lowByte x).setWidth 16 = x := by
  apply BitVec.eq_of_getLsbD_eq
  intro i hi
  by_cases h : i < 8
  · simp [lowByte, h, hi]
  · simp [lowByte, h, hi, show 8 + (i - 8) = i by omega]

theorem ushiftRight_shiftLeft_ushiftRight (x : Word) : x >>> 8 <<< 8 >>> 8 = x >>> 8 := by
  apply BitVec.eq_of_getLsbD_eq
  intro i _
  by_cases h : 8 + i < 16
  · simp [h]
  · simp [h, BitVec.getLsbD_of_ge x (8 + i) (by omega)]

theorem setWidth_ushiftRight_eight (b : Byte) : b.setWidth 16 >>> 8 = 0#16 := by
  apply BitVec.eq_of_getLsbD_eq
  intro i _
  simp

/-- Eight bits of the FCS-16 shift the high byte down and step the low byte from 0. -/
theorem fcsBits_eight (x : Word) : fcsBits 8 x = (x >>> 8) ^^^ fcs16Step 0x0000#16 (lowByte x) := by
  have hlow : ∀ i < 8, (x >>> 8 <<< 8).getLsbD i = false := fun i hi => by simp [hi]
  calc fcsBits 8 x
      = fcsBits 8 (x >>> 8 <<< 8) ^^^ fcsBits 8 ((lowByte x).setWidth 16) := by
        rw [← fcsBits_xor, shifted_xor_lowByte]
    _ = (x >>> 8) ^^^ fcs16Step 0x0000#16 (lowByte x) := by
        rw [fcsBits_eq_ushiftRight hlow, ushiftRight_shiftLeft_ushiftRight, fcs16Step, BitVec.zero_xor]

/-- The step is the CRC shifted by a byte, and the step of the low byte from 0 (R101). -/
theorem fcs16Step_eq_shift (c : Word) (b : Byte) :
    fcs16Step c b = (c >>> 8) ^^^ fcs16Step 0x0000#16 (lowByte (c ^^^ b.setWidth 16)) := by
  rw [fcs16Step, fcsBits_eight, BitVec.ushiftRight_xor_distrib, setWidth_ushiftRight_eight, BitVec.xor_zero]

/-- The printed table is the step from 0, byte by byte (R101). -/
theorem fcsTable_eq : fcsTable = (List.range 256).map fun i => fcs16Step 0#16 (BitVec.ofNat 8 i) := by
  decide +kernel

theorem fcsTable_getElem? (b : Byte) : fcsTable[b.toNat]? = some (fcs16Step 0#16 b) := by
  rw [fcsTable_eq, List.getElem?_map, List.getElem?_range b.isLt, Option.map_some, BitVec.ofNat_toNat,
    BitVec.setWidth_eq]

/-- Settles O48: the table holds the steps from 0, and every step is one of those and a shift. -/
theorem crcStepEqualsItsTableForm : Obligations.CrcStepEqualsItsTableForm := by
  refine ⟨by rw [fcsTable_eq, List.length_map, List.length_range], fcsTable_getElem?, fun c b => ?_⟩
  rw [fcsTable_getElem?]
  exact fcs16Step_eq_shift c b

end Sys2Proof
end

section
/-! PROOFS. The properties of the default CRC (40_codec.md R102; 00_scope.md R12): the last two bytes of a frame cancel
the CRC that they complement, and the step loses no bit of it. -/

namespace Sys2Proof

theorem xor_complement (c : Word) : c ^^^ ~~~c = BitVec.allOnes 16 := by
  rw [← BitVec.xor_allOnes, ← BitVec.xor_assoc, BitVec.xor_self, BitVec.zero_xor]

theorem lowByte_setWidth (b : Byte) : lowByte (b.setWidth 16) = b := by
  apply BitVec.eq_of_getLsbD_eq
  intro i hi
  simp [lowByte, hi, show i < 16 by omega]

theorem setWidth_highByte (c : Word) : (highByte c).setWidth 16 = c >>> 8 := by
  apply BitVec.eq_of_getLsbD_eq
  intro i hi
  by_cases h : i < 8
  · simp [highByte, h, hi]
  · simp [highByte, h, BitVec.getLsbD_of_ge c (8 + i) (by omega)]

/-- Folding the complement of a CRC's low byte sets its low byte. -/
theorem lowByte_xor_complement (c : Word) : lowByte (c ^^^ (lowByte (~~~c)).setWidth 16) = 0xFF#8 := by
  calc lowByte (c ^^^ (lowByte (~~~c)).setWidth 16)
      = lowByte (c ^^^ ~~~c) := by
        simp only [lowByte, BitVec.extractLsb'_xor]
        exact congrArg (lowByte c ^^^ ·) (lowByte_setWidth (lowByte (~~~c)))
    _ = 0xFF#8 := by
        rw [xor_complement]
        decide

/-- Folding the complement of a CRC's high byte, once it is shifted down, leaves a constant. -/
theorem ushiftRight_xor_complement (c : Word) : (c >>> 8) ^^^ (highByte (~~~c)).setWidth 16 = 0x00FF#16 := by
  calc (c >>> 8) ^^^ (highByte (~~~c)).setWidth 16
      = (c ^^^ ~~~c) >>> 8 := by rw [setWidth_highByte, BitVec.ushiftRight_xor_distrib]
    _ = 0x00FF#16 := by
        rw [xor_complement]
        decide

theorem fcsBits_residue : fcsBits 8 0x0F87#16 = 0xF0B8#16 := by decide

/-- The two bytes of its own complement bring every CRC to the good residue (R12). -/
theorem crcFold_frameCheckBytes (c : Word) :
    Params.default.crcFold c (frameCheckBytes (~~~c)) = 0xF0B8#16 := by
  have hfirst : fcs16Step c (lowByte (~~~c)) = (c >>> 8) ^^^ 0x0F78#16 := by
    rw [fcs16Step_eq_shift, lowByte_xor_complement]
    rfl
  change fcs16Step (fcs16Step c (lowByte (~~~c))) (highByte (~~~c)) = _
  rw [hfirst, fcs16Step, BitVec.xor_assoc, BitVec.xor_comm 0x0F78#16, ← BitVec.xor_assoc,
    ushiftRight_xor_complement]
  exact fcsBits_residue

theorem default_frameCheckLaw : Params.default.FrameCheckLaw :=
  fun content => crcFold_frameCheckBytes (Params.default.crcFold Params.default.crcInit content)

/-- Only the word 0x0F87 steps to the good residue, and no byte folded into 0xFFFF gives it. -/
theorem fcs16Step_init_ne_good (b : Byte) : fcs16Step 0xFFFF#16 b ≠ 0xF0B8#16 := by
  intro h
  have hword : 0xFFFF#16 ^^^ b.setWidth 16 = 0x0F87#16 := fcsBits_injective (h.trans fcsBits_residue.symm)
  have hbit := congrArg (fun x : Word => x.getLsbD 15) hword
  simp at hbit

theorem fcs16Step_xor (c c' : Word) (b b' : Byte) :
    fcs16Step (c ^^^ c') (b ^^^ b') = fcs16Step c b ^^^ fcs16Step c' b' := by
  simp only [fcs16Step, BitVec.setWidth_xor, ← fcsBits_xor]
  ac_rfl

theorem ne_xor_bit {b : Byte} {k : Nat} (hk : k < 8) : b ≠ b ^^^ (1#8 <<< k) := by
  intro h
  have hbit := congrArg (fun x : Byte => x.getLsbD k) h
  simp [hk] at hbit

/-- Settles O49: each item by its own lemma above; the last by the injectivity of the fold. -/
theorem defaultCrcProperties : Obligations.DefaultCrcProperties :=
  ⟨by decide +kernel, ⟨rfl, rfl, default_frameCheckLaw⟩, fcs16Step_init_ne_good, fcs16Step_xor,
    fun c before after _ _ hk => crcFold_ne rfl c before after (ne_xor_bit hk)⟩

end Sys2Proof
end

section
/-! PROOFS. The space that one frame needs (40_codec.md R114). -/

namespace Sys2Proof.Machine

theorem stuffAll_length (p : Params) (l : List Byte) :
    (p.stuffAll l).length = (l.map fun b => (p.stuff b).length).sum := by
  induction l with
  | nil => rfl
  | cons b bs ih => rw [Params.stuffAll, List.length_append, ih, List.map_cons, List.sum_cons]

/-- Stuffing at most doubles a list of bytes. -/
theorem stuffAll_length_bounds (p : Params) (l : List Byte) :
    l.length ≤ (p.stuffAll l).length ∧ (p.stuffAll l).length ≤ 2 * l.length := by
  induction l with
  | nil => simp [Params.stuffAll]
  | cons b bs ih =>
    have hb := stuff_length p b
    simp only [Params.stuffAll, List.length_append, List.length_cons]
    omega

theorem wire_length (p : Params) (content : List Byte) :
    (p.wire content).length = (p.stuffAll (p.frameBytes content)).length + 2 := by
  simp [Params.wire]

theorem frameBytes_length (p : Params) (content : List Byte) : (p.frameBytes content).length = content.length + 2 := by
  simp [Params.frameBytes, frameCheckBytes]

theorem free_of_empty {s : State} (hr : s.or < s.params.nOut) (h : s.ow = s.or) : s.free = s.params.nOut - 1 := by
  rw [State.free, (State.count_eq_zero (h ▸ hr) hr).2 h, Nat.sub_zero]

/-- Settles O51: the two flags and the stuffed bytes; 124 content bytes need at most 254 of the 255 free slots. -/
theorem frameSpaceIsBounded : Obligations.FrameSpaceIsBounded := by
  intro content p
  have hwire := wire_length p content
  obtain ⟨hlow, hhigh⟩ := stuffAll_length_bounds p (p.frameBytes content)
  rw [frameBytes_length] at hlow hhigh
  refine ⟨by rw [hwire, stuffAll_length, Nat.add_comm], by omega, by omega, ?_⟩
  rintro s rfl hn _ hempty hor hcontent
  rw [free_of_empty (hn ▸ hor) hempty]
  omega

end Sys2Proof.Machine
end

section
/-! PROOFS. The flow operations, one equation for each case with the whole next state (41_output_flow.md R143 to R146,
R151; 60_exceptions.md R231). -/

namespace Sys2Proof.Machine

/-! ### FLUSH (R143) -/

theorem exec_flush_skip {d : Byte} {s : State}
    (h : s.draining = true ∨ (s.sigChanged = false ∧ (s.inhibited = true ∨ s.ow = s.or))) :
    exec (.flush d) s = .next { s with resp := .nothing } :=
  congrArg finish (flushBody_skip (s := respond .nothing s) h)

theorem exec_flush_update {d : Byte} {s : State} (hd : s.draining = false) (hs : s.sigChanged = true) :
    exec (.flush d) s = .next { s with
      resp := .nothing, fcOut := !s.inhibited, sigChanged := false, history := s.history ++ [.fc (!s.inhibited)] } :=
  congrArg finish (flushBody_update (s := respond .nothing s) hd hs)

theorem exec_flush_submit {d : Byte} {s : State} (hd : s.draining = false) (hs : s.sigChanged = false)
    (hi : s.inhibited = false) (hne : s.ow ≠ s.or) (hr : s.or < s.params.nOut) :
    exec (.flush d) s = .next { s with
      resp := .nothing, linkByte := some (s.obufByte s.or), or := (s.or + 1) % s.params.nOut, draining := true,
      history := s.history ++ [.tx (s.obufByte s.or)] } :=
  congrArg finish (flushBody_submit (s := respond .nothing s) hd hs hi hne hr)

/-- Settles O23: the five cases by the equations of FLUSH; the word is the operation's encoding. -/
theorem flushUpdatesTheLineOrSubmitsOneByte : Obligations.FlushUpdatesTheLineOrSubmitsOneByte :=
  fun d _ hr => ⟨decode_encode (.flush d), fun hd => exec_flush_skip (.inl hd), exec_flush_update,
    fun _ hs hi => exec_flush_skip (.inr ⟨hs, .inl hi⟩), fun hd hs hi hne => exec_flush_submit hd hs hi hne hr,
    fun _ hs _ he => exec_flush_skip (.inr ⟨hs, .inr he⟩)⟩

/-! ### TX_READY (R144) -/

/-- The event of the pending line update, if there is one (R144). -/
def State.lineEvents (s : State) : List Event :=
  if s.sigChanged then [.fc (!s.inhibited)] else []

theorem txBytes_lineEvents (s : State) : txBytes s.lineEvents = [] := by
  unfold State.lineEvents
  split <;> rfl

theorem lineUpdated_eq (s : State) : s.lineUpdated = { s with
    fcOut := if s.sigChanged then !s.inhibited else s.fcOut, sigChanged := false,
    history := s.history ++ s.lineEvents } := by
  unfold State.lineUpdated State.lineEvents
  by_cases hs : s.sigChanged = true
  · simp only [hs, if_true]
    rfl
  · simp only [hs, Bool.false_eq_true, if_false, List.append_nil]
    rw [← Bool.eq_false_iff.2 hs]

/-- The LINK agent's side of a TX_READY (R231 item 1), with and without a byte in transmission. -/
theorem linkDone_eq (s : State) :
    linkDone s = { s with linkByte := none, hostGot := s.hostGot ++ s.linkByte.toList } := by
  rcases linkDone_cases s with ⟨hl, e⟩ | ⟨b, hl, e⟩
  · simp only [e, hl, Option.toList_none, List.append_nil]
    rw [← hl]
  · rw [e, hl]
    rfl

/-- `s` after the LINK agent's side of a TX_READY: the block's side starts here. -/
def State.delivered (s : State) : State :=
  { s with resp := .nothing, linkByte := none, hostGot := s.hostGot ++ s.linkByte.toList }

theorem exec_txReady (d : Byte) (s : State) : exec (.txReady d) s = finish (transmitComplete s.delivered) :=
  congrArg (fun u => finish (transmitComplete u)) (linkDone_eq (respond .nothing s))

theorem exec_txReady_spurious {d : Byte} {s : State} (hd : s.draining = false) :
    exec (.txReady d) s = .next s.delivered :=
  (exec_txReady d s).trans (congrArg finish (transmitComplete_spurious (s := s.delivered) hd))

theorem exec_txReady_stop {d : Byte} {s : State} (hd : s.draining = true) (h : s.inhibited = true ∨ s.ow = s.or) :
    exec (.txReady d) s = .next { s with
      resp := .nothing, linkByte := none, hostGot := s.hostGot ++ s.linkByte.toList, draining := false,
      fcOut := if s.sigChanged then !s.inhibited else s.fcOut, sigChanged := false,
      history := s.history ++ s.lineEvents } := by
  rw [exec_txReady, transmitComplete_stop (s := s.delivered) hd h, lineUpdated_eq]
  rfl

theorem exec_txReady_submit {d : Byte} {s : State} (hd : s.draining = true) (hi : s.inhibited = false)
    (hne : s.ow ≠ s.or) (hr : s.or < s.params.nOut) :
    exec (.txReady d) s = .next { s with
      resp := .nothing, linkByte := some (s.obufByte s.or), hostGot := s.hostGot ++ s.linkByte.toList,
      or := s.nextSlot s.or, fcOut := if s.sigChanged then !s.inhibited else s.fcOut, sigChanged := false,
      history := s.history ++ s.lineEvents ++ [.tx (s.obufByte s.or)] } := by
  rw [exec_txReady, transmitComplete_submit (s := s.delivered) hd hi hne hr, lineUpdated_eq]
  rfl

/-- Settles O24, by the equation of each of the two cases. -/
theorem txReadyUpdatesTheLineThenSubmitsOrStops : Obligations.TxReadyUpdatesTheLineThenSubmitsOrStops := by
  intro d b s hr hd hl
  have hgot : s.hostGot ++ s.linkByte.toList = s.hostGot ++ [b] := by rw [hl]; rfl
  by_cases h : s.inhibited = false ∧ s.ow ≠ s.or
  · refine ⟨_, exec_txReady_submit hd h.1 h.2 hr, hgot, rfl, rfl, rfl, ?_, rfl⟩
    rw [if_pos h]
    exact ⟨hd, rfl, rfl, rfl⟩
  · have hstop : s.inhibited = true ∨ s.ow = s.or := by simpa [or_iff_not_imp_left] using h
    refine ⟨_, exec_txReady_stop hd hstop, hgot, rfl, rfl, rfl, ?_, rfl⟩
    rw [if_neg h]
    exact ⟨rfl, rfl, rfl, rfl⟩

/-- Settles O25, by the equation of a spurious TX_READY: with no byte in transmission nothing is delivered either. -/
theorem spuriousTxReadyDoesNothing : Obligations.SpuriousTxReadyDoesNothing := by
  intro d s hd
  refine ⟨_, exec_txReady_spurious hd, rfl, rfl, fun hl => ?_⟩
  simp only [State.delivered, hl, Option.toList_none, List.append_nil]
  rw [← hl]

/-! ### INHIBIT_START and INHIBIT_STOP (R145, R146) -/

/-- `s` after INHIBIT_START (`v` = 1) or INHIBIT_STOP (`v` = 0). -/
def State.inhibitionSet (s : State) (v : Bool) : State :=
  if s.draining then { s with resp := .nothing, inhibited := v, sigChanged := true }
  else { s with
    resp := .nothing, inhibited := v, sigChanged := false, fcOut := !v, history := s.history ++ [.fc (!v)] }

theorem flushBody_inhibition (s : State) (v : Bool) :
    flushBody { respond .nothing s with inhibited := v, sigChanged := true } = .ok (s.inhibitionSet v) := by
  unfold State.inhibitionSet
  split
  · rename_i hd
    exact flushBody_skip (.inl hd)
  · rename_i hd
    exact flushBody_update (Bool.eq_false_iff.2 hd) rfl

theorem exec_inhibitStart (d : Byte) (s : State) : exec (.inhibitStart d) s = .next (s.inhibitionSet true) :=
  congrArg finish (flushBody_inhibition s true)

theorem exec_inhibitStop (d : Byte) (s : State) : exec (.inhibitStop d) s = .next (s.inhibitionSet false) :=
  congrArg finish (flushBody_inhibition s false)

/-- Settles O26: both operations by their equations, each word by its encoding. -/
theorem inhibitSetsTheFlagAndDrivesAnIdleLine : Obligations.InhibitSetsTheFlagAndDrivesAnIdleLine := by
  intro d s
  rw [exec_inhibitStart, exec_inhibitStop]
  refine ⟨⟨decode_encode (.inhibitStart d), decode_encode (.inhibitStop d)⟩, fun hd => ?_, fun hd => ?_⟩
  · simp only [State.inhibitionSet, hd, if_true, and_self]
  · simp only [State.inhibitionSet, hd, Bool.false_eq_true, if_false, Bool.not_true, Bool.not_false, and_self]

end Sys2Proof.Machine
end

section
/-! PROOFS. INHIBIT_START repeated, then INHIBIT_STOP, then the next byte (41_output_flow.md R147). -/

namespace Sys2Proof.Machine

/-- `t` is `s` with `inhibited` at `v`, nothing submitted, and with no update pending when nothing drains; besides, only
`sig_changed`, the line, events and the response differ. -/
def SetsInhibition (v : Bool) (s t : State) : Prop :=
  ∃ sg fc evs, t = { s with
      resp := .nothing, inhibited := v, sigChanged := sg, fcOut := fc, history := s.history ++ evs } ∧
    txBytes evs = [] ∧ (s.draining = false → sg = false)

theorem setsInhibition_inhibitionSet (s : State) (v : Bool) : SetsInhibition v s (s.inhibitionSet v) := by
  unfold State.inhibitionSet
  split
  · rename_i hd
    exact ⟨true, s.fcOut, [], by rw [List.append_nil], rfl, fun h => Bool.noConfusion (hd.symm.trans h)⟩
  · exact ⟨false, !v, [.fc (!v)], rfl, rfl, fun _ => rfl⟩

theorem SetsInhibition.trans {v w : Bool} {s t u : State} (h : SetsInhibition v s t) (h' : SetsInhibition w t u) :
    SetsInhibition w s u := by
  obtain ⟨_, _, evs, rfl, hevs, _⟩ := h
  obtain ⟨sg, fc, evs', rfl, hevs', hsg⟩ := h'
  refine ⟨sg, fc, evs ++ evs', by rw [← List.append_assoc], ?_, hsg⟩
  rw [txBytes_append, hevs, hevs']
  rfl

theorem SetsInhibition.inhibited {v : Bool} {s t : State} (h : SetsInhibition v s t) : t.inhibited = v := by
  obtain ⟨_, _, _, rfl, _⟩ := h
  rfl

theorem runOps_singleton (i : Instr) (s : State) : runOps [i] s = exec i s := by
  rw [runOps]
  cases exec i s <;> rfl

/-- INHIBIT_START again changes nothing that the first one has not set. -/
theorem runOps_inhibitStart (n : Nat) (d : Byte) (s : State) :
    ∃ t, runOps (List.replicate (n + 1) (.inhibitStart d)) s = .next t ∧ SetsInhibition true s t := by
  induction n generalizing s with
  | zero =>
    exact ⟨_, (runOps_singleton _ s).trans (exec_inhibitStart d s), setsInhibition_inhibitionSet s true⟩
  | succ n ih =>
    obtain ⟨t, hrun, ht⟩ := ih (s.inhibitionSet true)
    refine ⟨t, ?_, (setsInhibition_inhibitionSet s true).trans ht⟩
    rw [List.replicate_succ, runOps, exec_inhibitStart]
    exact hrun

/-- With the inhibition off and bytes pending, the byte at `or` goes out at the next TX_READY, or at a FLUSH when
nothing drains. -/
theorem SetsInhibition.submits {s u : State} (h : SetsInhibition false s u) (d : Byte) (hr : s.or < s.params.nOut)
    (hne : s.ow ≠ s.or) :
    ∃ v, exec (if s.draining then .txReady d else .flush d) u = .next v ∧
      txBytes v.history = txBytes s.history ++ [s.obufByte s.or] ∧ v.or = (s.or + 1) % s.params.nOut := by
  obtain ⟨sg, fc, evs, rfl, hevs, hsg⟩ := h
  by_cases hd : s.draining = true
  · rw [if_pos hd]
    refine ⟨_, exec_txReady_submit hd rfl hne hr, ?_, rfl⟩
    simp only [txBytes_append, txBytes_lineEvents, hevs, List.append_nil]
    rfl
  · have hd' : s.draining = false := Bool.eq_false_iff.2 hd
    rw [if_neg hd]
    refine ⟨_, exec_flush_submit hd' (hsg hd') rfl hne hr, ?_, rfl⟩
    simp only [txBytes_append, hevs, List.append_nil]
    rfl

/-- Settles O27: the starts and the stop leave the inhibition off and the pending bytes as they were. -/
theorem inhibitIsIdempotentAndStopRestoresDraining : Obligations.InhibitIsIdempotentAndStopRestoresDraining := by
  intro n d s hr
  obtain ⟨t, hrun, ht⟩ := runOps_inhibitStart n d s
  have hstop := setsInhibition_inhibitionSet t false
  exact ⟨t, _, hrun, ht.inhibited, exec_inhibitStop d t, hstop.inhibited, (ht.trans hstop).submits d hr⟩

end Sys2Proof.Machine
end

section
/-! PROOFS. What holds from an inhibited state on (41_output_flow.md R148): no byte is submitted, and the line is
re-asserted before the first byte after the inhibition. -/

namespace Sys2Proof.Machine

/-! ### No byte while inhibited -/

/-- The shared body of a flow operation submits nothing when it starts inhibited. -/
theorem FlowWrites.of_inhibited {u t : State} (h : FlowWrites u t) (hi : u.inhibited = true) :
    t.inhibited = true ∧ txBytes t.history = txBytes u.history := by
  obtain ⟨v, hv, d, ht⟩ := h
  obtain ⟨hvi, hvt⟩ : v.inhibited = true ∧ txBytes v.history = txBytes u.history := by
    rcases hv with rfl | rfl
    · exact ⟨hi, rfl⟩
    · exact ⟨hi, (txBytes_append _ [.fc _]).trans (List.append_nil _)⟩
  rcases ht with rfl | ⟨hvi', _, _, rfl⟩
  · exact ⟨hvi, hvt⟩
  · exact Bool.noConfusion (hvi.symm.trans hvi')

theorem flowStart_inhibited {i : Instr} {s : State} (hi : s.inhibited = true) (hstop : ∀ d, i ≠ .inhibitStop d) :
    (s.flowStart i).inhibited = true := by
  cases i with
  | inhibitStop d => exact absurd rfl (hstop d)
  | inhibitStart d => rfl
  | txReady d =>
    rw [State.flowStart, linkDone_eq]
    exact hi
  | _ => exact hi

theorem exec_of_inhibited {i : Instr} {s t : State} (hi : s.inhibited = true) (hstop : ∀ d, i ≠ .inhibitStop d)
    (hinit : ∀ d, i ≠ .init d) (h : exec i s = .next t) :
    t.inhibited = true ∧ txBytes t.history = txBytes s.history := by
  rcases exec_kinds h with ⟨d, rfl⟩ | hf | ⟨_, _, ⟨_, _, _, hinh, _⟩, evs, hevs, hhist⟩
  · exact absurd rfl (hinit d)
  · have hflow := (flow_next hf h).1.of_inhibited (flowStart_inhibited hi hstop)
    rwa [flowStart_history] at hflow
  · rw [hinh, hhist, txBytes_append, quiet_txBytes hevs, List.append_nil]
    exact ⟨hi, rfl⟩

theorem runOps_of_inhibited {is : List Instr} {s t : State} (hi : s.inhibited = true)
    (hstop : ∀ d, .inhibitStop d ∉ is) (hinit : ∀ d, .init d ∉ is) (h : runOps is s = .next t) :
    t.inhibited = true ∧ txBytes t.history = txBytes s.history := by
  induction is generalizing s with
  | nil =>
    cases h
    exact ⟨hi, rfl⟩
  | cons i is ih =>
    obtain ⟨u, hu, hrun⟩ := runOps_cons_next h
    obtain ⟨hui, hutx⟩ := exec_of_inhibited hi (fun d => (List.ne_of_not_mem_cons (hstop d)).symm)
      (fun d => (List.ne_of_not_mem_cons (hinit d)).symm) hu
    obtain ⟨hti, httx⟩ := ih hui (fun d => List.not_mem_of_not_mem_cons (hstop d))
      (fun d => List.not_mem_of_not_mem_cons (hinit d)) hrun
    exact ⟨hti, httx.trans hutx⟩

/-- Settles O28: each operation of the run keeps the inhibition and submits nothing. -/
theorem noByteIsSubmittedWhileInhibited : Obligations.NoByteIsSubmittedWhileInhibited :=
  fun _ _ _ hi hnot h => runOps_of_inhibited hi (fun d => (hnot d).1) (fun d => (hnot d).2) h

/-! ### The line before the next byte -/

/-- Every TX event of `evs` has an FC(1) event before it. -/
def LineBeforeBytes (evs : List Event) : Prop :=
  ∀ before after b, evs = before ++ .tx b :: after → .fc true ∈ before

theorem lineBeforeBytes_of_txBytes_nil {evs : List Event} (h : txBytes evs = []) : LineBeforeBytes evs := by
  rintro before after b rfl
  rw [txBytes_append] at h
  exact absurd (List.append_eq_nil_iff.1 h).2 (List.cons_ne_nil _ _)

/-- An FC(1) of the first list stands before every TX of the second. -/
theorem LineBeforeBytes.append {l l' : List Event} (h : LineBeforeBytes l)
    (h' : .fc true ∈ l ∨ LineBeforeBytes l') : LineBeforeBytes (l ++ l') := by
  have hright (mid after : List Event) (b : Byte) (e : l' = mid ++ .tx b :: after) : .fc true ∈ l ++ mid :=
    List.mem_append.2 (h'.imp_right fun hl' => hl' mid after b e)
  intro before after b e
  rcases List.append_eq_append_iff.1 e with ⟨mid, rfl, e'⟩ | ⟨mid, rfl, e'⟩
  · exact hright mid after b e'
  · cases mid with
    | nil => simpa using hright [] after b e'.symm
    | cons x mid =>
      obtain ⟨rfl, _⟩ := List.cons.inj e'
      exact h before mid b rfl

/-- No byte goes out before a line update: the state is inhibited, or an update is pending. -/
def State.LineFirst (s : State) : Prop :=
  s.inhibited = true ∨ s.sigChanged = true

/-- From `s` to `t` the line goes first, and it is still to go first or has been re-asserted. -/
def KeepsLineFirst (s t : State) : Prop :=
  ∃ evs, t.history = s.history ++ evs ∧ LineBeforeBytes evs ∧ (t.LineFirst ∨ .fc true ∈ evs)

theorem keepsLineFirst_of_quiet {s t : State} {evs : List Event} (ht : t.LineFirst)
    (hhist : t.history = s.history ++ evs) (hevs : txBytes evs = []) : KeepsLineFirst s t :=
  ⟨evs, hhist, lineBeforeBytes_of_txBytes_nil hevs, .inl ht⟩

theorem keepsLineFirst_updateLine (s : State) : KeepsLineFirst s (updateLine s) := by
  refine ⟨[.fc (!s.inhibited)], rfl, lineBeforeBytes_of_txBytes_nil rfl, ?_⟩
  cases hi : s.inhibited with
  | true => exact .inl (.inl hi)
  | false => exact .inr List.mem_cons_self

theorem keepsLineFirst_lineUpdated {s : State} (hs : s.LineFirst) : KeepsLineFirst s s.lineUpdated := by
  rcases lineUpdated_cases s with e | e <;> rw [e]
  · exact keepsLineFirst_of_quiet hs (List.append_nil _).symm rfl
  · exact keepsLineFirst_updateLine s

/-- The flush body submits only when it is neither inhibited nor has an update pending. -/
theorem keepsLineFirst_flushBody {u t : State} (hu : u.LineFirst) (h : flushBody u = .ok t) : KeepsLineFirst u t := by
  rcases flushBody_ok h with ⟨_, rfl⟩ | ⟨_, _, rfl⟩ | ⟨_, hs, hi, _, _, _⟩
  · exact keepsLineFirst_of_quiet hu (List.append_nil _).symm rfl
  · exact keepsLineFirst_updateLine u
  · simp [State.LineFirst, hs, hi] at hu

/-- TX_READY submits only when it is not inhibited; then an update is pending, and it drives the line to 1 first. -/
theorem keepsLineFirst_transmitComplete {u t : State} (hu : u.LineFirst) (h : transmitComplete u = .ok t) :
    KeepsLineFirst u t := by
  rcases transmitComplete_ok h with ⟨_, rfl⟩ | ⟨_, _, rfl⟩ | ⟨_, hi, _, _, rfl⟩
  · exact keepsLineFirst_of_quiet hu (List.append_nil _).symm rfl
  · exact keepsLineFirst_lineUpdated hu
  · have hs : u.sigChanged = true := hu.resolve_left (by simp [hi])
    have hev : u.lineEvents = [.fc true] := by simp [State.lineEvents, hs, hi]
    have hmem : Event.fc true ∈ u.lineEvents := by simp [hev]
    refine ⟨u.lineEvents ++ [.tx (u.lineUpdated.obufByte u.lineUpdated.or)], ?_,
      (lineBeforeBytes_of_txBytes_nil (txBytes_lineEvents u)).append (.inl hmem),
      .inr (List.mem_append_left _ hmem)⟩
    rw [← List.append_assoc, lineUpdated_eq]
    rfl

/-- A flow operation starts its body with the line still to go first: INHIBIT_STOP marks an update. -/
theorem lineFirst_flowStart {i : Instr} {s : State} (hs : s.LineFirst) : (s.flowStart i).LineFirst := by
  cases i with
  | inhibitStart d => exact .inl rfl
  | inhibitStop d => exact .inr rfl
  | txReady d =>
    rw [State.flowStart, linkDone_eq]
    exact hs
  | _ => exact hs

theorem keepsLineFirst_exec {i : Instr} {s t : State} (hs : s.LineFirst) (hinit : ∀ d, i ≠ .init d)
    (h : exec i s = .next t) : KeepsLineFirst s t := by
  rcases exec_kinds h with ⟨d, rfl⟩ | hf | ⟨_, _, ⟨_, _, _, hinh, hsig, _⟩, evs, hevs, hhist⟩
  · exact absurd rfl (hinit d)
  · have hstart := lineFirst_flowStart (i := i) hs
    have hbody : KeepsLineFirst (s.flowStart i) t := by
      rcases (flow_next hf h).2 with ⟨_, hb⟩ | ⟨_, hb⟩
      · exact keepsLineFirst_transmitComplete hstart hb
      · exact keepsLineFirst_flushBody hstart hb
    rwa [KeepsLineFirst, flowStart_history] at hbody
  · refine keepsLineFirst_of_quiet ?_ hhist (quiet_txBytes hevs)
    rwa [State.LineFirst, hinh, hsig]

theorem runOps_extends_history {is : List Instr} {s t : State} (h : runOps is s = .next t) :
    s.history <+: t.history := by
  induction is generalizing s with
  | nil =>
    cases h
    exact List.prefix_rfl
  | cons i is ih =>
    obtain ⟨u, hu, hrun⟩ := runOps_cons_next h
    exact (exec_extends_history hu).trans (ih hrun)

/-- The line goes first along a whole run: once it has been re-asserted, whatever the rest appends stands after it. -/
theorem runOps_lineBeforeBytes {is : List Instr} {s t : State} (hs : s.LineFirst) (hinit : ∀ d, .init d ∉ is)
    (h : runOps is s = .next t) : ∃ evs, t.history = s.history ++ evs ∧ LineBeforeBytes evs := by
  induction is generalizing s with
  | nil =>
    cases h
    exact ⟨[], (List.append_nil _).symm, lineBeforeBytes_of_txBytes_nil rfl⟩
  | cons i is ih =>
    obtain ⟨u, hu, hrun⟩ := runOps_cons_next h
    obtain ⟨evs, hhist, hevs, hnext⟩ :=
      keepsLineFirst_exec hs (fun d => (List.ne_of_not_mem_cons (hinit d)).symm) hu
    obtain ⟨rest, hrest, hfirst⟩ :
        ∃ rest, t.history = u.history ++ rest ∧ (.fc true ∈ evs ∨ LineBeforeBytes rest) := by
      rcases hnext with hu' | hmem
      · obtain ⟨rest, hrest, hb⟩ := ih hu' (fun d => List.not_mem_of_not_mem_cons (hinit d)) hrun
        exact ⟨rest, hrest, .inr hb⟩
      · obtain ⟨rest, hrest⟩ := runOps_extends_history hrun
        exact ⟨rest, hrest.symm, .inl hmem⟩
    exact ⟨evs ++ rest, by rw [hrest, hhist, List.append_assoc], hevs.append hfirst⟩

/-- Settles O29: from an inhibited state the line goes first along the whole run. -/
theorem lineIsReassertedBeforeTheNextByte : Obligations.LineIsReassertedBeforeTheNextByte := by
  intro is s t before after b hi hinit h hhist
  obtain ⟨evs, hevs, hline⟩ := runOps_lineBeforeBytes (.inl hi) hinit h
  exact hline before after b (List.append_cancel_left (hevs.symm.trans hhist))

end Sys2Proof.Machine
end

section
/-! PROOFS. At most one byte is outstanding on the link (41_output_flow.md R149; 10_state.md R28, R42 item 6). -/

namespace Sys2Proof.Machine

/-- From `s` to `t` one byte is submitted at most, and one only if `idle`. -/
def SubmitsAtMostOne (idle : Prop) (s t : State) : Prop :=
  txBytes t.history = txBytes s.history ∨ (idle ∧ ∃ b, txBytes t.history = txBytes s.history ++ [b])

theorem txBytes_lineUpdated (s : State) : txBytes s.lineUpdated.history = txBytes s.history := by
  rw [lineUpdated_eq]
  exact (txBytes_append _ _).trans (by rw [txBytes_lineEvents, List.append_nil])

theorem txBytes_submittedNext (s : State) :
    txBytes s.submittedNext.history = txBytes s.history ++ [s.obufByte s.or] :=
  txBytes_append _ _

/-- The flush body submits only when nothing drains, which is when the link is idle. -/
theorem flushBody_outstanding {u t : State} (h : flushBody u = .ok t) (hlink : u.LinkInv) :
    t.LinkInv ∧ SubmitsAtMostOne (u.linkByte = none) u t := by
  rcases flushBody_ok h with ⟨_, rfl⟩ | ⟨_, _, rfl⟩ | ⟨hd, _, _, _, _, rfl⟩
  · exact ⟨hlink, .inl rfl⟩
  · exact ⟨hlink, .inl ((txBytes_append _ [.fc _]).trans (List.append_nil _))⟩
  · have hidle : u.linkByte = none := by simpa [State.LinkInv, State.linkBusy, hd] using hlink
    exact ⟨rfl, .inr ⟨hidle, _, txBytes_submittedNext u⟩⟩

/-- TX_READY, once the LINK agent has let go of its byte, goes on draining exactly when it submits another. -/
theorem transmitComplete_outstanding {u t : State} (h : transmitComplete u = .ok t) (hidle : u.linkByte = none) :
    t.LinkInv ∧ SubmitsAtMostOne True u t := by
  rcases transmitComplete_ok h with ⟨hd, rfl⟩ | ⟨_, _, rfl⟩ | ⟨hd, _, _, _, rfl⟩
  · exact ⟨by simp [State.LinkInv, State.linkBusy, hd, hidle], .inl rfl⟩
  · exact ⟨by simp [State.LinkInv, State.linkBusy, hidle], .inl (txBytes_lineUpdated u)⟩
  · refine ⟨(lineUpdated_draining u).trans hd, .inr ⟨trivial, u.lineUpdated.obufByte u.lineUpdated.or, ?_⟩⟩
    rw [txBytes_submittedNext, txBytes_lineUpdated]

/-- Every operation keeps what `draining` says; a byte goes out at TX_READY or on an idle link, and only one. -/
theorem exec_outstanding {i : Instr} {s t : State} (hlink : s.LinkInv) (h : exec i s = .next t) :
    t.LinkInv ∧ SubmitsAtMostOne (i.port = .sw → s.linkByte = none) s t := by
  rcases exec_kinds h with ⟨d, rfl⟩ | hf | ⟨_, _, ⟨_, _, hd, _, _, _, hl, _⟩, evs, hevs, hhist⟩
  · obtain ⟨_, rfl, _⟩ := init_next h
    exact ⟨rfl, .inl ((txBytes_append _ [.reset]).trans (List.append_nil _))⟩
  · obtain ⟨_, hbody⟩ := flow_next hf h
    obtain ⟨_, _, lb, _, hu, hother, htx⟩ := flowStart_eq s hf
    have hhist := flowStart_history i s
    rcases hbody with ⟨⟨d, rfl⟩, hb⟩ | ⟨hne, hb⟩
    · obtain ⟨_, _, hidle, _⟩ := htx ⟨d, rfl⟩
      obtain ⟨hinv, hsub⟩ := transmitComplete_outstanding hb (by rw [hu]; exact hidle)
      rw [SubmitsAtMostOne, hhist] at hsub
      exact ⟨hinv, hsub.imp_right fun ⟨_, hb⟩ => ⟨fun e => Port.noConfusion e, hb⟩⟩
    · obtain ⟨hlb, _⟩ := hother hne
      have hlink' : (s.flowStart i).LinkInv := by rw [hu, hlb]; exact hlink
      have hbyte : (s.flowStart i).linkByte = s.linkByte := by rw [hu, hlb]
      obtain ⟨hinv, hsub⟩ := flushBody_outstanding hb hlink'
      rw [SubmitsAtMostOne, hhist, hbyte] at hsub
      exact ⟨hinv, hsub.imp_right fun ⟨hidle, hb⟩ => ⟨fun _ => hidle, hb⟩⟩
  · refine ⟨by rwa [State.LinkInv, State.linkBusy, hd, hl], .inl ?_⟩
    rw [hhist, txBytes_append, quiet_txBytes hevs, List.append_nil]

/-- Settles O30, read off what every operation submits. -/
theorem atMostOneByteIsOutstanding : Obligations.AtMostOneByteIsOutstanding := by
  intro i s t hlink h
  obtain ⟨hinv, hsame | ⟨hidle, b, hone⟩⟩ := exec_outstanding hlink h
  · exact ⟨hinv, fun _ hne => absurd hsame hne, by simp [hsame]⟩
  · exact ⟨hinv, fun hsw _ => hidle hsw, by simp [hone]⟩

end Sys2Proof.Machine
end

section
/-! PROOFS. Draining to the end (41_output_flow.md R150; 60_exceptions.md R231): one TX_READY for each byte not yet
delivered. -/

namespace Sys2Proof.Machine

/-- With `n` bytes pending behind the byte in flight, `n + 1` TX_READY events submit and deliver them all. -/
theorem runOps_txReady (n : Nat) (d b : Byte) (s : State) (hw : s.ow < s.params.nOut) (hr : s.or < s.params.nOut)
    (hd : s.draining = true) (hi : s.inhibited = false) (hl : s.linkByte = some b) (hn : s.count = n) :
    ∃ t, runOps (List.replicate (n + 1) (.txReady d)) s = .next t ∧
      txBytes t.history = txBytes s.history ++ s.pending ∧ t.hostGot = s.hostGot ++ b :: s.pending ∧
      t.pending = [] ∧ t.draining = false ∧ t.linkByte = none := by
  induction n generalizing b s with
  | zero =>
    have hempty : s.ow = s.or := (State.count_eq_zero hw hr).1 hn
    have hpend : s.pending = [] := pending_nil hw hr hempty
    refine ⟨_, (runOps_singleton _ s).trans (exec_txReady_stop hd (.inr hempty)), ?_, ?_, hpend, rfl, rfl⟩
    · simp only [txBytes_append, txBytes_lineEvents, hpend]
    · simp only [hl, hpend, Option.toList_some]
  | succ n ih =>
    have hne : s.ow ≠ s.or := fun e =>
      Nat.succ_ne_zero n (hn.symm.trans ((State.count_eq_zero hw hr).2 e))
    have hpend := pending_cons hw hr hne
    have hcount := count_next hw hr hne
    obtain ⟨t, hrun, htx, hgot, hrest⟩ := ih (s.obufByte s.or) { s with
      resp := .nothing, linkByte := some (s.obufByte s.or), hostGot := s.hostGot ++ s.linkByte.toList,
      or := s.nextSlot s.or, fcOut := if s.sigChanged then !s.inhibited else s.fcOut, sigChanged := false,
      history := s.history ++ s.lineEvents ++ [.tx (s.obufByte s.or)] }
      hw (Nat.mod_lt _ (by omega)) hd hi rfl (Nat.succ.inj (hcount.trans hn))
    refine ⟨t, ?_, ?_, ?_, hrest⟩
    · rw [List.replicate_succ, runOps, exec_txReady_submit hd hi hne hr]
      exact hrun
    · rw [htx, hpend]
      simp only [txBytes_append, txBytes_lineEvents, List.append_assoc]
      rfl
    · rw [hgot, hpend, hl]
      simp only [Option.toList_some, List.append_assoc]
      rfl

/-- Settles O31: the run of TX_READY events for the bytes pending in this state. -/
theorem drainingDeliversEveryPendingByte : Obligations.DrainingDeliversEveryPendingByte :=
  fun d b s hw hr hd hi hl => runOps_txReady s.count d b s hw hr hd hi hl rfl

end Sys2Proof.Machine
end

section
/-! PROOFS. The consumer operations and the cases of RX_BYTE (42_input.md R170 to R178), one equation each with the
whole next state. -/

namespace Sys2Proof.Machine

/-! ### IN_READ and FRAME_RELEASE (R177, R178) -/

/-- Settles O41: a held frame has its payload in existing slots; otherwise there is nothing to read. -/
theorem inReadReturnsPayloadOrRaises : Obligations.InReadReturnsPayloadOrRaises := by
  intro d s avail hfill _ havail
  have havail : s.avail = avail := havail.symm
  have hslots : s.avail ≤ s.params.nIn - 1 := by
    unfold State.avail
    split <;> omega
  refine ⟨decode_encode (.inRead d), fun hle => ?_, fun hlt => ?_⟩
  · rw [exec_inRead_payload (by omega) (by omega), List.range'_eq_map_range, List.map_map]
    simp only [Function.comp_def, Nat.add_comm 1]
    rfl
  · rw [exec_inRead_tooLarge (by omega), havail]
    rfl

/-- Settles O42, by the two cases of FRAME_RELEASE; the word is the operation's encoding. -/
theorem frameReleaseEndsTheWindowOrRaises : Obligations.FrameReleaseEndsTheWindowOrRaises :=
  fun d _ => ⟨decode_encode (.frameRelease d), exec_frameRelease_held, exec_frameRelease_open⟩

/-! ### RX_BYTE in WAIT (R170, R174) -/

theorem exec_ignored {r : Byte} {s : State} (hh : s.rxHeld = false) (hst : s.rxState = .wait)
    (h : ¬(s.lastRx = s.params.flag ∧ r ≠ s.params.flag)) :
    exec (.rxByte r) s = .next { s with lastRx := r, resp := .nothing } :=
  (exec_rxByte hh).trans (congrArg finish (receive_ignored (s := respond .nothing s) hst h))

/-- Settles O36: the first byte of a frame is received as a byte in the middle of an empty one. -/
theorem receiveInWaitStartsAFrameOrIgnores : Obligations.ReceiveInWaitStartsAFrameOrIgnores := by
  intro r s hh hst hn
  refine ⟨exec_ignored hh hst, fun hl hr he => ?_, fun hl hr he => ?_⟩
  · rw [exec_start hh hst hl hr hn, he]
    exact exec_esc (s := s.opened) hh rfl (he ▸ hr) (Nat.zero_le _)
  · refine ⟨s.opened.afterByte r, ?_, rfl, rfl, rfl, rfl, rfl, rfl, ibufByte_write_same (s := s) rfl,
      fun a ha => ibufByte_write_other (s := s) rfl rfl ha, rfl⟩
    rw [exec_start hh hst hl hr hn]
    exact exec_stored (s := s.opened) hh rfl hr he hn

/-! ### RX_BYTE in the middle of a frame (R171, R175) -/

/-- `s` after raw byte `r` in the middle of a frame with no slot left (R175). -/
def State.overflowed (s : State) (r : Byte) : State :=
  { s with
    fill := 0, rxState := .wait, inCrc := s.params.crcStep s.inCrc (s.unescape r), escaping := false, lastRx := r,
    resp := .nothing, errSticky := s.errSticky ||| 0x01#8, errCode := 1#8, errArg1 := 0#16, errArg2 := 0#16,
    history := s.history ++ [.err .inOverflow 0#16 0#16] }

theorem exec_overflow {r : Byte} {s : State} (hh : s.rxHeld = false) (hst : s.rxState = .assembling)
    (hr : r ≠ s.params.flag) (he : r ≠ s.params.esc) (hf : s.fill = s.params.nIn) :
    exec (.rxByte r) s = .next (s.overflowed r) := by
  have hd := decByte_full (r := r) (s := respond .nothing s) he (Nat.not_lt.2 (Nat.le_of_eq hf.symm))
  rw [exec_rxByte hh, receive_overflow (s := respond .nothing s) hst hr (by rw [hd]; exact Nat.lt_succ_of_le hf.ge), hd]
  rfl

/-- Settles O37, by the equation of each of the three cases. -/
theorem receiveInFrameDecodesOneByte : Obligations.ReceiveInFrameDecodesOneByte := by
  rintro r s b hh hst hf hr rfl
  refine ⟨fun he => ?_, fun he hlt => ?_, fun he => exec_overflow hh hst hr he⟩
  · rw [he]
    exact exec_esc hh hst (he ▸ hr) hf
  · exact ⟨s.afterByte r, exec_stored hh hst hr he hlt, rfl, rfl, rfl, rfl, rfl, ibufByte_write_same (s := s) rfl,
      fun a ha => ibufByte_write_other (s := s) rfl rfl ha, rfl⟩

/-! ### RX_BYTE at the end of a frame (R172, R176) -/

theorem exec_dispatch {s : State} (hh : s.rxHeld = false) (hst : s.rxState = .assembling)
    (hf : s.fill ≤ s.params.nIn) (hc : s.inCrc = s.params.crcGood) (h3 : 3 ≤ s.fill) :
    exec (.rxByte s.params.flag) s = .next { s with
      fill := s.fill - 2, rxState := .wait, rxHeld := true, lastRx := s.params.flag, resp := .nothing,
      history := s.history ++ [.frame (s.fill - 2) ((List.range (s.fill - 2)).map s.ibufByte)] } :=
  (exec_rxByte hh).trans
    (congrArg finish (receive_dispatch (s := respond .nothing s) hst (Nat.le_add_right_of_le hf) hc h3))

theorem exec_badFrame {s : State} (hh : s.rxHeld = false) (hst : s.rxState = .assembling)
    (hf : s.fill ≤ s.params.nIn) (hc : ¬(s.inCrc = s.params.crcGood ∧ 3 ≤ s.fill)) :
    exec (.rxByte s.params.flag) s = .next { s with
      fill := 0, rxState := .wait, lastRx := s.params.flag, resp := .nothing,
      errSticky := s.errSticky ||| 0x02#8, errCode := 2#8, errArg1 := BitVec.ofNat 16 s.fill, errArg2 := 0#16,
      history := s.history ++ [.err .inBadFrame (BitVec.ofNat 16 s.fill) 0#16] } :=
  (exec_rxByte hh).trans
    (congrArg finish (receive_bad (s := respond .nothing s) hst (Nat.le_add_right_of_le hf) hc))

/-- Settles O38, by the equation of each of the two cases. -/
theorem closingFlagDispatchesOrRaises : Obligations.ClosingFlagDispatchesOrRaises :=
  fun _ hh hst hf => ⟨fun ⟨hc, h3⟩ => exec_dispatch hh hst hf hc h3, exec_badFrame hh hst hf⟩

end Sys2Proof.Machine
end

section
/-! PROOFS. A whole frame received from WAIT (42_input.md R180, R183, R185): the logical bytes between its two flags
decide how its closing flag ends it, and those of a wire form are the content and its frame check. -/

namespace Sys2Proof.Machine

/-! ### From one flag to the next -/

theorem rxRaw_append (a b : List Byte) : rxRaw (a ++ b) = rxRaw a ++ rxRaw b :=
  List.map_append

/-- The first logical bytes of a frame stand in the first slots. -/
theorem Received.map_ibufByte {s t : State} {l : List Byte} {e : Bool} (R : Received s.opened t l e) {n : Nat}
    (hn : n ≤ l.length) : (List.range n).map t.ibufByte = l.take n := by
  apply List.ext_getElem (by simp [hn])
  intro k hk hk'
  have hlt : k < l.length := (List.length_take_le' n l).trans_lt' hk'
  have hslot : t.ibufByte (0 + k) = l[k] := R.stored k l[k] (List.getElem?_eq_getElem hlt)
  simpa using hslot

/-- A frame's raw bytes are received, and then its closing flag. -/
theorem runOps_frame {raw : List Byte} {s t u : State}
    (hbody : runOps (rxRaw (s.params.flag :: raw)) s = .next t) (hclose : exec (.rxByte s.params.flag) t = .next u) :
    runOps (rxRaw (s.params.flag :: (raw ++ [s.params.flag]))) s = .next u := by
  rw [← List.cons_append, rxRaw_append]
  exact runOps_append_next hbody ((runOps_singleton _ t).trans hclose)

section
variable {raw l : List Byte} {s : State} (hh : s.rxHeld = false) (hst : s.rxState = .wait) (hne : raw ≠ [])
  (hfl : s.params.flag ∉ raw) (hl : unstuff s.params false raw = l)
include hh hst hne hfl hl

/-- Logical bytes that pass the frame check open the dispatch window without the last two of them. -/
theorem runOps_goodFrame {n : Nat} (hlen : l.length = n + 2) (hn : 1 ≤ n) (hf : n + 2 ≤ s.params.nIn)
    (hc : s.params.crcFold s.params.crcInit l = s.params.crcGood) :
    ∃ t, runOps (rxRaw (s.params.flag :: (raw ++ [s.params.flag]))) s = .next t ∧
      t.history = s.history ++ [.frame n (l.take n)] ∧ t.rxHeld = true ∧ t.fill = n ∧
      (∀ k b, l[k]? = some b → t.ibufByte k = b) ∧ t.errRegs = s.errRegs := by
  obtain ⟨t, hbody, R⟩ := runOps_flag_rxRaw raw s hh hst hne hfl (by omega) (by rwa [hl, hlen])
  rw [hl] at R
  have hp : t.params = s.params := R.params
  have hfill : t.fill = n + 2 := R.fill.trans ((Nat.zero_add _).trans hlen)
  have hcrc : t.inCrc = t.params.crcGood := by rw [hp]; exact R.crc.trans hc
  have hclose := exec_dispatch R.held R.state (by rwa [hfill, hp]) hcrc (by omega)
  rw [hp, hfill, Nat.add_sub_cancel, R.map_ibufByte (by omega)] at hclose
  exact ⟨_, runOps_frame hbody hclose, congrArg (· ++ _) R.history, rfl, rfl,
    fun k b hk => (congrArg t.ibufByte (Nat.zero_add k).symm).trans (R.stored k b hk), R.errRegs⟩

/-- Logical bytes that fail the frame check, or are too few, raise E_IN_BAD_FRAME with their number. -/
theorem runOps_badFrame (hn : 1 ≤ s.params.nIn) (hf : l.length ≤ s.params.nIn)
    (hc : ¬(s.params.crcFold s.params.crcInit l = s.params.crcGood ∧ 3 ≤ l.length)) :
    ∃ t, runOps (rxRaw (s.params.flag :: (raw ++ [s.params.flag]))) s = .next t ∧
      t.history = s.history ++ [.err .inBadFrame (BitVec.ofNat 16 l.length) 0#16] ∧
      t.rxHeld = false ∧ t.fill = 0 ∧ t.rxState = .wait := by
  obtain ⟨t, hbody, R⟩ := runOps_flag_rxRaw raw s hh hst hne hfl hn (by rwa [hl])
  rw [hl] at R
  have hp : t.params = s.params := R.params
  have hfill : t.fill = l.length := R.fill.trans (Nat.zero_add _)
  have hcrc : t.inCrc = s.params.crcFold s.params.crcInit l := R.crc
  have hclose := exec_badFrame R.held R.state (by rwa [hfill, hp]) (by rwa [hfill, hp, hcrc])
  rw [hp, hfill] at hclose
  exact ⟨_, runOps_frame hbody hclose, congrArg (· ++ _) R.history, R.held, rfl, rfl⟩

end

/-! ### The wire form of a content (R77, R79) -/

theorem stuffAll_frameBytes_ne_nil (p : Params) (content : List Byte) : p.stuffAll (p.frameBytes content) ≠ [] := by
  have hlen := (stuffAll_length_bounds p (p.frameBytes content)).1
  rw [frameBytes_length] at hlen
  exact List.ne_nil_of_length_pos (by omega)

theorem take_frameBytes (p : Params) (content : List Byte) :
    (p.frameBytes content).take content.length = content :=
  List.take_left

/-- Settles O44: the raw bytes between the flags stand for the content and its frame check, which passes. -/
theorem receivingAWireFormYieldsItsContent : Obligations.ReceivingAWireFormYieldsItsContent := by
  intro content s h1 hfits hlaw hcheck hst hh
  obtain ⟨t, hrun, hhist, hheld, hfill, hslots, herr⟩ := runOps_goodFrame hh hst
    (stuffAll_frameBytes_ne_nil s.params content) (flag_not_mem_stuffAll hlaw _)
    (unstuff_stuffAll hlaw (s.params.frameBytes content)).1 (frameBytes_length s.params content) h1 hfits hcheck
  rw [take_frameBytes] at hhist
  refine ⟨t, hrun, hhist, hheld, hfill, fun k hk => ?_, herr⟩
  have hget : content[k]? = some content[k] := List.getElem?_eq_getElem hk
  rw [hget, hslots k content[k] ((List.getElem?_append_left hk).trans hget)]

/-- Settles O45: the two bytes of the frame check pass it, and are too few. -/
theorem emptyFrameIsReportedAsBad : Obligations.EmptyFrameIsReportedAsBad :=
  ⟨by decide, fun s hn hlaw _ hst hh => runOps_badFrame hh hst (stuffAll_frameBytes_ne_nil s.params [])
    (flag_not_mem_stuffAll hlaw _) (unstuff_stuffAll hlaw (s.params.frameBytes [])).1 (Nat.le_of_succ_le hn) hn
    fun hc => Nat.not_succ_le_self 2 hc.2⟩

/-! ### One flipped bit (R185) -/

/-- A raw byte that is no ESC stands for one logical byte in its place. -/
theorem unstuff_append_cons {p : Params} {x : Byte} (hx : x ≠ p.esc) (e : Bool) (before after : List Byte) :
    unstuff p e (before ++ x :: after) =
      unstuff p e before ++ (if escapingAfter p e before then x ^^^ p.mask else x) :: unstuff p false after := by
  rw [unstuff_append]
  simp only [unstuff, if_neg hx]

theorem unstuff_length_replace {p : Params} {x y : Byte} (hx : x ≠ p.esc) (hy : y ≠ p.esc) (e : Bool)
    (before after : List Byte) :
    (unstuff p e (before ++ x :: after)).length = (unstuff p e (before ++ y :: after)).length := by
  simp only [unstuff_append_cons hx, unstuff_append_cons hy, List.length_append, List.length_cons]

/-- Replacing one raw byte by another, neither an ESC, changes the default CRC of the logical bytes. -/
theorem crcFold_unstuff_ne {p : Params} (hp : p.crcAlg = .fcs16) {x y : Byte} (hx : x ≠ p.esc) (hy : y ≠ p.esc)
    (hxy : x ≠ y) (e : Bool) (c : Word) (before after : List Byte) :
    p.crcFold c (unstuff p e (before ++ x :: after)) ≠ p.crcFold c (unstuff p e (before ++ y :: after)) := by
  rw [unstuff_append_cons hx, unstuff_append_cons hy]
  refine crcFold_ne hp c _ _ ?_
  split
  · exact fun h => hxy ((BitVec.xor_left_inj _).1 h)
  · exact hxy

theorem crcFold_eq_default {p : Params} (hp : p.crcAlg = .fcs16) (c : Word) (l : List Byte) :
    p.crcFold c l = Params.default.crcFold c l := by
  induction l generalizing c with
  | nil => rfl
  | cons b l ih =>
    have hstep : p.crcStep c b = Params.default.crcStep c b := by simp only [Params.crcStep, hp]; rfl
    rw [Params.crcFold, Params.crcFold, hstep, ih]

theorem frameCheckHolds_fcs16 {p : Params} (hp : p.crcAlg = .fcs16) (hgood : p.crcGood = 0xF0B8#16)
    (content : List Byte) : FrameCheckHolds p content := by
  unfold FrameCheckHolds Params.frameBytes
  rw [crcFold_append, crcFold_eq_default hp _ (frameCheckBytes _), crcFold_frameCheckBytes, hgood]

/-- Settles O47: the altered wire form stands for as many logical bytes as the content and its frame check, and its
CRC is not theirs, which is the good one. -/
theorem singleBitFlipIsRejected : Obligations.SingleBitFlipIsRejected := by
  intro content before after x k s halg _ hgood hlaw hfits hraw hk hx hflag hesc hst hh
  have hnot := flag_not_mem_stuffAll hlaw (s.params.frameBytes content)
  have hbytes := (unstuff_stuffAll hlaw (s.params.frameBytes content)).1
  rw [hraw] at hnot hbytes
  have hlen := unstuff_length_replace hesc hx false before after
  rw [hbytes, frameBytes_length] at hlen
  have hcrc := crcFold_unstuff_ne halg hesc hx (ne_xor_bit hk).symm false s.params.crcInit before after
  rw [hbytes, frameCheckHolds_fcs16 halg hgood content] at hcrc
  have hnot' : s.params.flag ∉ before ++ (x ^^^ (1#8 <<< k)) :: after := by
    simp only [List.mem_append, List.mem_cons, not_or] at hnot ⊢
    exact ⟨hnot.1, hflag.symm, hnot.2.2⟩
  obtain ⟨t, hrun, hhist, hheld, -, -⟩ := runOps_badFrame hh hst
    (List.append_ne_nil_of_right_ne_nil _ (List.cons_ne_nil _ _)) hnot' rfl (by omega) (by omega) fun h => hcrc h.1
  exact ⟨t, hrun, hlen ▸ hhist, hheld⟩

end Sys2Proof.Machine
end

section
/-! PROOFS. Overflow and the bytes after it (42_input.md R181). -/

namespace Sys2Proof.Machine

theorem unstuff_of_not_mem_esc {p : Params} {raw : List Byte} (h : ∀ b ∈ raw, b ≠ p.esc) :
    unstuff p false raw = raw := by
  induction raw with
  | nil => rfl
  | cons r raw ih =>
    obtain ⟨hr, hraw⟩ := List.forall_mem_cons.1 h
    simp only [unstuff, if_neg hr, ih hraw]
    rfl

/-- Raw bytes without a flag, in WAIT and not after a flag, are only recorded. -/
theorem runOps_ignored {raw : List Byte} {s : State} (hh : s.rxHeld = false) (hst : s.rxState = .wait)
    (hl : s.lastRx ≠ s.params.flag) (hfl : ∀ b ∈ raw, b ≠ s.params.flag) :
    ∃ b v, runOps (rxRaw raw) s = .next { s with lastRx := b, resp := v } := by
  induction raw generalizing s with
  | nil => exact ⟨s.lastRx, s.resp, rfl⟩
  | cons r raw ih =>
    obtain ⟨hr, hraw⟩ := List.forall_mem_cons.1 hfl
    obtain ⟨b, v, hrun⟩ := ih (s := { s with lastRx := r, resp := .nothing }) hh hst hr hraw
    refine ⟨b, v, ?_⟩
    rw [rxRaw, List.map_cons, runOps, exec_ignored hh hst fun h => hl h.1]
    exact hrun

/-- As many bytes after a flag as there are slots fill the buffer. -/
theorem runOps_fill {full : List Byte} {s : State} (hh : s.rxHeld = false) (hst : s.rxState = .wait)
    (hn : 1 ≤ s.params.nIn) (hlen : full.length = s.params.nIn) (hfl : ∀ b ∈ full, b ≠ s.params.flag)
    (hesc : ∀ b ∈ full, b ≠ s.params.esc) :
    ∃ t, runOps (rxRaw (s.params.flag :: full)) s = .next t ∧ t.params = s.params ∧ t.rxHeld = false ∧
      t.rxState = .assembling ∧ t.fill = s.params.nIn ∧ t.history = s.history := by
  have hun := unstuff_of_not_mem_esc hesc
  obtain ⟨t, hrun, R⟩ := runOps_flag_rxRaw full s hh hst (List.ne_nil_of_length_pos (by omega))
    (fun h => hfl _ h rfl) hn (by rw [hun, hlen])
  rw [hun] at R
  exact ⟨t, hrun, R.params, R.held, R.state, R.fill.trans ((Nat.zero_add _).trans hlen), R.history⟩

/-- A flag and another byte start a frame. -/
theorem runOps_restart {r : Byte} {s : State} (hh : s.rxHeld = false) (hst : s.rxState = .wait)
    (hn : 1 ≤ s.params.nIn) (hr : r ≠ s.params.flag) :
    ∃ t, runOps (rxRaw [s.params.flag, r]) s = .next t ∧ t.rxState = .assembling ∧ t.history = s.history := by
  obtain ⟨t, hrun, R⟩ := runOps_flag_rxRaw [r] s hh hst (List.cons_ne_nil _ _) (by simpa using hr.symm) hn
    ((unstuff_length_le _ _ _).trans hn)
  exact ⟨t, hrun, R.state, R.history⟩

/-- Settles O46: the first N_IN bytes fill the buffer, the next one overflows it, the others are only recorded. -/
theorem overflowIsRaisedOnceAndReceptionResumes : Obligations.OverflowIsRaisedOnceAndReceptionResumes := by
  intro raw r s hn hlen hfl hesc hr hst hh
  obtain ⟨full, x, rest, rfl, hfull⟩ : ∃ full x rest, raw = full ++ x :: rest ∧ full.length = s.params.nIn :=
    ⟨raw.take s.params.nIn, raw[s.params.nIn], raw.drop (s.params.nIn + 1), by simp,
      List.length_take_of_le (Nat.le_of_lt hlen)⟩
  have htake : (full ++ x :: rest).take s.params.nIn = full := List.take_left' hfull
  have hescs : (full ++ x :: rest).take (s.params.nIn + 1) = full ++ [x] := by
    rw [← hfull, List.take_length_add_append]
    rfl
  rw [hescs, List.forall_mem_append, List.forall_mem_singleton] at hesc
  rw [List.forall_mem_append, List.forall_mem_cons] at hfl
  obtain ⟨hflfull, hflx, hflrest⟩ := hfl
  obtain ⟨hescfull, hescx⟩ := hesc
  obtain ⟨t, hrun, hp, hheld, hstate, hfill, hhist⟩ := runOps_fill hh hst hn hfull hflfull hescfull
  rw [← hp] at hflx hflrest hescx hr hn
  have hover := exec_overflow hheld hstate hflx hescx (hp ▸ hfill)
  obtain ⟨b, v, hrest⟩ := runOps_ignored (s := t.overflowed x) hheld rfl hflx hflrest
  obtain ⟨w, hstart, hwstate, hwhist⟩ :=
    runOps_restart (s := { t.overflowed x with lastRx := b, resp := v }) hheld rfl hn hr
  have hraw : runOps (rxRaw (s.params.flag :: (full ++ x :: rest))) s =
      .next { t.overflowed x with lastRx := b, resp := v } := by
    rw [← List.cons_append, rxRaw_append]
    refine runOps_append_next hrun ?_
    rw [rxRaw, List.map_cons, runOps, hover]
    exact hrest
  refine ⟨t, _, w, htake.symm ▸ hrun, hhist, hraw, congrArg (· ++ _) hhist, rfl, rfl, ?_, hwstate, hwhist⟩
  rw [← hp]
  exact hstart

end Sys2Proof.Machine
end

section
/-! PROOFS. The fields of a concatenation by bit number (00_scope.md R10): a field is found by dropping what stands
below it. -/

namespace Sys2Proof.Machine

theorem getLsbD_append_statusBit_zero {n : Nat} (x : BitVec n) (b : Bool) : (x ++ statusBit b).getLsbD 0 = b :=
  BitVec.getLsbD_concat_zero

theorem getLsbD_append_statusBit_succ {n : Nat} (x : BitVec n) (b : Bool) (k : Nat) :
    (x ++ statusBit b).getLsbD (k + 1) = x.getLsbD k :=
  BitVec.getLsbD_concat_succ

/-- The low bits of a concatenation, where they reach past its last part. -/
theorem extractLsb'_zero_append {m n : Nat} (x : BitVec m) (y : BitVec n) (k : Nat) :
    (x ++ y).extractLsb' 0 (k + n) = x.extractLsb' 0 k ++ y := by
  rw [← BitVec.extractLsb'_append_extractLsb'_eq_extractLsb' (Nat.zero_add n).symm,
    BitVec.extractLsb'_append_eq_of_le le_rfl, Nat.sub_self, BitVec.extractLsb'_append_eq_right]

end Sys2Proof.Machine
end

section
/-! PROOFS. The status words (43_control.md R201 to R205): the fields of each, and what it is after reset
(70_reset_and_hazards.md R250). -/

namespace Sys2Proof.Machine

/-! ### OUT_STATUS (R201) -/

theorem outStatusWord_flags (s : State) :
    s.outStatusWord.getLsbD 0 = decide (s.ow = s.or) ∧ s.outStatusWord.getLsbD 1 = s.draining ∧
    s.outStatusWord.getLsbD 2 = s.inhibited ∧ s.outStatusWord.getLsbD 3 = s.sigChanged ∧
    s.outStatusWord.getLsbD 4 = s.fcOut ∧ s.outStatusWord.getLsbD 5 = s.encActive := by
  unfold State.outStatusWord
  refine ⟨?_, ?_, ?_, ?_, ?_, ?_⟩
  all_goals
    repeat rw [getLsbD_append_statusBit_succ]
    exact getLsbD_append_statusBit_zero _ _

theorem outStatusWord_bytes (s : State) :
    s.outStatusWord.extractLsb' 6 2 = 0#2 ∧ s.outStatusWord.extractLsb' 8 8 = BitVec.ofNat 8 s.count ∧
    s.outStatusWord.extractLsb' 16 8 = BitVec.ofNat 8 s.ow ∧
    s.outStatusWord.extractLsb' 24 8 = BitVec.ofNat 8 s.or := by
  unfold State.outStatusWord
  refine ⟨?_, ?_, ?_, ?_⟩
  all_goals repeat rw [BitVec.extractLsb'_append_eq_of_le (by decide)]
  case refine_4 => exact BitVec.extractLsb'_eq_self
  all_goals exact BitVec.extractLsb'_append_eq_right

/-- After reset the channel is empty and the line is up, and nothing else is set. -/
theorem outStatusWord_resetWith (p : Params) : (State.resetWith p).outStatusWord = 0x00000011#32 := by
  have hcount : (State.resetWith p).count = 0 := by simp [State.count, State.resetWith]
  rw [State.outStatusWord, hcount]
  simp [State.empty, State.resetWith, statusBit]

/-! ### IN_STATUS (R202) -/

theorem inStatusWord_flags (s : State) (cmd : Byte) :
    (s.inStatusWord cmd).getLsbD 0 = decide (s.rxState = .assembling) ∧
    (s.inStatusWord cmd).getLsbD 1 = s.escaping ∧ (s.inStatusWord cmd).getLsbD 2 = s.rxHeld := by
  unfold State.inStatusWord
  refine ⟨?_, ?_, ?_⟩
  all_goals
    repeat rw [getLsbD_append_statusBit_succ]
    exact getLsbD_append_statusBit_zero _ _

theorem inStatusWord_bytes (s : State) (cmd : Byte) :
    (s.inStatusWord cmd).extractLsb' 3 5 = 0#5 ∧ (s.inStatusWord cmd).extractLsb' 8 8 = BitVec.ofNat 8 s.fill ∧
    (s.inStatusWord cmd).extractLsb' 16 8 = s.lastRx ∧ (s.inStatusWord cmd).extractLsb' 24 8 = cmd := by
  unfold State.inStatusWord
  refine ⟨?_, ?_, ?_, ?_⟩
  all_goals repeat rw [BitVec.extractLsb'_append_eq_of_le (by decide)]
  case refine_4 => exact BitVec.extractLsb'_eq_self
  all_goals exact BitVec.extractLsb'_append_eq_right

/-- The low half of the word is the fill level and the flags. -/
theorem inStatusWord_low (s : State) (cmd : Byte) :
    (s.inStatusWord cmd).extractLsb' 0 16 =
      BitVec.ofNat 8 s.fill ++ 0b00000#5 ++ statusBit s.rxHeld ++ statusBit s.escaping ++
        statusBit (s.rxState == .assembling) := by
  unfold State.inStatusWord
  rw [extractLsb'_zero_append (n := 1) _ _ 15, extractLsb'_zero_append (n := 1) _ _ 14,
    extractLsb'_zero_append (n := 1) _ _ 13, extractLsb'_zero_append (n := 5) _ _ 8,
    BitVec.extractLsb'_append_eq_right]

theorem inStatusWord_resetWith (p : Params) (cmd : Byte) :
    ((State.resetWith p).inStatusWord cmd).extractLsb' 16 8 = p.rxLastReset ∧
    ((State.resetWith p).inStatusWord cmd).extractLsb' 0 16 = 0#16 := by
  obtain ⟨_, _, hlast, _⟩ := inStatusWord_bytes (State.resetWith p) cmd
  refine ⟨hlast, (inStatusWord_low _ _).trans ?_⟩
  change 0x00#8 ++ 0b00000#5 ++ statusBit false ++ statusBit false ++ statusBit false = 0#16
  decide

/-! ### ERR_STATUS, ERR_ARGS and CRC_STATUS (R203 to R205) -/

theorem errStatusWord_fields (s : State) :
    s.errStatusWord.extractLsb' 0 8 = s.errSticky ∧ s.errStatusWord.extractLsb' 8 8 = s.errCode ∧
    s.errStatusWord.extractLsb' 16 16 = 0#16 := by
  unfold State.errStatusWord
  refine ⟨BitVec.extractLsb'_append_eq_right, ?_, ?_⟩
  all_goals rw [BitVec.extractLsb'_append_eq_of_le (by decide)]
  · exact BitVec.extractLsb'_append_eq_right
  · exact BitVec.extractLsb'_append_eq_left

theorem errStatusWord_resetWith (p : Params) : (State.resetWith p).errStatusWord = 0#32 := by
  simp [State.errStatusWord, State.resetWith]

theorem errArgsWord_fields (s : State) :
    s.errArgsWord.extractLsb' 0 16 = s.errArg1 ∧ s.errArgsWord.extractLsb' 16 16 = s.errArg2 :=
  ⟨BitVec.extractLsb'_append_eq_right, BitVec.extractLsb'_append_eq_left⟩

theorem errArgsWord_resetWith (p : Params) : (State.resetWith p).errArgsWord = 0#32 :=
  BitVec.zero_append_zero

theorem crcStatusWord_fields (s : State) :
    s.crcStatusWord.extractLsb' 0 16 = s.outCrc ∧ s.crcStatusWord.extractLsb' 16 16 = s.inCrc :=
  ⟨BitVec.extractLsb'_append_eq_right, BitVec.extractLsb'_append_eq_left⟩

end Sys2Proof.Machine
end

section
/-! PROOFS. NOP, the status reads, ERR_CLEAR and INIT (43_control.md R200 to R207). -/

namespace Sys2Proof.Machine

/-- Settles O8: NOP answers the empty response alone; the word is the operation's encoding. -/
theorem nopLeavesEveryFieldUnchanged : Obligations.NopLeavesEveryFieldUnchanged :=
  fun d s => ⟨decode_encode (.nop d), respond .nothing s, rfl, rfl, rfl⟩

/-! ### The status reads (R201 to R205) -/

/-- Settles O10, by the fields of the word. -/
theorem outStatusReturnsTheOutputFields : Obligations.OutStatusReturnsTheOutputFields := by
  intro d s
  obtain ⟨hempty, hdraining, hinhibited, hsig, hfc, hactive⟩ := outStatusWord_flags s
  obtain ⟨hzero, hcount, how, hor⟩ := outStatusWord_bytes s
  refine ⟨decode_encode (.outStatus d), s.outStatusWord, rfl, hempty, hdraining, hinhibited, hsig, hfc, hactive,
    hzero, hcount, how, hor, ?_⟩
  rintro p rfl
  exact outStatusWord_resetWith p

/-- `cmd` of IN_STATUS (R202): the first byte of the held frame, or 0 when none is held. -/
def State.commandByte (s : State) : Byte :=
  if s.rxHeld then s.ibufByte 0 else 0x00#8

/-- IN_STATUS in one equation: a held frame has its first byte in an existing slot. -/
theorem exec_inStatus {d : Byte} {s : State} (h : s.rxHeld = true → 1 ≤ s.params.nIn) :
    exec (.inStatus d) s = .next (respond (.word (s.inStatusWord s.commandByte)) s) := by
  unfold State.commandByte
  cases hh : s.rxHeld with
  | true => exact exec_inStatus_held hh (h hh)
  | false => exact exec_inStatus_open hh

/-- Settles O11, by the fields of the word, whose `cmd` is the byte that IN_STATUS reads. -/
theorem inStatusReturnsTheInputFields : Obligations.InStatusReturnsTheInputFields := by
  intro d s h
  obtain ⟨hassembling, hescaping, hheld⟩ := inStatusWord_flags s s.commandByte
  obtain ⟨hzero, hfill, hlast, hcmd⟩ := inStatusWord_bytes s s.commandByte
  refine ⟨decode_encode (.inStatus d), s.inStatusWord s.commandByte, exec_inStatus h, hassembling, hescaping, hheld,
    hzero, hfill, hlast, hcmd, ?_⟩
  rintro p rfl
  exact inStatusWord_resetWith p _

/-- Settles O12, by the fields of the word. -/
theorem errStatusReturnsTheErrorSummary : Obligations.ErrStatusReturnsTheErrorSummary := by
  intro d s
  obtain ⟨hsticky, hcode, hzero⟩ := errStatusWord_fields s
  refine ⟨decode_encode (.errStatus d), s.errStatusWord, rfl, hsticky, hcode, hzero, ?_⟩
  rintro p rfl
  exact errStatusWord_resetWith p

/-- Settles O13, by the fields of the word. -/
theorem errArgsReturnsBothArguments : Obligations.ErrArgsReturnsBothArguments := by
  intro d s
  obtain ⟨harg1, harg2⟩ := errArgsWord_fields s
  refine ⟨decode_encode (.errArgs d), s.errArgsWord, rfl, harg1, harg2, ?_⟩
  rintro p rfl
  exact errArgsWord_resetWith p

/-- Settles O14, by the fields of the word; after reset they are the CRCs of the state after reset. -/
theorem crcStatusReturnsBothCrcs : Obligations.CrcStatusReturnsBothCrcs := by
  intro d s
  obtain ⟨hout, hin⟩ := crcStatusWord_fields s
  refine ⟨decode_encode (.crcStatus d), s.crcStatusWord, rfl, hout, hin, ?_⟩
  rintro p rfl
  exact ⟨hout, hin⟩

/-! ### ERR_CLEAR (R206) -/

theorem getLsbD_maskOperand (m : Byte) {k : Nat} (hk : k < 8) :
    (maskOperand m).getLsbD k = (m.getLsbD k && decide (k < 6)) := by
  have hsix : ∀ k < 8, (0x3F#8).getLsbD k = decide (k < 6) := by decide
  rw [maskOperand, BitVec.getLsbD_and, hsix k hk]

theorem getLsbD_acknowledge (m : Byte) (s : State) {k : Nat} (hk : k < 8) :
    (acknowledge m s).errSticky.getLsbD k = (s.errSticky.getLsbD k && !(m.getLsbD k && decide (k < 6))) := by
  rw [acknowledge_errSticky, BitVec.getLsbD_and, BitVec.getLsbD_not, getLsbD_maskOperand m hk, decide_eq_true hk,
    Bool.true_and]

/-- Settles O15: ERR_CLEAR acknowledges the errors of its mask, and that writes the sticky bits alone. -/
theorem errClearClearsExactlyTheMaskedErrors : Obligations.ErrClearClearsExactlyTheMaskedErrors :=
  fun m s => ⟨decode_encode (.errClear m), acknowledge m (respond .nothing s), rfl, rfl,
    fun _ hk => getLsbD_acknowledge m (respond .nothing s) hk, rfl⟩

/-! ### INIT (R207, R250) -/

/-- INIT in one equation, but for the fate of the byte on the link. -/
theorem exec_init (d : Byte) (s : State) : ∃ l, exec (.init d) s = .next { State.resetWith s.params with
    history := s.history ++ [.reset], hostGot := l, arrivals := s.arrivals, draws := s.draws + 1 } := by
  obtain ⟨l, hl, _⟩ := init_next (d := d) (s := s) rfl
  exact ⟨l, congrArg Host.Outcome.next hl⟩

/-- Settles O16, read off the equation of INIT: each field is that of the state after reset. -/
theorem initIsAPowerOnReset : Obligations.InitIsAPowerOnReset := by
  intro d s
  obtain ⟨_, hinit⟩ := exec_init d s
  exact ⟨_, hinit, rfl, rfl, rfl, rfl, rfl, rfl, rfl, rfl, rfl, rfl, rfl, rfl, rfl, rfl, rfl, rfl, rfl, rfl, rfl, rfl,
    rfl, fun _ => ⟨rfl, rfl⟩⟩

end Sys2Proof.Machine
end

section
/-! PROOFS. Nothing stops the machine (60_exceptions.md R227, R233, R253): in the ranges of the indices every operation
answers a next state. -/

namespace Sys2Proof.Machine

theorem exec_txReady_answers {s : State} (hr : s.or < s.params.nOut) (d : Byte) :
    ∃ t, exec (.txReady d) s = .next t := by
  obtain ⟨t, ht⟩ := transmitComplete_isOk (s := s.delivered) hr
  exact ⟨t, (exec_txReady d s).trans (finish_next.2 ht)⟩

theorem exec_flush_answers {s : State} (hr : s.or < s.params.nOut) (d : Byte) : ∃ t, exec (.flush d) s = .next t := by
  obtain ⟨t, ht⟩ := flushBody_isOk (s := respond .nothing s) hr
  exact ⟨t, finish_next.2 ht⟩

/-- RX_BYTE in the dispatch window answers too: its byte is put back (log 6). -/
theorem exec_rxByte_answers {s : State} (hf : s.fill ≤ s.params.nIn) (r : Byte) :
    ∃ t, exec (.rxByte r) s = .next t := by
  cases hh : s.rxHeld with
  | true => exact ⟨_, exec_rxByte_held hh⟩
  | false =>
    obtain ⟨t, ht⟩ := receive_isOk (r := r) (s := respond .nothing s) hf
    exact ⟨t, (exec_rxByte hh).trans (finish_next.2 ht)⟩

/-- The payload bytes that IN_READ may return are slots `1` to `fill - 1`, which exist (R177). -/
theorem exec_inRead_answers {s : State} (hf : s.fill ≤ s.params.nIn) (n : Byte) :
    ∃ t, exec (.inRead n) s = .next t := by
  by_cases ha : s.avail < n.toNat
  · exact ⟨_, exec_inRead_tooLarge ha⟩
  · have hav : s.avail ≤ s.fill - 1 := by unfold State.avail; split <;> omega
    exact ⟨_, exec_inRead_payload (Nat.le_of_not_lt ha) (by omega)⟩

theorem exec_frameRelease_answers (d : Byte) (s : State) : ∃ t, exec (.frameRelease d) s = .next t := by
  cases hh : s.rxHeld with
  | true => exact ⟨_, exec_frameRelease_held hh⟩
  | false => exact ⟨_, exec_frameRelease_open hh⟩

/-- Every operation answers in a state of the invariant. -/
theorem exec_answers {s : State} (h : s.Inv) (i : Instr) : ∃ t, exec i s = .next t := by
  obtain ⟨⟨_, _, _, _, hn, _⟩, ⟨hw, hr, hf⟩, _⟩ := h
  cases i with
  | nop d | outStatus d | errStatus d | errArgs d | crcStatus d | errClear m | init d => exact ⟨_, rfl⟩
  | encOpen d => exact ⟨_, exec_encOpen hw hr d⟩
  | encByte b => exact ⟨_, exec_encByte hw hr b⟩
  | encClose d => exact ⟨_, exec_encClose hw hr d⟩
  | flush d => exact exec_flush_answers hr d
  | inhibitStart d => exact ⟨_, exec_inhibitStart d s⟩
  | inhibitStop d => exact ⟨_, exec_inhibitStop d s⟩
  | txReady d => exact exec_txReady_answers hr d
  | inRead n => exact exec_inRead_answers hf n
  | inStatus d => exact ⟨_, exec_inStatus (d := d) fun _ => by omega⟩
  | frameRelease d => exact exec_frameRelease_answers d s
  | rxByte r => exact exec_rxByte_answers hf r

/-- Settles O59: a step answers at once or runs an operation, and what is still to arrive is no part of the
invariant. -/
theorem invariantStatesNeverStop : Obligations.InvariantStatesNeverStop := by
  intro s h
  refine ⟨?_, exec_answers h⟩
  rcases step_cases s with ⟨_, e⟩ | ⟨_, _, e⟩ | ⟨_, _, _, _, _, e⟩ | ⟨_, _, rest, i, _, _, e⟩ <;> rw [e]
  · exact ⟨_, rfl⟩
  · exact ⟨_, rfl⟩
  · exact ⟨_, rfl⟩
  · exact exec_answers (s := { s with arrivals := rest }) h i

end Sys2Proof.Machine
end

section
/-! PROOFS. The error registers follow the ERR events (60_exceptions.md R221, R223; 10_state.md R38, R39), and the level
outputs follow the registers (R226). -/

namespace Sys2Proof.Machine

/-! ### The registers record the events -/

/-- From `s` to `t` the history grows by some events, and the error registers record the errors among them. -/
def RecordsErrors (s t : State) : Prop :=
  ∃ evs : List Event, t.history = s.history ++ evs ∧ t.errRegs = recordErrors evs s.errRegs

theorem RecordsErrors.trans {s t u : State} (h : RecordsErrors s t) (h' : RecordsErrors t u) : RecordsErrors s u := by
  obtain ⟨evs, hhist, hregs⟩ := h
  obtain ⟨evs', hhist', hregs'⟩ := h'
  refine ⟨evs ++ evs', ?_, ?_⟩
  · rw [hhist', hhist, List.append_assoc]
  · rw [hregs', hregs, recordErrors_append]

theorem recordsErrors_of_eq {s t : State} (hh : t.history = s.history) (hr : t.errRegs = s.errRegs) :
    RecordsErrors s t :=
  ⟨[], by rw [hh, List.append_nil], hr⟩

/-- A line update and a submission append events that are no errors, and leave the registers alone. -/
theorem FlowWrites.recordsErrors {u t : State} (h : FlowWrites u t) : RecordsErrors u t := by
  obtain ⟨v, hv, d, ht⟩ := h
  have huv : RecordsErrors u v := by
    rcases hv with rfl | rfl
    · exact recordsErrors_of_eq rfl rfl
    · exact ⟨[.fc _], rfl, rfl⟩
  refine huv.trans ?_
  rcases ht with rfl | ⟨_, _, _, rfl⟩
  · exact recordsErrors_of_eq rfl rfl
  · exact ⟨[.tx _], rfl, rfl⟩

theorem exec_recordsErrors {i : Instr} {s t : State} (hclear : ∀ m, i ≠ .errClear m) (hinit : ∀ d, i ≠ .init d)
    (h : exec i s = .next t) : RecordsErrors s t := by
  cases hf : isFlow i with
  | true =>
    obtain ⟨hw, _⟩ := flow_next hf h
    obtain ⟨_, _, _, _, hu, _⟩ := flowStart_eq s hf
    have hstart : RecordsErrors s (s.flowStart i) := by
      rw [hu]
      exact recordsErrors_of_eq rfl rfl
    exact hstart.trans hw.recordsErrors
  | false =>
    obtain ⟨_, evs, _, hhist, hregs⟩ := quietOn_exec hf hinit hclear h
    exact ⟨evs, hhist, hregs⟩

/-- Sticky bits that are set stay set while errors are recorded (R38). -/
theorem recordErrors_keeps_sticky (evs : List Event) {m : BitVec 8} {r : ErrRegs} (h : m &&& r.sticky = m) :
    m &&& (recordErrors evs r).sticky = m := by
  induction evs generalizing r with
  | nil => exact h
  | cons e evs ih =>
    cases e with
    | err k a1 a2 =>
      refine ih ?_
      rw [BitVec.and_or_distrib_left, h]
      ext n hn
      rw [BitVec.getElem_or, BitVec.getElem_and]
      cases m[n] <;> rfl
    | _ => exact ih h

/-- Settles O52: every operation but ERR_CLEAR and INIT records its own errors, which clears no bit. -/
theorem errorRegistersRecordTheErrorEvents : Obligations.ErrorRegistersRecordTheErrorEvents := by
  intro i s t hi h
  obtain ⟨evs, hhist, hregs⟩ := exec_recordsErrors (fun m => (hi m).1) (fun d => (hi d).2) h
  refine ⟨evs, hhist, hregs, ?_⟩
  have hkeep := recordErrors_keeps_sticky evs (r := s.errRegs) (BitVec.and_self (x := s.errSticky))
  rwa [← hregs] at hkeep

/-! ### The level outputs -/

theorem errIrq_eq_true_iff (s : State) : s.errIrq = true ↔ s.errSticky ≠ 0#8 :=
  bne_iff_ne

theorem errIrq_eq_false_iff (s : State) : s.errIrq = false ↔ s.errSticky = 0#8 :=
  bne_eq_false_iff_eq

theorem exec_errClear_errIrq {m : Byte} {s t : State} (h : exec (.errClear m) s = .next t) :
    t.errIrq = false ↔ s.errSticky &&& ~~~(m &&& 0x3F#8) = 0#8 := by
  rw [errIrq_eq_false_iff, errClear_next h]
  rfl

/-- Settles O54: FRAME_RELEASE leaves no frame held in either of its cases, and what the mask 0x3F leaves are the high
bits. -/
theorem interruptOutputsFollowTheirCauses : Obligations.InterruptOutputsFollowTheirCauses := by
  intro s
  refine ⟨Iff.rfl, errIrq_eq_true_iff s, fun d t h => ?_, fun m t h => exec_errClear_errIrq h, fun t hst h => ?_⟩
  · rcases frameRelease_next h with ⟨_, rfl⟩ | ⟨hh, rfl⟩
    · rfl
    · exact hh
  · have hmask : ~~~(0x3F#8 &&& 0x3F#8) = 0xC0#8 := by decide
    rw [exec_errClear_errIrq h, hmask]
    exact hst

end Sys2Proof.Machine
end
section
/-! PROOFS. The link keeps the order of the bytes (60_exceptions.md R231; 41_output_flow.md R141): what the HOST has
received, and then the byte in flight, grows by what is submitted. -/

namespace Sys2Proof.Machine

/-- The bytes that have passed to the LINK agent, oldest first: those delivered to the HOST, then the one in flight. -/
def State.onLink (s : State) : List Byte :=
  s.hostGot ++ s.linkByte.toList

/-- From `s` to `t` the submitted bytes and the bytes that have passed to the LINK agent grow by the same list. -/
def LinkKeepsPace (s t : State) : Prop :=
  ∃ new : List Byte, txBytes t.history = txBytes s.history ++ new ∧ t.onLink = s.onLink ++ new

theorem linkKeepsPace_of_eq {s t : State} (htx : txBytes t.history = txBytes s.history) (hl : t.onLink = s.onLink) :
    LinkKeepsPace s t :=
  ⟨[], by rw [htx, List.append_nil], by rw [hl, List.append_nil]⟩

/-- A byte that is submitted on an idle link follows those delivered. -/
theorem linkKeepsPace_submittedNext {s : State} (hidle : s.linkByte = none) : LinkKeepsPace s s.submittedNext := by
  refine ⟨_, txBytes_submittedNext s, ?_⟩
  rw [State.onLink, State.onLink, hidle, Option.toList_none, List.append_nil]
  rfl

theorem onLink_lineUpdated (s : State) : s.lineUpdated.onLink = s.onLink := by
  rw [lineUpdated_eq]
  rfl

/-- The flush body submits only when nothing drains, which is when the link is idle. -/
theorem flushBody_linkKeepsPace {u t : State} (h : flushBody u = .ok t) (hlink : u.LinkInv) : LinkKeepsPace u t := by
  rcases flushBody_ok h with ⟨_, rfl⟩ | ⟨_, _, rfl⟩ | ⟨hd, _, _, _, _, rfl⟩
  · exact linkKeepsPace_of_eq rfl rfl
  · exact linkKeepsPace_of_eq ((txBytes_append _ [.fc _]).trans (List.append_nil _)) rfl
  · have hidle : u.linkByte = none := by simpa [State.LinkInv, State.linkBusy, hd] using hlink
    exact linkKeepsPace_submittedNext hidle

theorem transmitComplete_linkKeepsPace {u t : State} (h : transmitComplete u = .ok t) (hidle : u.linkByte = none) :
    LinkKeepsPace u t := by
  rcases transmitComplete_ok h with ⟨_, rfl⟩ | ⟨_, _, rfl⟩ | ⟨_, _, _, _, rfl⟩
  · exact linkKeepsPace_of_eq rfl rfl
  · exact linkKeepsPace_of_eq (txBytes_lineUpdated u) (onLink_lineUpdated u)
  · have hnext := linkKeepsPace_submittedNext ((lineUpdated_linkByte u).trans hidle)
    rwa [LinkKeepsPace, txBytes_lineUpdated, onLink_lineUpdated] at hnext

/-- The LINK agent's side of a TX_READY moves its byte to the HOST; no other start of a flow operation touches the
link. -/
theorem flowStart_onLink {i : Instr} (s : State) (hi : isFlow i = true) : (s.flowStart i).onLink = s.onLink := by
  obtain ⟨_, _, lb, hg, hu, hother, htx⟩ := flowStart_eq s hi
  rw [hu]
  change hg ++ lb.toList = s.onLink
  by_cases hd : ∃ d, i = .txReady d
  · obtain ⟨_, _, rfl, rfl⟩ := htx hd
    exact List.append_nil _
  · obtain ⟨rfl, rfl⟩ := hother (not_exists.1 hd)
    rfl

theorem flow_linkKeepsPace {i : Instr} {s t : State} (hi : isFlow i = true) (hlink : s.LinkInv)
    (h : exec i s = .next t) : LinkKeepsPace s t := by
  obtain ⟨_, hbody⟩ := flow_next hi h
  have hbodyPace : LinkKeepsPace (s.flowStart i) t := by
    obtain ⟨_, _, _, _, hu, hother, htx⟩ := flowStart_eq s hi
    rcases hbody with ⟨hd, hb⟩ | ⟨hne, hb⟩
    · obtain ⟨_, _, hidle, _⟩ := htx hd
      exact transmitComplete_linkKeepsPace hb (by rw [hu]; exact hidle)
    · obtain ⟨hlb, _⟩ := hother hne
      exact flushBody_linkKeepsPace hb (by rw [hu, hlb]; exact hlink)
  rwa [LinkKeepsPace, flowStart_history, flowStart_onLink s hi] at hbodyPace

/-- Settles O34: a flow operation submits on an idle link or delivers first; the others leave the link alone. -/
theorem linkDeliversSubmittedBytesInOrder : Obligations.LinkDeliversSubmittedBytesInOrder := by
  intro i s t hlink hinit h
  change LinkKeepsPace s t
  rcases exec_kinds h with ⟨d, rfl⟩ | hi | ⟨_, _, ⟨_, _, _, _, _, _, hl, hg, _⟩, evs, hevs, hhist⟩
  · exact absurd rfl (hinit d)
  · exact flow_linkKeepsPace hi hlink h
  · refine linkKeepsPace_of_eq ?_ ?_
    · rw [hhist, txBytes_append, quiet_txBytes hevs, List.append_nil]
    · rw [State.onLink, State.onLink, hl, hg]

end Sys2Proof.Machine
end

section
/-! PROOFS. TX_READY and RX_BYTE commute (60_exceptions.md R234): each reads and writes its own side of the state, and
appends to the history. -/

namespace Sys2Proof.Machine

/-- `s` with the fields that TX_READY writes from `o`, the fields that RX_BYTE writes from `i`, and the two that both
write given: history `h` and response `v`. -/
def State.merged (s o i : State) (h : List Event) (v : Resp) : State :=
  { s with
    or := o.or, draining := o.draining, sigChanged := o.sigChanged, fcOut := o.fcOut, linkByte := o.linkByte
    hostGot := o.hostGot
    ibuf := i.ibuf, fill := i.fill, rxState := i.rxState, escaping := i.escaping, lastRx := i.lastRx, inCrc := i.inCrc
    rxHeld := i.rxHeld, errSticky := i.errSticky, errCode := i.errCode, errArg1 := i.errArg1, errArg2 := i.errArg2
    arrivals := i.arrivals
    history := h, resp := v }

/-! ### TX_READY on any input side -/

/-- TX_READY does the same whatever the input side holds. -/
theorem exec_txReady_merged {d : Byte} {s a : State} (h : exec (.txReady d) s = .next a) :
    ∃ tx, ∀ i hist v, exec (.txReady d) (s.merged s i hist v) = .next (s.merged a i (hist ++ tx) .nothing) := by
  rw [exec_txReady, finish_next] at h
  rcases transmitComplete_ok h with ⟨hd, rfl⟩ | ⟨hd, hstop, rfl⟩ | ⟨hd, hi, hne, hr, rfl⟩
  · refine ⟨[], fun i hist v => ?_⟩
    rw [List.append_nil]
    exact exec_txReady_spurious (s := s.merged s i hist v) hd
  · refine ⟨s.lineEvents, fun i hist v => ?_⟩
    rw [lineUpdated_eq]
    exact exec_txReady_stop (s := s.merged s i hist v) hd hstop
  · refine ⟨s.lineEvents ++ [.tx (s.obufByte s.or)], fun i hist v => ?_⟩
    rw [lineUpdated_eq, ← List.append_assoc]
    exact exec_txReady_submit (s := s.merged s i hist v) hd hi hne hr

/-! ### RX_BYTE on any output side -/

theorem decByte_merged (r : Byte) (s o : State) (h : List Event) (v : Resp) :
    decByte r (s.merged o s h v) = s.merged o (decByte r s) h v := by
  by_cases hr : r = s.params.esc
  · subst hr
    rw [decByte_esc]
    exact decByte_esc (s.merged o s h v)
  · rw [decByte_other hr]
    exact decByte_other (s := s.merged o s h v) hr

/-- An accepted RX_BYTE does the same whatever the output side holds. -/
theorem receive_merged {r : Byte} {s t : State} (hf : s.fill ≤ s.params.nIn) (h : receive r s = .ok t) :
    ∃ rx, ∀ o hist v, receive r (s.merged o s hist v) = .ok (s.merged o t (hist ++ rx) v) := by
  rcases receive_ok h with ⟨hst, hc, rfl⟩ | ⟨hst, hl, hr, rfl⟩ | ⟨hst, hr, hfit, rfl⟩ |
    ⟨hst, hr, hover, rfl⟩ | ⟨hst, rfl, u, hu, rfl⟩
  · refine ⟨[], fun o hist v => ?_⟩
    rw [List.append_nil]
    exact receive_ignored (s := s.merged o s hist v) hst hc
  · refine ⟨[], fun o hist v => ?_⟩
    have hstart := receive_start (s := s.merged o s hist v) hst hl hr
    rw [show (s.merged o s hist v).opened = s.opened.merged o s.opened hist v from rfl, decByte_merged] at hstart
    rw [List.append_nil]
    exact hstart
  · refine ⟨[], fun o hist v => ?_⟩
    have hframe := receive_inFrame (s := s.merged o s hist v) hst hr (by rw [decByte_merged]; exact hfit)
    rw [decByte_merged] at hframe
    rw [List.append_nil]
    exact hframe
  · refine ⟨[.err .inOverflow 0x0000#16 0x0000#16], fun o hist v => ?_⟩
    have hfull := receive_overflow (s := s.merged o s hist v) hst hr (by rw [decByte_merged]; exact hover)
    rw [decByte_merged] at hfull
    exact hfull
  · rcases receiveClosingFlag_ok hu with ⟨hc, h3, hcap, rfl⟩ | ⟨hc, rfl⟩
    · exact ⟨[.frame (s.fill - 2) ((List.range (s.fill - 2)).map s.ibufByte)],
        fun o hist v => receive_dispatch (s := s.merged o s hist v) hst hcap hc h3⟩
    · exact ⟨[.err .inBadFrame (countArg s.fill) 0x0000#16],
        fun o hist v => receive_bad (s := s.merged o s hist v) hst (Nat.le_add_right_of_le hf) hc⟩

/-- RX_BYTE does the same whatever the output side holds; a held one leaves the response as it was (log 6). -/
theorem exec_rxByte_merged {r : Byte} {s b : State} (hf : s.fill ≤ s.params.nIn) (h : exec (.rxByte r) s = .next b) :
    ∃ rx, ∀ o hist v, exec (.rxByte r) (s.merged o s hist v) =
      .next (s.merged o b (hist ++ rx) (if s.rxHeld then v else .nothing)) := by
  rcases rxByte_next h with ⟨hh, rfl⟩ | ⟨hh, h⟩
  · refine ⟨[], fun o hist v => ?_⟩
    rw [if_pos hh, List.append_nil]
    exact exec_rxByte_held (s := s.merged o s hist v) hh
  · obtain ⟨rx, hrx⟩ := receive_merged (s := respond .nothing s) hf h
    refine ⟨rx, fun o hist v => ?_⟩
    rw [exec_rxByte (s := s.merged o s hist v) hh, hh, finish_next]
    exact hrx o hist .nothing

/-- Settles O56: both orders end with the output side as TX_READY leaves it and the input side as RX_BYTE does. -/
theorem txReadyAndReceiveCommute : Obligations.TxReadyAndReceiveCommute := by
  intro d r s hr hf
  obtain ⟨a, ha⟩ := exec_txReady_answers hr d
  obtain ⟨b, hb⟩ := exec_rxByte_answers hf r
  obtain ⟨tx, htx⟩ := exec_txReady_merged ha
  obtain ⟨rx, hrx⟩ := exec_rxByte_merged hf hb
  refine ⟨_, _, _, _, tx, rx, htx s s.history s.resp, hrx a _ _, hrx s s.history s.resp, htx b _ _,
    List.append_assoc _ _ _, List.append_assoc _ _ _, ?_⟩
  rw [ite_self]
  rfl

end Sys2Proof.Machine
end

section
/-! PROOFS. Reset (70_reset_and_hazards.md R250 to R252): the platform's reset is a step that INIT's equation describes,
and the byte on the link is cancelled. -/

namespace Sys2Proof.Machine

/-- Settles O7: a reset is no RX_BYTE, so the step takes it even while a frame is held, and both resets are
`resetBlock` with no response. -/
theorem systemResetStepIsTheInitReset : Obligations.SystemResetStepIsTheInitReset := by
  intro s rest d harr
  unfold step
  rw [harr, takeEnabled_head (.inr rfl)]
  rfl

/-- Settles O17, read off all that INIT can do: the link is as after power-on, the byte delivered or not. -/
theorem resetCancelsTheByteInFlight : Obligations.ResetCancelsTheByteInFlight := by
  intro d s
  obtain ⟨_, hinit, hgot⟩ := init_next (d := d) (s := s) rfl
  exact ⟨_, congrArg Host.Outcome.next hinit, rfl, hgot⟩

end Sys2Proof.Machine
end

section
/-! PROOFS. SEND_FRAME to the HOST (70_reset_and_hazards.md R272): the encode appends the wire form (40_codec.md R113),
FLUSH sees to it that a byte is in flight, and the TX_READY events drain the buffer (41_output_flow.md R150). -/

namespace Sys2Proof.Machine

theorem runOps_flow_errRegs {is : List Instr} {s t : State} (hflow : ∀ i ∈ is, isFlow i = true)
    (h : runOps is s = .next t) : t.errRegs = s.errRegs := by
  induction is generalizing s with
  | nil =>
    cases h
    rfl
  | cons i is ih =>
    obtain ⟨u, hu, hrest⟩ := runOps_cons_next h
    have hkept : u.errRegs = s.errRegs := by
      obtain ⟨_, _, _, _, _, _, _, _, rfl, _⟩ := flow_frame (hflow i List.mem_cons_self) hu
      rfl
    exact (ih (fun j hj => hflow j (List.mem_cons_of_mem _ hj)) hrest).trans hkept

/-- From `s` to `t` the HOST receives the bytes `inFlight` and then all that was pending in `s`, which is all that is
submitted; no error is recorded, and nothing is left pending or draining. -/
def DeliversPending (inFlight : List Byte) (s t : State) : Prop :=
  t.hostGot = s.hostGot ++ (inFlight ++ s.pending) ∧ txBytes t.history = txBytes s.history ++ s.pending ∧
    t.errRegs = s.errRegs ∧ t.draining = false ∧ t.pending = []

theorem runOps_txReady_delivers {s : State} {b : Byte} (hw : s.ow < s.params.nOut) (hr : s.or < s.params.nOut)
    (hd : s.draining = true) (hi : s.inhibited = false) (hl : s.linkByte = some b) (d : Byte) :
    ∃ t, runOps (List.replicate (b :: s.pending).length (.txReady d)) s = .next t ∧ DeliversPending [b] s t := by
  obtain ⟨t, hrun, htx, hgot, hpend, hidle, _⟩ := runOps_txReady s.count d b s hw hr hd hi hl rfl
  rw [List.length_cons, pending_length]
  have hflow : ∀ i ∈ List.replicate (s.count + 1) (Instr.txReady d), isFlow i = true := fun _ hmem => by
    rw [List.eq_of_mem_replicate hmem]
    rfl
  exact ⟨t, hrun, hgot, htx, runOps_flow_errRegs hflow hrun, hidle, hpend⟩

/-- On an idle channel with no line update pending, FLUSH puts the first pending byte in flight. -/
theorem runOps_flush_txReady_delivers {s : State} (hw : s.ow < s.params.nOut) (hr : s.or < s.params.nOut)
    (hd : s.draining = false) (hs : s.sigChanged = false) (hi : s.inhibited = false) (hne : s.ow ≠ s.or)
    (e d : Byte) :
    ∃ t, runOps (.flush e :: List.replicate s.pending.length (.txReady d)) s = .next t ∧ DeliversPending [] s t := by
  have hpend := pending_cons hw hr hne
  obtain ⟨t, hrun, hgot, htx, hrest⟩ := runOps_txReady_delivers (b := s.obufByte s.or) (s := { s with
    resp := .nothing, linkByte := some (s.obufByte s.or), or := s.nextSlot s.or, draining := true,
    history := s.history ++ [.tx (s.obufByte s.or)] }) hw (Nat.mod_lt _ (Nat.zero_lt_of_lt hr)) rfl hi rfl d
  refine ⟨t, ?_, ?_, ?_, hrest⟩
  · rw [runOps, exec_flush_submit hd hs hi hne hr, hpend]
    exact hrun
  · rw [hgot, hpend]
    rfl
  · rw [htx, hpend, txBytes_append, List.append_assoc]
    rfl

/-- The flow operations of a SEND_FRAME and of its draining, whatever is pending: FLUSH does nothing while draining is
active, updates the line first if an update is pending, and otherwise submits the first byte (R143, R272). -/
theorem runOps_flush_delivers {s : State} {inFlight : List Byte} (hw : s.ow < s.params.nOut)
    (hr : s.or < s.params.nOut) (hi : s.inhibited = false) (hlink : s.draining = true → s.linkBusy = true)
    (hne : s.ow ≠ s.or) (hflight : inFlight = if s.draining then s.linkByte.toList else []) (e d : Byte) :
    ∃ t, runOps (.flush e :: ((if s.draining = false ∧ s.sigChanged = true then [.flush d] else []) ++
        List.replicate (inFlight ++ s.pending).length (.txReady d))) s = .next t ∧ DeliversPending inFlight s t := by
  cases hd : s.draining with
  | true =>
    obtain ⟨b, hl⟩ := Option.isSome_iff_exists.1 (hlink hd)
    obtain rfl : inFlight = [b] := by rw [hflight, hd, hl]; rfl
    obtain ⟨t, hrun, ht⟩ := runOps_txReady_delivers (s := { s with resp := .nothing }) hw hr hd hi hl d
    refine ⟨t, ?_, ht⟩
    rw [runOps, exec_flush_skip (.inl hd)]
    exact hrun
  | false =>
    obtain rfl : inFlight = [] := by rw [hflight, hd]; rfl
    cases hs : s.sigChanged with
    | true =>
      obtain ⟨t, hrun, hgot, htx, hrest⟩ := runOps_flush_txReady_delivers (s := { s with
        resp := .nothing, fcOut := !s.inhibited, sigChanged := false, history := s.history ++ [.fc (!s.inhibited)] })
        hw hr hd rfl hi hne d d
      refine ⟨t, ?_, hgot, ?_, hrest⟩
      · rw [runOps, exec_flush_update hd hs]
        exact hrun
      · rw [htx, txBytes_append]
        exact congrArg (· ++ s.pending) (List.append_nil _)
    | false => exact runOps_flush_txReady_delivers hw hr hd hs hi hne e d

/-- Settles O32: the encode changes neither the channel's flags nor the link, and the wire form is never empty, so the
flow operations find something to send. -/
theorem sendFrameReachesTheHost : Obligations.SendFrameReachesTheHost := by
  intro content inFlight d s hw hr ha hi hlink hfit hflight
  have henc := runOps_encFrame hw hr ha hfit
  have hw' := appendBytes_ow_lt hw (s.params.wire content)
  have hpend : (s.appendBytes (s.params.wire content)).pending = s.pending ++ s.params.wire content :=
    pending_appendBytes hw hr hfit
  have hne : (s.appendBytes (s.params.wire content)).ow ≠ s.or := fun heq => by
    have hnil : s.pending ++ s.params.wire content = [] := hpend.symm.trans (pending_nil hw' hr heq)
    exact List.cons_ne_nil _ _ (List.append_eq_nil_iff.1 hnil).2
  obtain ⟨t, hrun, hgot, htx, hrest⟩ := runOps_flush_delivers (s := (s.appendBytes (s.params.wire content)).setEncoder
    (s.params.crcFold s.params.crcInit (s.params.frameBytes content)) false) hw' hr hi hlink hne hflight 0x00#8 d
  refine ⟨t, ?_, ?_, htx.trans (congrArg _ hpend), hrest⟩
  · rw [sendFrame, List.append_assoc, List.append_assoc, List.append_assoc, ← hpend]
    exact runOps_append_next henc hrun
  · rw [List.append_assoc, ← hpend]
    exact hgot

end Sys2Proof.Machine
end
